-- ==== Sys2Proof/Word.lean ====
section
/-! DEFINITION. The widths of the spec's values (R13): a control-register value, an EEPROM word, a byte of the
host's view of the EEPROM, and the 64-bit host descriptor. All values are unsigned. -/

namespace Sys2Proof

/-- One byte of the EEPROM seen as a flat byte array (R46). -/
abbrev Byte := BitVec 8

/-- A 16-bit EEPROM storage unit (R3, R13). -/
abbrev Word16 := BitVec 16

/-- A value of the control register or of `data` (R13). -/
abbrev Word32 := BitVec 32

/-- One request on the host port (R70). -/
abbrev Descriptor := BitVec 64

end Sys2Proof
end

