-- ==== Sys2Proof/Config.lean ====
section
/-! DEFINITION. The configuration of one instance (R8 to R12, R29), the check made when an instance is created (R140), the
spec's test configuration (D33), and the free values of the model: constants with no body. -/

namespace Sys2Proof

/-- How the control register is reached (R11); both ways have the same semantics (R42). -/
inductive AccessMode where
  | portIO
  | mmio
  deriving DecidableEq, Repr

/-- A line the block drives (R14 `setl`). DO is an input and no `Line`. -/
inductive Line where
  | sk
  | cs
  | di
  | doe
  deriving DecidableEq, Repr

/-- The geometry's mask of which control lines are physically wired (R29). `dout` is DO. -/
structure Wired where
  sk   : Bool
  cs   : Bool
  di   : Bool
  dout : Bool
  doe  : Bool
  deriving DecidableEq, Repr

/-- The configuration record (R8 to R12). Fixed for the lifetime of an instance (R36). -/
structure Config where
  /-- MODEL: one of seven opaque identifiers (R8). -/
  model : Fin 7
  /-- CTRL_OFFSET (R8). -/
  ctrlOffset : Nat
  /-- CAPACITY in bytes (R8, R9). -/
  capacity : Nat
  /-- AW: EEPROM address width in bits (R8). -/
  aw : Nat
  /-- The wired mask; its `doe` is DOE_WIRED (R8, R29). -/
  wired : Wired
  /-- POS_SK (R10). -/
  posSK : Nat
  /-- POS_CS (R10). -/
  posCS : Nat
  /-- POS_DI (R10). -/
  posDI : Nat
  /-- POS_DO (R10). -/
  posDO : Nat
  /-- POS_DOE, of use only when DOE is wired (R10). -/
  posDOE : Nat
  /-- ACCESS_MODE (R11). -/
  accessMode : AccessMode
  /-- BASE (R11). -/
  base : Nat
  /-- T_WRITE_TIMEOUT in microseconds (R12); no rule reads it (R151). -/
  tWriteTimeout : Nat
  /-- T_POLL in microseconds (R12); no rule reads it (R151). -/
  tPoll : Nat
  deriving DecidableEq, Repr

namespace Config

/-- T_SETTLE, in microseconds (R12). -/
def tSettle : Nat := 2
/-- T_HOLD, in microseconds (R12, D9). -/
def tHold : Nat := 2
/-- T_READ_HOLD, in microseconds (R12). -/
def tReadHold : Nat := 3

/-- The bit of the control register that drives a line (R10). -/
def pos (c : Config) : Line → Nat
  | .sk => c.posSK
  | .cs => c.posCS
  | .di => c.posDI
  | .doe => c.posDOE

/-- Whether a line is wired (R29). -/
def isWired (c : Config) : Line → Bool
  | .sk => c.wired.sk
  | .cs => c.wired.cs
  | .di => c.wired.di
  | .doe => c.wired.doe

/-- The positions of the wired lines, DOE's only when it is wired (R10). -/
def positions (c : Config) : List Nat :=
  [c.posSK, c.posCS, c.posDI, c.posDO] ++ (if c.wired.doe then [c.posDOE] else [])

/-- The check of R140: AW in range, the capacity invariant, positions in range and pairwise distinct, SK, CS, DI and DO
wired, the offset a multiple of 4. -/
def ok (c : Config) : Bool :=
  decide (2 ≤ c.aw) && decide (c.aw ≤ 16) && decide (2 ^ c.aw * 2 = c.capacity) &&
  (c.positions.all fun p => decide (p < 32)) && decide c.positions.Nodup &&
  c.wired.sk && c.wired.cs && c.wired.di && c.wired.dout && decide (c.ctrlOffset % 4 = 0)

/-- CTRL_ADDR, the only address the block reaches (R11, R42, R55). -/
def ctrlAddr (c : Config) : Nat := c.base + c.ctrlOffset

/-- WORDS, the number of 16-bit words of the EEPROM (R9, R44). -/
def words (c : Config) : Nat := 2 ^ c.aw

/-- The spec's test configuration (D33, 95_test_vectors.md section 0). The fields D33 does not name (MODEL, CTRL_OFFSET,
BASE, ACCESS_MODE, T_WRITE_TIMEOUT, T_POLL) are DESIGN CHOICES of this model (log entry 2); no rule's outcome depends on
them. -/
def test : Config where
  model := 0
  ctrlOffset := 0
  capacity := 128
  aw := 6
  wired := { sk := true, cs := true, di := true, dout := true, doe := true }
  posSK := 24
  posCS := 25
  posDI := 26
  posDO := 27
  posDOE := 31
  accessMode := .mmio
  base := 0
  tWriteTimeout := 50000
  tPoll := 0

/-- FREE VALUE: the n-th unscripted answer of a RegRead32 (R53, I16: a draw under no law). Nothing constrains it (log
entry 3). -/
opaque freeRead : Nat → Word32

/-- FREE VALUE: how many DeadlineExpired() answers of a WAIT are false before the first true one (R121, I18); finite by
R122. Nothing else constrains it (log entry 4). -/
opaque freeDeadline : Nat → Nat

/-- FREE VALUE: the reference part's programming time, in polls that read busy (R130, I15). Nothing constrains it (log
entry 12). -/
opaque freeProgTime : Nat → Nat

end Config

end Sys2Proof
end

