-- ==== Sys2Proof/Syntax.lean ====
section
/-! DEFINITION. The rows of spec/opcode_table.json, one constructor each: the host operations (R71, R73), the serial
frames the block clocks into the EEPROM (R65 to R68), and the internal micro-operations (R78). -/

namespace Sys2Proof

/-- Every row of the opcode table. -/
inductive Instr where
  /-- READ_WORD `addr` (R90). -/
  | readWord (addr : Word16)
  /-- WRITE_WORD `addr, value` (R92). -/
  | writeWord (addr value : Word16)
  /-- WRITE_ENABLE, alias EWEN (R93). -/
  | writeEnable
  /-- WRITE_DISABLE, alias EWDS (R94). -/
  | writeDisable
  /-- A descriptor whose operation code is reserved (R73): not an instruction, it completes with IllegalOp. -/
  | reserved (op : BitVec 4)
  /-- The READ frame of word `addr` (R65). -/
  | readFrame (addr : Word16)
  /-- The WRITE frame of `value` at word `addr` (R66). -/
  | writeFrame (addr value : Word16)
  /-- The EWEN frame (R67). -/
  | ewenFrame
  /-- The EWDS frame (R68). -/
  | ewdsFrame
  /-- START (R82). -/
  | start
  /-- PUT_BITS `value, n` (R83). -/
  | putBits (value : Word32) (n : Nat)
  /-- GET_BITS `n` (R84). -/
  | getBits (n : Nat)
  /-- END (R85). -/
  | endOp
  /-- WAIT (R95). -/
  | wait
  deriving DecidableEq, Repr

end Sys2Proof
end

