-- ==== Sys2Proof/WellFormed.lean ====
section
/-! DEFINITION. Which terms of Instr the spec's encodings and operand ranges admit, for an EEPROM with `aw` address
bits. -/

namespace Sys2Proof

/-- The codes R73 reserves: 0x0 and 0x5 to 0xF. -/
def isReservedOp (op : BitVec 4) : Bool :=
  op.toNat == 0 || decide (5 ≤ op.toNat)

/-- A well-formed instruction: a reserved row holds a reserved code (R73), a frame's address fits its `aw` address bits
(R69), a count is at most 32 (R83, R84). Every ADDR and DATA value of a host operation is legal (R72). -/
def Instr.wf (aw : Nat) : Instr → Bool
  | .readWord _ => true
  | .writeWord _ _ => true
  | .writeEnable => true
  | .writeDisable => true
  | .reserved op => isReservedOp op
  | .readFrame addr => decide (addr.toNat < 2 ^ aw)
  | .writeFrame addr _ => decide (addr.toNat < 2 ^ aw)
  | .ewenFrame => true
  | .ewdsFrame => true
  | .start => true
  | .putBits _ n => decide (n ≤ 32)
  | .getBits n => decide (n ≤ 32)
  | .endOp => true
  | .wait => true

/-- The rows the host can issue (R71, R73, R114); frames and micro-operations have no host encoding (R78). -/
def Instr.isHostOp : Instr → Bool
  | .readWord _ => true
  | .writeWord _ _ => true
  | .writeEnable => true
  | .writeDisable => true
  | .reserved _ => true
  | .readFrame _ => false
  | .writeFrame _ _ => false
  | .ewenFrame => false
  | .ewdsFrame => false
  | .start => false
  | .putBits _ _ => false
  | .getBits _ => false
  | .endOp => false
  | .wait => false

end Sys2Proof
end

