-- ==== Sys2Proof/Decode.lean ====
section
/-! DEFINITION. The two encodings of the spec: the 64-bit host descriptor (R70 to R73, R76) and the serial frames (R62 to
R69, R75), each with its decoder and its encoder, and the assembler of R77. Micro-operations have no encoding (R78). -/

namespace Sys2Proof

/-! ### The host descriptor -/

/-- Field OP, bits [3:0] (R70). -/
def Descriptor.op (d : Descriptor) : BitVec 4 := BitVec.extractLsb' 0 4 d
/-- Field ADDR, bits [31:16] (R70). -/
def Descriptor.addr (d : Descriptor) : Word16 := BitVec.extractLsb' 16 16 d
/-- Field DATA, bits [47:32] (R70). -/
def Descriptor.value (d : Descriptor) : Word16 := BitVec.extractLsb' 32 16 d

/-- Decoding a descriptor is total and depends on OP alone for its outcome (R71, R73, R76); bits [15:4], [63:48] and the
fields an operation does not use are ignored (R72). -/
def decodeDescriptor (d : Descriptor) : Instr :=
  match (Descriptor.op d).toNat with
  | 1 => .readWord (Descriptor.addr d)
  | 2 => .writeWord (Descriptor.addr d) (Descriptor.value d)
  | 3 => .writeEnable
  | 4 => .writeDisable
  | _ => .reserved (Descriptor.op d)

/-- A descriptor from its three fields, the ignored bits 0 (R70). -/
def packDescriptor (value addr : Word16) (op : BitVec 4) : Descriptor :=
  value.setWidth 64 <<< 32 ||| addr.setWidth 64 <<< 16 ||| op.setWidth 64

/-- The descriptor of a host operation (R70, R71); none for a row the host cannot issue (R78). -/
def encodeDescriptor : Instr → Option Descriptor
  | .readWord a => some (packDescriptor 0 a 1)
  | .writeWord a v => some (packDescriptor v a 2)
  | .writeEnable => some (packDescriptor 0 0 3)
  | .writeDisable => some (packDescriptor 0 0 4)
  | .reserved op => some (packDescriptor 0 0 op)
  | .readFrame _ => none
  | .writeFrame _ _ => none
  | .ewenFrame => none
  | .ewdsFrame => none
  | .start => none
  | .putBits _ _ => none
  | .getBits _ => none
  | .endOp => none
  | .wait => none

/-! ### Serial frames -/

/-- `value[n-1]` down to `value[0]`: the order in which a field of `n` bits is sent (R45, R69). -/
def msbBits (v : Word32) : Nat → List Bool
  | 0 => []
  | n + 1 => v.getLsbD n :: msbBits v n

/-- The number whose bits, most significant first, are given (R45). -/
def bitsToNat (bits : List Bool) : Nat :=
  bits.foldl (fun acc b => 2 * acc + b.toNat) 0

/-- Why a bit string is none of the four frames of R62. -/
inductive FrameError where
  /-- The first bit is not the start bit 1 (R64). -/
  | noStartBit
  /-- The bits end before the frame does (R75). -/
  | truncated
  /-- More bits than the frame has (R75). -/
  | overlong
  /-- EWEN or EWDS padding that is not all zeros (R67, R68). -/
  | badPadding
  /-- A command the block never sends: ERASE, ERAL, WRAL (R74). -/
  | neverSent
  deriving DecidableEq, Repr

/-- A field of exactly `n` bits, or by how it misses. -/
def exactField (n : Nat) (bits : List Bool) : Except FrameError (List Bool) :=
  if bits.length < n then .error .truncated
  else if n < bits.length then .error .overlong
  else .ok bits

/-- A padding of exactly `n` zeros (R67, R68). -/
def padding (n : Nat) (bits : List Bool) (i : Instr) : Except FrameError Instr :=
  match exactField n bits with
  | .error e => .error e
  | .ok pad => if pad.any id then .error .badPadding else .ok i

/-- The bits after a start bit and the opcode bits 10: the address (R65). -/
def decodeReadFields (aw : Nat) (bits : List Bool) : Except FrameError Instr :=
  match exactField aw bits with
  | .error e => .error e
  | .ok field => .ok (.readFrame (BitVec.ofNat 16 (bitsToNat field)))

/-- The bits after a start bit and the opcode bits 01: the address, then 16 data bits (R66). -/
def decodeWriteFields (aw : Nat) (bits : List Bool) : Except FrameError Instr :=
  match exactField (aw + 16) bits with
  | .error e => .error e
  | .ok field =>
    .ok (.writeFrame (BitVec.ofNat 16 (bitsToNat (field.take aw))) (BitVec.ofNat 16 (bitsToNat (field.drop aw))))

/-- The frame a receiver with `aw` address bits reads from the bits clocked in, start bit first (R75); any other bit string
is rejected by name. -/
def decodeFrame (aw : Nat) (bits : List Bool) : Except FrameError Instr :=
  match bits with
  | [] => .error .truncated
  | false :: _ => .error .noStartBit
  | true :: true :: false :: rest => decodeReadFields aw rest
  | true :: false :: true :: rest => decodeWriteFields aw rest
  | true :: false :: false :: true :: true :: rest => padding (aw - 2) rest .ewenFrame
  | true :: false :: false :: false :: false :: rest => padding (aw + 2) rest .ewdsFrame
  | true :: true :: true :: _ => .error .neverSent
  | true :: false :: false :: true :: false :: _ => .error .neverSent
  | true :: false :: false :: false :: true :: _ => .error .neverSent
  | _ => .error .truncated

/-- The bits a frame clocks into the EEPROM, start bit first (R65 to R68); none for rows that are no frame. -/
def encodeFrame (aw : Nat) : Instr → Option (List Bool)
  | .readFrame a => some ([true] ++ [true, false] ++ msbBits (a.setWidth 32) aw)
  | .writeFrame a v =>
    some ([true] ++ [false, true] ++ msbBits (a.setWidth 32) aw ++ msbBits (v.setWidth 32) 16)
  | .ewenFrame => some ([true] ++ [false, false, true, true] ++ List.replicate (aw - 2) false)
  | .ewdsFrame => some ([true] ++ [false, false, false, false] ++ List.replicate (aw + 2) false)
  | .readWord _ => none
  | .writeWord _ _ => none
  | .writeEnable => none
  | .writeDisable => none
  | .reserved _ => none
  | .start => none
  | .putBits _ _ => none
  | .getBits _ => none
  | .endOp => none
  | .wait => none

/-- The bits of a number, most significant first, from its leading 1. -/
def numberBits (w : Nat) : List Bool :=
  (List.range (w.log2 + 1)).reverse.map fun i => w.testBit i

/-- The instruction read from a row's bits as the opcode table numbers them. A number of fewer than 64 bits is read as a
serial frame when its bits from the leading 1 (the start bit) are one at the test configuration's AW, the width the table
shows frames at; every other number is a host descriptor (log entry 26). -/
def decodeTableWord (nbits w : Nat) : Option Instr :=
  if 2 ^ 64 ≤ w then none
  else if 64 ≤ nbits then some (decodeDescriptor (BitVec.ofNat 64 w))
  else
    match decodeFrame Config.test.aw (numberBits w) with
    | .ok i => some i
    | .error _ => some (decodeDescriptor (BitVec.ofNat 64 w))

/-! ### Assembler syntax (R77) -/

/-- Why a line is no host program line. -/
inductive AsmError where
  /-- The first word is no mnemonic of R77. -/
  | unknownMnemonic
  /-- Too few or too many operands, or a comma out of place. -/
  | badOperands
  /-- An operand that is neither decimal nor `0x` hexadecimal. -/
  | badNumber
  /-- An `addr` or `data` outside 16 bits. -/
  | outOfRange
  deriving DecidableEq, Repr

/-- The value of a digit in base 16. -/
def digitValue (c : Char) : Option Nat :=
  let n := c.toNat
  if 48 ≤ n ∧ n ≤ 57 then some (n - 48)
  else if 97 ≤ n ∧ n ≤ 102 then some (n - 87)
  else if 65 ≤ n ∧ n ≤ 70 then some (n - 55)
  else none

/-- Digits of a base after the value read so far. -/
def parseDigits (base : Nat) : Nat → List Char → Option Nat
  | acc, [] => some acc
  | acc, c :: cs =>
    match digitValue c with
    | some d => if d < base then parseDigits base (base * acc + d) cs else none
    | none => none

/-- A decimal or `0x` hexadecimal number (R77). -/
def parseNumber : List Char → Option Nat
  | [] => none
  | ['0', 'x'] => none
  | '0' :: 'x' :: cs => parseDigits 16 0 cs
  | cs => parseDigits 10 0 cs

/-- A 16-bit operand: an assembler refuses others (R77). -/
def parseOperand (cs : List Char) : Except AsmError Word16 :=
  match parseNumber cs with
  | none => .error .badNumber
  | some n => if n < 65536 then .ok (BitVec.ofNat 16 n) else .error .outOfRange

/-- The words of a line: split at blanks, each comma a word of its own, all from `;` on dropped. `cur` is the word being
read, backwards. -/
def asmWords (cur : List Char) : List Char → List (List Char)
  | [] => if cur = [] then [] else [cur.reverse]
  | c :: cs =>
    let done := if cur = [] then [] else [cur.reverse]
    if c = ';' then done
    else if c = ' ' ∨ c = '\t' then done ++ asmWords [] cs
    else if c = ',' then done ++ [','] :: asmWords [] cs
    else asmWords (c :: cur) cs

/-- One line of a host program: an operation, or nothing on a blank or comment line (R77). The alias names are those of
R77; there are no pseudo-instructions. -/
def assembleLine (line : List Char) : Except AsmError (Option Instr) :=
  match asmWords [] line with
  | [] => .ok none
  | name :: operands =>
    if name = ['R', 'E', 'A', 'D', '_', 'W', 'O', 'R', 'D'] then
      match operands with
      | [a] => (parseOperand a).map fun a => some (.readWord a)
      | _ => .error .badOperands
    else if name = ['W', 'R', 'I', 'T', 'E', '_', 'W', 'O', 'R', 'D'] then
      match operands with
      | [a, [','], v] =>
        match parseOperand a with
        | .error e => .error e
        | .ok a => (parseOperand v).map fun v => some (.writeWord a v)
      | _ => .error .badOperands
    else if name = ['W', 'R', 'I', 'T', 'E', '_', 'E', 'N', 'A', 'B', 'L', 'E'] ∨ name = ['E', 'W', 'E', 'N'] then
      if operands = [] then .ok (some .writeEnable) else .error .badOperands
    else if name = ['W', 'R', 'I', 'T', 'E', '_', 'D', 'I', 'S', 'A', 'B', 'L', 'E'] ∨ name = ['E', 'W', 'D', 'S'] then
      if operands = [] then .ok (some .writeDisable) else .error .badOperands
    else .error .unknownMnemonic

end Sys2Proof
end

