-- ==== Sys2Proof/Machine/State.lean ====
section
/-! DEFINITION. The machine's state as plain data: the sequencer's record (R16), the bridge's control register (R28), the
timer's answer (R121), the EEPROM part (R34, R128), the moves and oracle answers still to come, the event history (R15)
and the configuration (R36); the reasons a step can stop; and the state after reset (R38, R136). -/

namespace Sys2Proof.Machine

/-- The engine's state (R17, conflict C5: two values). -/
inductive Phase where
  | idle
  | commandActive
  deriving DecidableEq, Repr

/-- The status codes of R101; `Status.code` gives their numbers. -/
inductive Status where
  | ok
  | addressOutOfRange
  | protocolFraming
  | writeTimeout
  | illegalOp
  deriving DecidableEq, Repr

/-- One event of the history (R15). A delay is recorded with its minimum in microseconds (R120). -/
inductive Event where
  | write (v : Word32)
  | read (v : Word32)
  | delay (us : Nat)
  | yield
  | completed (status : Status) (value : Word32)
  deriving DecidableEq, Repr

/-- The named holds of R12. -/
inductive Hold where
  | settle
  | plain
  | readHold
  deriving DecidableEq, Repr

/-- One action of a sequence (R25: a register access, a delay or a poll). An assignment of the pseudocode that touches no
port rides on the action before it (log entry 21). -/
inductive Act where
  /-- START's `ctl <- RegRead32()` (R82). -/
  | loadCtl
  /-- The named lines change in `ctl`, DOE with DI (R81), and `RegWrite32(ctl)` follows (R80); `inPhase` is the phase in
  which the primitive makes this write (R82 to R86). -/
  | drive (inPhase : Phase) (sk cs di : Option Bool)
  /-- A hold in phase `inPhase`, then a phase change where the rule makes one (R82, R85). -/
  | hold (inPhase : Phase) (h : Hold) (next : Option Phase)
  /-- GET_BITS' read-mode write and `acc <- 0` (R84). -/
  | readMode
  /-- GET_BITS' `RegRead32` into `acc` (R84). -/
  | sample
  /-- READ_WORD's framing check (R91). -/
  | check
  /-- WAIT's re-assert write; its deadline starts (R95). -/
  | reassert
  /-- One poll of WAIT and its deadline test (R95). -/
  | poll
  /-- WAIT's `Yield()` (R95). -/
  | yield
  /-- `complete(st, 0)` (R37). -/
  | complete (st : Status)
  /-- `complete(OK, zext_32(acc[15:0]))` (R90). -/
  | completeRead
  /-- `complete(s, 0)` with the status that was returned (R91, R92). -/
  | completeRet
  deriving DecidableEq, Repr

/-- A move of the agents around the sequencer, in the order they come (R115, R116). -/
inductive Move where
  /-- The host issues a descriptor and waits for its completion: the whole operation (R116, R50). -/
  | run (d : Descriptor)
  /-- The host issues a descriptor; its actions are the steps that follow (R116, R25). -/
  | issue (d : Descriptor)
  /-- The sequencer takes one action (R115 item 1). -/
  | act
  /-- The EEPROM part takes one step of its own (R115 item 4, R130); with an oracle for DO it changes nothing. -/
  | part
  /-- Reset (R136, R137). -/
  | reset
  /-- Another agent writes the control register (R144); premise P1 excludes it (R141). -/
  | foreign (v : Word32)
  deriving DecidableEq, Repr

/-- What answers for DO (R53, R127): an oracle, or the reference part of R128 to R135, which is no part of the block. -/
inductive Attachment where
  | oracle
  | reference
  deriving DecidableEq, Repr

/-- The reference part's command state machine (R128, R131). -/
inductive PartCmd where
  /-- Waiting for a start bit (R129, R131). -/
  | waiting
  /-- A start bit was seen; these bits were shifted in after it, oldest first (R131). -/
  | shifting (bits : List Bool)
  /-- A frame was begun while the part programmed: it is missed (R145; log entry 11). -/
  | lost
  deriving DecidableEq, Repr

/-- What the bits shifted in so far amount to (R129, R131 to R134). -/
inductive PartCommand where
  | incomplete
  /-- READ of a word, with the number of rising edges after the dummy bit (R132). -/
  | read (addr edges : Nat)
  /-- A complete WRITE (R133). -/
  | write (addr : Nat) (value : Word16)
  | ewen
  | ewds
  /-- A command the block never sends (R134). -/
  | other
  deriving DecidableEq, Repr

/-- Memory as address and byte pairs in canonical form. Addresses are the byte offsets of R46. -/
abbrev Memory := List Host.Cell

/-- A word being programmed, and how many steps of its own the part still makes busy before the one that ends it (R128 to
R130; log entry 12). -/
structure Programming where
  addr  : Nat
  value : Word16
  left  : Nat
  deriving DecidableEq, Repr

/-- The EEPROM part's state (R34, R128). -/
structure Part where
  /-- The word array, as the bytes of R46. -/
  mem : Memory
  /-- The write-enable latch (R35, R128). -/
  we : Bool
  /-- The busy state with what is being programmed (R128, R129). -/
  programming : Option Programming
  /-- The command state machine (R128). -/
  cmd : PartCmd
  deriving DecidableEq, Repr

/-- The machine's state. -/
structure State where
  /-- The configuration; no step writes it (R36; log entry 1). -/
  cfg : Config
  /-- `phase` (R17). -/
  phase : Phase
  /-- `ctl`, the shadow control value; `none` is the spec's ⊥ (R19). -/
  ctl : Option Word32
  /-- `busy` (R21). -/
  busy : Bool
  /-- `status` of the last completed operation (R22). -/
  status : Status
  /-- `data` of the last completed operation (R23). -/
  data : Word32
  /-- `acc`, GET_BITS' accumulator, `none` between operations (R24). -/
  acc : Option Word32
  /-- `step` (R25): the actions of the running operation still to come; empty between operations. -/
  stepPos : List Act
  /-- The status that WAIT or the framing check returned to its caller (R91, R95; log entry 18). -/
  ret : Option Status
  /-- The control register as last written; its bits are the levels of SK, CS, DI and DOE (R28, R52; log entry 7). -/
  creg : Word32
  /-- How many more DeadlineExpired() answers of this WAIT are false (R121; log entry 4). -/
  deadline : Nat
  /-- What answers for DO (R53, R127; log entry 9). -/
  attached : Attachment
  /-- The EEPROM part (R34, R128). -/
  part : Part
  /-- The moves still to come; when there is none, a running operation goes on and an idle sequencer waits (R126). -/
  moves : List Move
  /-- Oracle answers of RegRead32 still to come; a free value when there is none (R53; log entry 3). -/
  answers : List Word32
  /-- Deadlines of the WAITs still to come; a free value when there is none (R121; log entry 4). -/
  deadlines : List Nat
  /-- Programming times still to come; a free value when there is none (R130; log entry 12). -/
  progTimes : List Nat
  /-- How many free values were drawn; no statement rests on it (log entry 5). -/
  draws : Nat
  /-- The event history, newest first (R15). -/
  history : List Event
  deriving DecidableEq, Repr

/-- Why a step stops with a fault. All are phase or position conditions the rules call invariants. -/
inductive Fault where
  /-- A micro-operation or an accepted operation outside its phase (R86, I10): raised by the meanings of all rows but the
  reserved one, by WAIT outside Idle, and by a single action of a sequence outside the phase it stands in. Safe:
  unreachable in the hardware. -/
  | phaseViolation
  /-- An action that needs `ctl`, `acc` or a returned status while it has no value (R20, R24): raised by PUT_BITS,
  GET_BITS, END, WAIT and by a single action. Safe: no rule reads ⊥. -/
  | noValue
  /-- `busy` is 1 and no action is left (R25): raised by a single action. Safe: every sequence ends in `complete` (R37). -/
  | sequenceLost
  deriving DecidableEq, Repr

/-- Why a step is refused. -/
inductive Refusal where
  /-- An instruction without a meaning yet: no arm answers so. Safe. -/
  | notModelled (mnemonic : String)
  /-- A descriptor while `busy` is 1 is no move of the model (R117, I11): raised by host operations. Safe where hosts keep
  R117. -/
  | hostBusy
  /-- A configuration R140 excludes: no machine is built (I12). Raised by every meaning and every step. Safe. -/
  | badConfiguration
  /-- A term no encoding or operand range of the spec admits (R69, R73, R83, R84): raised by the meanings of the reserved
  row, the READ and WRITE frames, PUT_BITS and GET_BITS. Safe. -/
  | notWellFormed
  /-- A frame or a micro-operation offered to the host port (R78): raised when an operation is begun. Safe: no descriptor
  decodes to one. -/
  | notHostOperation
  deriving DecidableEq, Repr

/-- A new instance: the reset values of R38. Values the spec leaves to a draw or that are the model's own are DESIGN
CHOICES: `creg` (log entry 6), the part (8, 10), `attached` (9), the timer and the environment (3, 4, 5, 12, 16). -/
def State.fresh (c : Config) : State where
  cfg := c
  phase := .idle
  ctl := none
  busy := false
  status := .ok
  data := 0
  acc := none
  stepPos := []
  ret := none
  creg := 0
  deadline := 0
  attached := .oracle
  part := { mem := [], we := false, programming := none, cmd := .waiting }
  moves := []
  answers := []
  deadlines := []
  progTimes := []
  draws := 0
  history := []

/-- Creating an instance: no machine is built for a configuration R140 excludes (R136, R139, R140). -/
def State.create (c : Config) : Option State :=
  if c.ok then some (State.fresh c) else none

/-- The machine right after reset (R38, R136), of the spec's test configuration (log entry 2). -/
def State.reset : State := State.fresh Config.test

end Sys2Proof.Machine
end

