-- ==== Sys2Proof/Machine/Operands.lean ====
section
/-! DEFINITION. Operand forms: single lines of a control-register value (R14 `setl`, R81), the fields an operation sends
(R69), and the address range check (R89). -/

namespace Sys2Proof.Machine

/-- `v` with bit `i` replaced by `b` (R14). -/
def setBit (v : Word32) (i : Nat) (b : Bool) : Word32 :=
  if b then v ||| (1#32 <<< i) else v &&& ~~~(1#32 <<< i)

/-- `setl(c, L, b)`: bit POS_L replaced when line L is wired, unchanged otherwise (R14, R29). -/
def setl (cfg : Config) (c : Word32) (l : Line) (b : Bool) : Word32 :=
  if cfg.isWired l then setBit c (cfg.pos l) b else c

/-- `setl` where a level is given. -/
def setlOpt (cfg : Config) (c : Word32) (l : Line) : Option Bool → Word32
  | none => c
  | some b => setl cfg c l b

/-- One group of line changes; DOE takes the value DI takes (R80, R81, D6). -/
def driveLines (cfg : Config) (c : Word32) (sk cs di : Option Bool) : Word32 :=
  setlOpt cfg (setlOpt cfg (setlOpt cfg (setlOpt cfg c .sk sk) .cs cs) .di di) .doe di

/-- The level of a line the bridge drives from a control-register value (R52). -/
def level (cfg : Config) (v : Word32) (l : Line) : Bool := v.getLsbD (cfg.pos l)

/-- The address field of a frame, as PUT_BITS takes it (R69). -/
def addrField (addr : Word16) : Word32 := addr.setWidth 32

/-- The data field of a frame, as PUT_BITS takes it (R69). -/
def dataField (value : Word16) : Word32 := value.setWidth 32

/-- The opcode bits of the READ frame, width 2 (R65). -/
def opRead : Word32 := 0b10#32
/-- The opcode bits of the WRITE frame, width 2 (R66). -/
def opWrite : Word32 := 0b01#32
/-- The opcode bits of the EWEN frame, width 4 (R67). -/
def opEwen : Word32 := 0b0011#32
/-- The opcode bits of the EWDS frame, width 4 (R68). -/
def opEwds : Word32 := 0b0000#32

/-- The range check: `ADDR >= 2^AW`, as unsigned integers (R44, R89, R102). -/
def outOfRange (cfg : Config) (addr : Word16) : Bool := decide (cfg.words ≤ addr.toNat)

/-- What is reported before any bus access, in the order of R109: a reserved code, then an address out of range. -/
def earlyStatus (cfg : Config) : Instr → Option Status
  | .readWord a => if outOfRange cfg a then some .addressOutOfRange else none
  | .writeWord a _ => if outOfRange cfg a then some .addressOutOfRange else none
  | .reserved _ => some .illegalOp
  | .writeEnable => none
  | .writeDisable => none
  | .readFrame _ => none
  | .writeFrame _ _ => none
  | .ewenFrame => none
  | .ewdsFrame => none
  | .start => none
  | .putBits _ _ => none
  | .getBits _ => none
  | .endOp => none
  | .wait => none

end Sys2Proof.Machine
end

