-- ==== Sys2Proof/Machine/Flags.lean ====
section
/-! DEFINITION. The block has no condition flags; its condition values are the DO bit of a RegRead32 and the status code
(R27). -/

namespace Sys2Proof.Machine

/-- The DO bit of a value read from the control register (R30, R53). -/
def doBit (cfg : Config) (r : Word32) : Bool := r.getLsbD cfg.posDO

/-- The 3-bit code of a status (R22, R101). -/
def Status.code : Status → BitVec 3
  | .ok => 0
  | .addressOutOfRange => 1
  | .protocolFraming => 2
  | .writeTimeout => 3
  | .illegalOp => 4

/-- GET_BITS' accumulation of one sample: `(acc << 1) | zext_32(r[POS_DO])` (R84). -/
def accumulate (acc : Word32) (b : Bool) : Word32 := (acc <<< 1) ||| (BitVec.ofBool b).setWidth 32

/-- READ_WORD's data result: `zext_32(d[15:0])` (R23, R90). -/
def readResult (acc : Word32) : Word32 := (acc.setWidth 16).setWidth 32

end Sys2Proof.Machine
end

