-- ==== Sys2Proof/Machine/Ops.lean ====
section
/-! DEFINITION. The named operations: the EEPROM's memory, the reference part (R128 to R135), RegRead32 and RegWrite32
(R52, R53), one action of a sequence (R25), `complete` and `raise` (R37, R108), and reset (R136, R137). -/

namespace Sys2Proof.Machine

/-! ### Memory -/

/-- What an unlisted byte of the word array reads as: DESIGN CHOICE 0xFF, an erased word's byte (log entry 8). -/
def Memory.unlisted : Byte := 0xFF#8

/-- The byte at an offset (R46). -/
def Memory.read : Memory → Nat → Byte
  | [], _ => Memory.unlisted
  | (k, v) :: m, a => if k = a then v else Memory.read m a

/-- Writing one byte, keeping the canonical form. -/
def Memory.write : Memory → Nat → Byte → Memory
  | [], a, v => if v = Memory.unlisted then [] else [(a, v)]
  | (k, w) :: m, a, v =>
    if a < k then (if v = Memory.unlisted then (k, w) :: m else (a, v) :: (k, w) :: m)
    else if a = k then (if v = Memory.unlisted then m else (a, v) :: m)
    else (k, w) :: Memory.write m a v

/-- Canonical from an offset on: offsets strictly rising, no entry equal to what an unlisted byte reads as. -/
def Memory.wfFrom : Nat → Memory → Bool
  | _, [] => true
  | lo, (k, v) :: m => decide (lo ≤ k) && decide (v ≠ Memory.unlisted) && Memory.wfFrom (k + 1) m

/-- The canonical form of memory. -/
def Memory.wf (m : Memory) : Bool := Memory.wfFrom 0 m

/-- Word `k` of the array: low byte at offset 2k, high byte at 2k+1 (R46). -/
def Memory.readWord (m : Memory) (k : Nat) : Word16 :=
  Memory.read m (2 * k + 1) ++ Memory.read m (2 * k)

/-- Programming word `k` (R46, R129). -/
def Memory.writeWord (m : Memory) (k : Nat) (v : Word16) : Memory :=
  Memory.write (Memory.write m (2 * k) (v.setWidth 8)) (2 * k + 1) ((v >>> 8).setWidth 8)

/-! ### The reference part -/

/-- The command that the bits after the start bit make up (R131 to R134): bits after a complete command are ignored, but
for READ, where they count the edges after the dummy bit. -/
def partCommand (aw : Nat) : List Bool → PartCommand
  | true :: false :: rest =>
    if aw ≤ rest.length then .read (bitsToNat (rest.take aw)) (rest.length - aw) else .incomplete
  | false :: true :: rest =>
    if aw + 16 ≤ rest.length then
      .write (bitsToNat (rest.take aw)) (BitVec.ofNat 16 (bitsToNat ((rest.drop aw).take 16)))
    else .incomplete
  | false :: false :: rest =>
    if aw ≤ rest.length then
      match rest with
      | true :: true :: _ => .ewen
      | false :: false :: _ => .ewds
      | _ => .other
    else .incomplete
  | true :: true :: _ => .other
  | _ => .incomplete

/-- A rising SK edge with CS high (R131 to R134). While the part programs, a start bit is missed (log entry 11). -/
def Part.clock (di : Bool) (p : Part) : Part :=
  match p.cmd with
  | .waiting =>
    if di then { p with cmd := if p.programming.isSome then .lost else .shifting [] } else p
  | .shifting bits => { p with cmd := .shifting (bits ++ [di]) }
  | .lost => p

/-- The end of programming: the word holds the frame's data (R129). -/
def Part.finishProgramming (g : Programming) (p : Part) : Part :=
  { p with mem := Memory.writeWord p.mem g.addr g.value, programming := none }

/-- Programming starts: the part is busy, for `time` steps of its own before the one that ends it (R129, R130; log entry
12). -/
def Part.program (addr : Nat) (value : Word16) (time : Nat) (p : Part) : Part :=
  { p with programming := some { addr := addr, value := value, left := time } }

/-- The write that a falling CS edge would begin to program: a complete WRITE frame while `we` is true (R129). -/
def Part.pendingWrite (aw : Nat) (p : Part) : Option (Nat × Word16) :=
  match p.cmd with
  | .shifting bits =>
    match partCommand aw bits with
    | .write a v => if p.we then some (a, v) else none
    | _ => none
  | _ => none

/-- The write-enable latch after a falling CS edge: set by a complete EWEN, cleared by a complete EWDS (R35, R129). -/
def Part.latchAfter (aw : Nat) (p : Part) : Bool :=
  match p.cmd with
  | .shifting bits =>
    match partCommand aw bits with
    | .ewen => true
    | .ewds => false
    | _ => p.we
  | _ => p.we

/-- One step of the part's own: a word being programmed comes one unit of time nearer its end (R115 item 4, R130). -/
def Part.tick (p : Part) : Part :=
  match p.programming with
  | none => p
  | some g =>
    if g.left = 0 then Part.finishProgramming g p
    else { p with programming := some { g with left := g.left - 1 } }

/-- Bit of a READ in progress: the dummy 0, then D15 first, then the words after it (R132; log entry 13). -/
def Part.readBit (aw : Nat) (p : Part) (addr edges : Nat) : Bool :=
  if edges = 0 then false
  else (Memory.readWord p.mem ((addr + (edges - 1) / 16) % 2 ^ aw)).getLsbD (15 - (edges - 1) % 16)

/-- The level the part drives on DO with CS high, if it drives any (R130, R132; I2 between fields). -/
def Part.dout (aw : Nat) (p : Part) : Option Bool :=
  match p.cmd with
  | .waiting => some p.programming.isNone
  | .shifting bits =>
    match partCommand aw bits with
    | .read a e => some (Part.readBit aw p a e)
    | _ => none
  | .lost => none

/-- The programming time of a write that begins now: scripted, else a free value (R130, I15). -/
def nextProgTime (s : State) : Nat :=
  match s.progTimes with
  | t :: _ => t
  | [] => Config.freeProgTime s.draws

/-- The state once that time is drawn. -/
def takeProgTime (s : State) : State :=
  match s.progTimes with
  | _ :: ts => { s with progTimes := ts }
  | [] => { s with draws := s.draws + 1 }

/-- The reference part at a falling CS edge (R129). -/
def partFrameEnd (s : State) : State :=
  let p := { s.part with we := Part.latchAfter s.cfg.aw s.part }
  match Part.pendingWrite s.cfg.aw s.part with
  | none => { s with part := p }
  | some (a, v) => { takeProgTime s with part := Part.program a v (nextProgTime s) p }

/-- The reference part sees the lines go from those of `old` to those of `new` (R128, R129, R131; log entry 14). -/
def partObserve (old new : Word32) (s : State) : State :=
  if level s.cfg new .cs then
    if !level s.cfg old .sk && level s.cfg new .sk then
      { s with part := Part.clock (level s.cfg new .di) s.part }
    else s
  else
    let t := if level s.cfg old .cs then partFrameEnd s else s
    { t with part := { t.part with cmd := .waiting } }

/-- The lines change; an attached reference part sees it (R52, R127). -/
def setLines (v : Word32) (s : State) : State :=
  let t := { s with creg := v }
  match s.attached with
  | .oracle => t
  | .reference => partObserve s.creg v t

/-! ### Register accesses -/

/-- An event joins the history (R15). -/
def record (e : Event) (s : State) : State := { s with history := e :: s.history }

/-- `RegWrite32(v)` (R14, R52). -/
def regWrite (v : Word32) (s : State) : State := setLines v (record (.write v) s)

/-- The oracle's answer to the next RegRead32: scripted, else a free value (R53). -/
def nextAnswer (s : State) : Word32 :=
  match s.answers with
  | r :: _ => r
  | [] => Config.freeRead s.draws

/-- The state once that answer is taken. -/
def takeAnswer (s : State) : State :=
  match s.answers with
  | _ :: rs => { s with answers := rs }
  | [] => { s with draws := s.draws + 1 }

/-- Whether an attached reference part is selected (R129). -/
def partSelected (s : State) : Bool := decide (s.attached = .reference) && level s.cfg s.creg .cs

/-- The level the attached part drives on DO, if any; with an oracle none (R53, R129). -/
def partDout (s : State) : Option Bool :=
  if partSelected s then Part.dout s.cfg.aw s.part else none

/-- The value a RegRead32 returns: the oracle's answer, its DO bit the part's where the part drives it (R53). -/
def readValue (s : State) : Word32 :=
  match partDout s with
  | none => nextAnswer s
  | some b => setBit (nextAnswer s) s.cfg.posDO b

/-- The state after `RegRead32()`: no effect on the bridge, the lines or the EEPROM (R54). -/
def afterRead (s : State) : State := takeAnswer (record (.read (readValue s)) s)

/-- An attached reference part takes one step of its own (R115 item 4, R127). -/
def partStep (s : State) : State :=
  match s.attached with
  | .oracle => s
  | .reference => { s with part := Part.tick s.part }

/-- `Delay(t)`: recorded with its minimum, it changes nothing of the block (R120, R151). While it lasts an attached part goes
on by itself (R115 item 4; log entry 12). -/
def delay (us : Nat) (s : State) : State := partStep (record (.delay us) s)

/-- `Yield()`: recorded, it changes nothing of the block (R120); an attached part goes on by itself. -/
def yieldPoll (s : State) : State := partStep (record .yield s)

/-- `RegWrite32(ctl)` after the given line changes (R19, R30, R80). -/
def drive (sk cs di : Option Bool) (s : State) : State :=
  match s.ctl with
  | none => s
  | some c => regWrite (driveLines s.cfg c sk cs di) { s with ctl := some (driveLines s.cfg c sk cs di) }

/-- The length of a hold, in microseconds (R12). -/
def Hold.micros : Hold → Nat
  | .settle => Config.tSettle
  | .plain => Config.tHold
  | .readHold => Config.tReadHold

/-- An operation is accepted: `busy <- 1` (R21, R88). -/
def accept (s : State) : State := { s with busy := true }

/-! ### Completion: the block's one way to report (R37, R108) -/

/-- `complete(st, d)` (R37). -/
def complete (st : Status) (d : Word32) (s : State) : State :=
  record (.completed st d)
    { s with status := st, data := d, busy := false, acc := none, stepPos := [], ret := none }

/-- `raise E`: a completion with data 0; there is no vector, no handler and so no return (R14, R108, R110). -/
def raiseStatus (st : Status) (s : State) : State := complete st 0 s

/-! ### The framing check, the wait, and single actions -/

/-- The framing check: one read, DO must be 0 (R91). -/
def framingRead (s : State) : State :=
  { afterRead s with ret := some (if doBit s.cfg (readValue s) then .protocolFraming else .ok) }

/-- The deadline of a WAIT that begins now: scripted, else a free value (R121). -/
def nextDeadline (s : State) : Nat :=
  match s.deadlines with
  | n :: _ => n
  | [] => Config.freeDeadline s.draws

/-- The state once that deadline is drawn. -/
def takeDeadline (s : State) : State :=
  match s.deadlines with
  | _ :: ns => { s with deadlines := ns, deadline := nextDeadline s }
  | [] => { s with draws := s.draws + 1, deadline := nextDeadline s }

/-- WAIT's re-assert: one write, the phase, and a new deadline (R95, R121). -/
def waitBegin (s : State) : State :=
  let t := takeDeadline (drive none (some true) (some true) s)
  { t with phase := .commandActive, ret := none }

/-- One poll of WAIT with its deadline test: DO = 1 wins over an expired deadline (R95). -/
def pollStep (s : State) : State :=
  let t := afterRead s
  if doBit s.cfg (readValue s) then { t with ret := some .ok }
  else if t.deadline = 0 then { t with ret := some .writeTimeout }
  else { t with deadline := t.deadline - 1 }

/-- END's sequence (R85). -/
def endActs : List Act :=
  [.drive .commandActive (some false) (some false) (some false), .hold .commandActive .plain (some .idle)]

/-- One action (R25). Where a value it needs is absent it changes nothing; `Act.ready` excludes that. The two branches of
the rules replace what is left of the sequence: the framing check (R91) and the poll loop (R95). -/
def runAct : Act → State → State
  | .loadCtl, s => { afterRead s with ctl := some (readValue s) }
  | .drive _ sk cs di, s => drive sk cs di s
  | .hold _ h next, s => { delay h.micros s with phase := next.getD s.phase }
  | .readMode, s => { drive none none (some true) s with acc := some 0 }
  | .sample, s => { afterRead s with acc := s.acc.map fun a => accumulate a (doBit s.cfg (readValue s)) }
  | .check, s =>
    let t := framingRead s
    if t.ret = some .ok then t else { t with stepPos := endActs ++ [.completeRet] }
  | .reassert, s => waitBegin s
  | .poll, s =>
    let t := pollStep s
    if t.ret.isSome then t else { t with stepPos := .yield :: .poll :: s.stepPos }
  | .yield, s => yieldPoll s
  | .complete st, s => complete st 0 s
  | .completeRead, s =>
    match s.acc with
    | some a => complete .ok (readResult a) s
    | none => s
  | .completeRet, s =>
    match s.ret with
    | some st => complete st 0 s
    | none => s

/-- The phase in which an action stands in its sequence: START and WAIT's re-assert begin in Idle, PUT_BITS, GET_BITS, END,
the framing check and the polls need CommandActive (R82 to R86, R91, R95), and a completion comes in Idle (R98). -/
def Act.phase : Act → Phase
  | .loadCtl => .idle
  | .drive p _ _ _ => p
  | .hold p _ _ => p
  | .readMode => .commandActive
  | .sample => .commandActive
  | .check => .commandActive
  | .reassert => .idle
  | .poll => .commandActive
  | .yield => .commandActive
  | .complete _ => .idle
  | .completeRead => .idle
  | .completeRet => .idle

/-- Whether the values an action needs are there (R20, R24). -/
def Act.ready (s : State) : Act → Bool
  | .loadCtl => true
  | .drive _ _ _ _ => s.ctl.isSome
  | .hold _ _ _ => true
  | .readMode => s.ctl.isSome
  | .sample => s.acc.isSome
  | .check => true
  | .reassert => s.ctl.isSome
  | .poll => true
  | .yield => true
  | .complete _ => true
  | .completeRead => s.acc.isSome
  | .completeRet => s.ret.isSome

/-- A straight-line sequence, one action after another (R57). -/
def runActs : List Act → State → State
  | [], s => s
  | a :: as, s => runActs as (runAct a s)

/-! ### Reset -/

/-- Reset: the sequencer's record takes the values of R38; no access is made, the lines, the part, the timer and the
history stay (R136, R137, R138). -/
def resetSequencer (s : State) : State :=
  { s with phase := .idle, ctl := none, busy := false, status := .ok, data := 0, acc := none, stepPos := [], ret := none }

/-- Another agent's write of the control register (R144): no event of the block's. -/
def foreignWrite (v : Word32) (s : State) : State := setLines v s

end Sys2Proof.Machine
end

