-- ==== Sys2Proof/Machine/Sequences.lean ====
section
/-! DEFINITION. The fixed sequences of actions (R25): of each micro-operation (R82 to R85), of each frame (R65 to R68) and of
each host operation (R79, R90 to R95); the conditions under which a row runs (R86, R88, R109, R117, R140); and the begin
and the single action of an operation taken step by step. -/

namespace Sys2Proof.Machine

/-! ### Micro-operations -/

/-- START (R82). -/
def startActs : List Act :=
  [.loadCtl,
   .drive .idle (some false) (some true) (some true), .hold .idle .settle none,
   .drive .idle (some true) none none, .hold .idle .settle (some .commandActive)]

/-- One bit of PUT_BITS: SK falls with DI at the bit, SK rises (R83). -/
def bitActs (b : Bool) : List Act :=
  [.drive .commandActive (some false) none (some b), .hold .commandActive .plain none,
   .drive .commandActive (some true) none none, .hold .commandActive .plain none]

/-- PUT_BITS `value, n`: from bit `n-1` down to bit 0 (R83). -/
def putActs (value : Word32) : Nat → List Act
  | 0 => []
  | n + 1 => bitActs (value.getLsbD n) ++ putActs value n

/-- One bit of GET_BITS (R84). -/
def sampleActs : List Act :=
  [.drive .commandActive (some false) none none, .hold .commandActive .plain none,
   .drive .commandActive (some true) none none, .hold .commandActive .readHold none, .sample]

/-- `n` samples (R84). -/
def samplesActs : Nat → List Act
  | 0 => []
  | n + 1 => sampleActs ++ samplesActs n

/-- GET_BITS `n` (R84). -/
def getActs (n : Nat) : List Act := .readMode :: samplesActs n

/-! ### Frames -/

/-- The READ frame's start, opcode and address (R65, R90). -/
def readHeadActs (aw : Nat) (addr : Word16) : List Act :=
  startActs ++ putActs opRead 2 ++ putActs (addrField addr) aw

/-- What follows a framing check that read 0 (R90). -/
def readTailActs : List Act := getActs 16 ++ endActs

/-- The WRITE frame (R66, R92). -/
def writeActs (aw : Nat) (addr value : Word16) : List Act :=
  startActs ++ putActs opWrite 2 ++ putActs (addrField addr) aw ++ putActs (dataField value) 16 ++ endActs

/-- The EWEN frame (R67, R93). -/
def ewenActs (aw : Nat) : List Act := startActs ++ putActs opEwen 4 ++ putActs 0 (aw - 2) ++ endActs

/-- The EWDS frame, with its `AW + 2` zeros (R68, R94, conflict C1). -/
def ewdsActs (aw : Nat) : List Act := startActs ++ putActs opEwds 4 ++ putActs 0 (aw + 2) ++ endActs

/-- The READ frame with its framing check: on a 1 no data bits, END on both paths (R90, R91). -/
def sendRead (addr : Word16) (s : State) : State :=
  let t := framingRead (runActs (readHeadActs s.cfg.aw addr) s)
  if t.ret = some .ok then runActs readTailActs t else runActs endActs t

/-- The poll loop, `n` false deadline answers to come: at least one poll (R95, R97). -/
def pollLoop : Nat → State → State
  | 0, s => pollStep s
  | n + 1, s =>
    let t := pollStep s
    if t.ret.isSome then t else pollLoop n (runAct .yield t)

/-- WAIT's effect (R95): the re-assert, the polls, END on both exits. -/
def waitBody (s : State) : State :=
  let t := waitBegin s
  runActs endActs (pollLoop t.deadline t)

/-! ### Host operations -/

/-- The sequence of an accepted host operation (R79); the branches of R91 and R95 are the actions `check` and `poll`.
Empty for rows that are no host operation or complete without a sequence (R73). -/
def opActs (aw : Nat) : Instr → List Act
  | .readWord a => readHeadActs aw a ++ [.check] ++ readTailActs ++ [.completeRead]
  | .writeWord a v => writeActs aw a v ++ [.reassert, .poll] ++ endActs ++ [.completeRet]
  | .writeEnable => ewenActs aw ++ [.complete .ok]
  | .writeDisable => ewdsActs aw ++ [.complete .ok]
  | .reserved _ => []
  | .readFrame _ => []
  | .writeFrame _ _ => []
  | .ewenFrame => []
  | .ewdsFrame => []
  | .start => []
  | .putBits _ _ => []
  | .getBits _ => []
  | .endOp => []
  | .wait => []

/-- READ_WORD's effect once accepted (R90). -/
def readWordBody (addr : Word16) (s : State) : State :=
  let t := sendRead addr s
  if t.ret = some .ok then runAct .completeRead t else runAct .completeRet t

/-- WRITE_WORD's effect once accepted (R92). -/
def writeWordBody (addr value : Word16) (s : State) : State :=
  runAct .completeRet (waitBody (runActs (writeActs s.cfg.aw addr value) s))

/-- WRITE_ENABLE's effect once accepted (R93). -/
def writeEnableBody (s : State) : State := runAct (.complete .ok) (runActs (ewenActs s.cfg.aw) s)

/-- WRITE_DISABLE's effect once accepted (R94). -/
def writeDisableBody (s : State) : State := runAct (.complete .ok) (runActs (ewdsActs s.cfg.aw) s)

/-! ### When a row runs -/

/-- A host operation: refused for a configuration R140 excludes and while busy (R117, I11); completed at once with its early
status (R88, R109); otherwise accepted (R88) in phase Idle (R86). -/
def hostOp (i : Instr) (body : State → State) (s : State) : Host.Outcome State Fault Refusal :=
  if s.cfg.ok = false then .refused .badConfiguration
  else if s.busy then .refused .hostBusy
  else if i.wf s.cfg.aw = false then .refused .notWellFormed
  else
    match earlyStatus s.cfg i with
    | some st => .next (raiseStatus st s)
    | none => if s.phase = .idle then .next (body (accept s)) else .fault .phaseViolation

/-- A frame or a micro-operation: it runs in the phase R86 names, with the shadow value loaded where it needs one (R20). -/
def engineOp (i : Instr) (p : Phase) (needsCtl : Bool) (body : State → State) (s : State) :
    Host.Outcome State Fault Refusal :=
  if s.cfg.ok = false then .refused .badConfiguration
  else if i.wf s.cfg.aw = false then .refused .notWellFormed
  else if s.phase ≠ p then .fault .phaseViolation
  else if needsCtl && s.ctl.isNone then .fault .noValue
  else .next (body s)

/-- A host operation is only begun: its actions are the steps that follow (R25, R88). -/
def beginOp (i : Instr) (s : State) : Host.Outcome State Fault Refusal :=
  if i.isHostOp then hostOp i (fun t => { t with stepPos := opActs t.cfg.aw i }) s
  else .refused .notHostOperation

/-- The sequencer takes one action (R25, R115), in the phase it stands in (R86) and with the values it needs (R20); idle, it
makes none (R126). -/
def actStep (s : State) : Host.Outcome State Fault Refusal :=
  if s.busy then
    match s.stepPos with
    | [] => .fault .sequenceLost
    | a :: rest =>
      let t := { s with stepPos := rest }
      if s.phase ≠ a.phase then .fault .phaseViolation
      else if a.ready t then .next (runAct a t)
      else .fault .noValue
  else .next s

end Sys2Proof.Machine
end

