-- ==== Sys2Proof/Machine/Frames.lean ====
section
/-! DEFINITION. The meanings of the serial frames (R62, R65 to R68): the block clocks the frame into the EEPROM, from START
to END, and reports nothing to the host port (log entry 17). -/

namespace Sys2Proof.Machine

/-- READ frame: the address goes out, the dummy bit is checked, 16 bits come in to `acc` (R65, R91). -/
def execReadFrame (addr : Word16) (s : State) : Host.Outcome State Fault Refusal :=
  engineOp (.readFrame addr) .idle false (sendRead addr) s

/-- WRITE frame (R66). -/
def execWriteFrame (addr value : Word16) (s : State) : Host.Outcome State Fault Refusal :=
  engineOp (.writeFrame addr value) .idle false (fun t => runActs (writeActs t.cfg.aw addr value) t) s

/-- EWEN frame (R67). -/
def execEwenFrame (s : State) : Host.Outcome State Fault Refusal :=
  engineOp .ewenFrame .idle false (fun t => runActs (ewenActs t.cfg.aw) t) s

/-- EWDS frame (R68). -/
def execEwdsFrame (s : State) : Host.Outcome State Fault Refusal :=
  engineOp .ewdsFrame .idle false (fun t => runActs (ewdsActs t.cfg.aw) t) s

end Sys2Proof.Machine
end

