-- ==== Sys2Proof/Machine/HostOps.lean ====
section
/-! DEFINITION. The meanings of the host operations: READ_WORD, WRITE_WORD, WRITE_ENABLE, WRITE_DISABLE and the reserved
codes. An operation is atomic to the host (R50), so each runs to its completion. -/

namespace Sys2Proof.Machine

/-- READ_WORD `addr` (R90). -/
def execReadWord (addr : Word16) (s : State) : Host.Outcome State Fault Refusal :=
  hostOp (.readWord addr) (readWordBody addr) s

/-- WRITE_WORD `addr, value` (R92). -/
def execWriteWord (addr value : Word16) (s : State) : Host.Outcome State Fault Refusal :=
  hostOp (.writeWord addr value) (writeWordBody addr value) s

/-- WRITE_ENABLE (R93). -/
def execWriteEnable (s : State) : Host.Outcome State Fault Refusal :=
  hostOp .writeEnable writeEnableBody s

/-- WRITE_DISABLE (R94). -/
def execWriteDisable (s : State) : Host.Outcome State Fault Refusal :=
  hostOp .writeDisable writeDisableBody s

/-- A reserved code: IllegalOp at once, no access (R73, R107). `earlyStatus` always answers, so nothing is accepted. -/
def execReserved (op : BitVec 4) (s : State) : Host.Outcome State Fault Refusal :=
  hostOp (.reserved op) id s

end Sys2Proof.Machine
end

