-- ==== Sys2Proof/Machine/MicroOps.lean ====
section
/-! DEFINITION. The meanings of the internal micro-operations START, PUT_BITS, GET_BITS, END (R82 to R85) and WAIT (R95). -/

namespace Sys2Proof.Machine

/-- START (R82). -/
def execStart (s : State) : Host.Outcome State Fault Refusal :=
  engineOp .start .idle false (runActs startActs) s

/-- PUT_BITS `value, n` (R83). -/
def execPutBits (value : Word32) (n : Nat) (s : State) : Host.Outcome State Fault Refusal :=
  engineOp (.putBits value n) .commandActive true (runActs (putActs value n)) s

/-- GET_BITS `n` (R84); its result is left in `acc`. -/
def execGetBits (n : Nat) (s : State) : Host.Outcome State Fault Refusal :=
  engineOp (.getBits n) .commandActive true (runActs (getActs n)) s

/-- END (R85). -/
def execEndOp (s : State) : Host.Outcome State Fault Refusal :=
  engineOp .endOp .commandActive true (runActs endActs) s

/-- WAIT (R95), entered in Idle; the status it returns is left in `ret`. -/
def execWait (s : State) : Host.Outcome State Fault Refusal :=
  engineOp .wait .idle true waitBody s

end Sys2Proof.Machine
end

