-- ==== Sys2Proof/Machine/Dispatch.lean ====
section
/-! DEFINITION. The meaning of every row of the opcode table. -/

namespace Sys2Proof.Machine

/-- One arm per constructor. -/
def exec (i : Instr) (s : State) : Host.Outcome State Fault Refusal :=
  match i with
  | .readWord addr => Sys2Proof.Machine.execReadWord addr s
  | .writeWord addr value => Sys2Proof.Machine.execWriteWord addr value s
  | .writeEnable => Sys2Proof.Machine.execWriteEnable s
  | .writeDisable => Sys2Proof.Machine.execWriteDisable s
  | .reserved op => Sys2Proof.Machine.execReserved op s
  | .readFrame addr => Sys2Proof.Machine.execReadFrame addr s
  | .writeFrame addr value => Sys2Proof.Machine.execWriteFrame addr value s
  | .ewenFrame => Sys2Proof.Machine.execEwenFrame s
  | .ewdsFrame => Sys2Proof.Machine.execEwdsFrame s
  | .start => Sys2Proof.Machine.execStart s
  | .putBits value n => Sys2Proof.Machine.execPutBits value n s
  | .getBits n => Sys2Proof.Machine.execGetBits n s
  | .endOp => Sys2Proof.Machine.execEndOp s
  | .wait => Sys2Proof.Machine.execWait s

end Sys2Proof.Machine
end

