-- ==== Sys2Proof/Machine/Moves.lean ====
section
/-! DEFINITION. What each move of the agents does (R115, R116, R137, R144). -/

namespace Sys2Proof.Machine

/-- One move, already taken off the schedule. -/
def runMove : Move → State → Host.Outcome State Fault Refusal
  | .run d, s => exec (decodeDescriptor d) s
  | .issue d, s => beginOp (decodeDescriptor d) s
  | .act, s => actStep s
  | .part, s => .next (partStep s)
  | .reset, s => .next (resetSequencer s)
  | .foreign v, s => .next (foreignWrite v s)

/-- With no move scheduled, a running operation goes on and an idle sequencer waits for a descriptor (R126, R136), while an
attached part goes on by itself (R115 item 4). -/
def runNoMove (s : State) : Host.Outcome State Fault Refusal :=
  if s.busy then actStep s else .next (partStep s)

/-- The host operation whose sequence clocks a frame (R79, R90, R92 to R94); a host operation is itself. -/
def carrier : Instr → Instr
  | .readFrame a => .readWord a
  | .writeFrame a v => .writeWord a v
  | .ewenFrame => .writeEnable
  | .ewdsFrame => .writeDisable
  | .readWord a => .readWord a
  | .writeWord a v => .writeWord a v
  | .writeEnable => .writeEnable
  | .writeDisable => .writeDisable
  | .reserved op => .reserved op
  | .start => .start
  | .putBits v n => .putBits v n
  | .getBits n => .getBits n
  | .endOp => .endOp
  | .wait => .wait

/-- The descriptor that a table word stands for: a descriptor's own bits (R70); for the bits of a frame, which the block
clocks only inside a host operation (R79), that operation's descriptor (log entry 26). -/
def descriptorOfWord (nbits w : Nat) : Descriptor :=
  match decodeTableWord nbits w with
  | none => BitVec.ofNat 64 w
  | some i => if i.isHostOp then BitVec.ofNat 64 w else (encodeDescriptor (carrier i)).getD (BitVec.ofNat 64 w)

end Sys2Proof.Machine
end

