-- ==== Sys2Proof/Machine/Step.lean ====
section
/-! DEFINITION. One step: the next move of the schedule, for a configuration R140 admits. -/

namespace Sys2Proof.Machine

/-- One step of the machine (R115). A configuration R140 excludes has no machine (I12). -/
def step (s : State) : Host.Outcome State Fault Refusal :=
  if s.cfg.ok = false then .refused .badConfiguration
  else
    match s.moves with
    | [] => runNoMove s
    | m :: ms => runMove m { s with moves := ms }

/-- `s` with the descriptor that the table word `w` stands for issued next (log entry 16): the block fetches nothing (R25), a host issues. -/
def State.withFetchWord (s : State) (nbits w : Nat) : State :=
  { s with moves := .run (descriptorOfWord nbits w) :: s.moves }

end Sys2Proof.Machine
end

