-- ==== Sys2Proof/Safety.lean ====
section
/-! DEFINITION. The terms in which claims about the machine are stated: what the host sees, what the event history says
of a run (accesses, delays, the bits clocked into the EEPROM), the lines at rest, and the invariants. -/

namespace Sys2Proof.Machine

/-! ### What the host may read (R39) -/

/-- The host port's readable values (R39). -/
structure HostView where
  phase  : Phase
  busy   : Bool
  status : BitVec 3
  data   : Word32
  deriving DecidableEq, Repr

/-- The host's view of a state (R39, R116 "collect"). -/
def hostView (s : State) : HostView :=
  { phase := s.phase, busy := s.busy, status := s.status.code, data := s.data }

/-- The conditions under which the host's next descriptor is taken up: an admitted configuration (R140), `busy = 0` (R117)
and phase Idle (R86, R88). -/
def Ready (s : State) : Prop := s.cfg.ok = true ∧ s.busy = false ∧ s.phase = .idle

/-! ### Reading a history (R15); all lists below are oldest first -/

/-- The values written, in order. -/
def writesOf : List Event → List Word32
  | [] => []
  | .write v :: es => v :: writesOf es
  | _ :: es => writesOf es

/-- The values read, in order. -/
def readsOf : List Event → List Word32
  | [] => []
  | .read v :: es => v :: readsOf es
  | _ :: es => readsOf es

/-- The minimum busy-wait time of the delays, in microseconds (R87, R99). -/
def busyWait : List Event → Nat
  | [] => 0
  | .delay us :: es => us + busyWait es
  | _ :: es => busyWait es

/-- The number of yields (R99). -/
def yieldsOf : List Event → Nat
  | [] => 0
  | .yield :: es => yieldsOf es + 1
  | _ :: es => yieldsOf es

/-- The bits clocked into the EEPROM by a list of writes that starts from the lines of `prev`: the level of DI at each
rising edge of SK while CS = 1 (R63). -/
def clockedBits (cfg : Config) (prev : Word32) : List Word32 → List Bool
  | [] => []
  | v :: vs =>
    if !level cfg prev .sk && level cfg v .sk && level cfg v .cs then level cfg v .di :: clockedBits cfg v vs
    else clockedBits cfg v vs

/-- The events a run from `s` to `t` added are `evs`, oldest first. -/
def Added (s t : State) (evs : List Event) : Prop := t.history = evs.reverse ++ s.history

/-! ### Single control-register values -/

/-- CS, SK and DI are low, and DOE where it is wired (R98). -/
def linesLow (cfg : Config) (v : Word32) : Bool :=
  !level cfg v .cs && !level cfg v .sk && !level cfg v .di && (!cfg.wired.doe || !level cfg v .doe)

/-- DOE equals DI where it is wired (R81). -/
def lockstep (cfg : Config) (v : Word32) : Bool :=
  !cfg.wired.doe || decide (level cfg v .doe = level cfg v .di)

/-- `v` and `r` agree on every bit that is no driven line (R31, R33). -/
def sameOtherBits (cfg : Config) (r v : Word32) : Prop :=
  ∀ i, (∀ l : Line, cfg.isWired l = true → i ≠ cfg.pos l) → v.getLsbD i = r.getLsbD i

/-- The number GET_BITS makes of its samples, the first one most significant (R45, R84). -/
def sampledWord (cfg : Config) (samples : List Word32) : Nat :=
  bitsToNat (samples.map (doBit cfg))

/-- A bus access of the control register (R14, R42, R43): space, address, size in bytes, and the value read or written. -/
structure BusAccess where
  space   : AccessMode
  address : Nat
  bytes   : Nat
  isWrite : Bool
  value   : Word32
  deriving DecidableEq, Repr

/-- The bus access an event stands for: 32 bits at CTRL_ADDR, always (R43, R55). -/
def busAccess (cfg : Config) : Event → Option BusAccess
  | .write v => some { space := cfg.accessMode, address := cfg.ctrlAddr, bytes := 4, isWrite := true, value := v }
  | .read v => some { space := cfg.accessMode, address := cfg.ctrlAddr, bytes := 4, isWrite := false, value := v }
  | .delay _ => none
  | .yield => none
  | .completed _ _ => none

/-- The bus accesses of a run, in order. -/
def accessesOf (cfg : Config) (evs : List Event) : List BusAccess := evs.filterMap (busAccess cfg)

/-! ### Numbers in the assembler syntax (R77) -/

/-- The number that digits in a base stand for, first one most significant. -/
def digitsValue (base : Nat) (ds : List Nat) : Nat := ds.foldl (fun n d => base * n + d) 0

/-- `c` writes the digit `d`, a letter in either case (log entry 30). -/
def WritesDigit (d : Nat) (c : Char) : Prop := c = Nat.digitChar d ∨ c = (Nat.digitChar d).toUpper

/-- `cs` writes the number `n` as R77 does: decimal digits, or `0x` and hexadecimal digits. -/
def Numeral (cs : List Char) (n : Nat) : Prop :=
  (∃ ds : List Nat, ds ≠ [] ∧ (∀ d ∈ ds, d < 10) ∧ List.Forall₂ WritesDigit ds cs ∧ n = digitsValue 10 ds) ∨
  (∃ (ds : List Nat) (hs : List Char), ds ≠ [] ∧ (∀ d ∈ ds, d < 16) ∧ cs = '0' :: 'x' :: hs ∧
    List.Forall₂ WritesDigit ds hs ∧ n = digitsValue 16 ds)

/-- `bs` is what separates the words of a line: blanks and tabs (log entry 30). -/
def Blanks (bs : List Char) : Prop := ∀ c ∈ bs, c = ' ' ∨ c = '\t'

/-- The frame a host operation sends, where it sends one (R65 to R68). -/
def frameOf : Instr → Option Instr
  | .readWord a => some (.readFrame a)
  | .writeWord a v => some (.writeFrame a v)
  | .writeEnable => some .ewenFrame
  | .writeDisable => some .ewdsFrame
  | .reserved _ => none
  | .readFrame _ => none
  | .writeFrame _ _ => none
  | .ewenFrame => none
  | .ewdsFrame => none
  | .start => none
  | .putBits _ _ => none
  | .getBits _ => none
  | .endOp => none
  | .wait => none

/-- The word a WRITE row stores to, where the row is one (R66, R92). -/
def storedWord : Instr → Option Nat
  | .writeWord a _ => some a.toNat
  | .writeFrame a _ => some a.toNat
  | .readWord _ => none
  | .writeEnable => none
  | .writeDisable => none
  | .reserved _ => none
  | .readFrame _ => none
  | .ewenFrame => none
  | .ewdsFrame => none
  | .start => none
  | .putBits _ _ => none
  | .getBits _ => none
  | .endOp => none
  | .wait => none

/-! ### The sequencer's invariant -/

/-- What is known of the sequencer between two actions. -/
structure Pos where
  phase : Phase
  ctl   : Bool
  acc   : Bool
  ret   : Bool
  /-- The lines of `ctl` are low. -/
  low   : Bool
  deriving DecidableEq, Repr

/-- The effect of an action on what is known; none where a value it needs is absent (R20, R24). The branches of R91 and R95
are followed on the path that goes on. -/
def Pos.effect (p : Pos) : Act → Option Pos
  | .loadCtl => some { p with ctl := true, low := false }
  | .drive _ sk cs di =>
    if p.ctl then
      some { p with low := decide (sk = some false) && decide (cs = some false) && decide (di = some false) }
    else none
  | .hold _ _ next => some { p with phase := next.getD p.phase }
  | .readMode => if p.ctl then some { p with acc := true, low := false } else none
  | .sample => if p.acc then some p else none
  | .check => if p.ctl then some { p with ret := true } else none
  | .reassert => if p.ctl then some { p with phase := .commandActive, ret := false, low := false } else none
  | .poll => if p.ctl then some { p with ret := true } else none
  | .yield => some p
  | .complete _ => none
  | .completeRead => none
  | .completeRet => none

/-- What is known after an action in the phase it stands in; none outside that phase (R86). -/
def Pos.after (p : Pos) (a : Act) : Option Pos := if p.phase = a.phase then p.effect a else none

/-- The remaining sequence runs to its one `complete` with every action in its phase and without an absent value, and reaches
it in Idle with the lines low (R37, R86, R98). -/
def sound : List Act → Pos → Bool
  | [], _ => false
  | [.complete _], p => decide (p.phase = .idle) && p.low && p.ctl
  | [.completeRead], p => decide (p.phase = .idle) && p.low && p.ctl && p.acc
  | [.completeRet], p => decide (p.phase = .idle) && p.low && p.ctl && p.ret
  | a :: rest, p =>
    match p.after a with
    | some q => sound rest q
    | none => false

/-- What is known of a state. -/
def posOf (s : State) : Pos where
  phase := s.phase
  ctl := s.ctl.isSome
  acc := s.acc.isSome
  ret := s.ret.isSome
  low := match s.ctl with
    | some c => linesLow s.cfg c
    | none => false

/-- Between operations the engine is Idle, nothing of an operation is left, and a shadow value has its lines low (R17, R18,
R37, R98); while one runs, what is left of its sequence is sound, so that no action of it stands outside its phase (R86). -/
def SeqInv (s : State) : Prop :=
  s.cfg.ok = true ∧
  (s.busy = false → s.phase = .idle ∧ s.acc = none ∧ s.stepPos = [] ∧ s.ret = none ∧
    ∀ c, s.ctl = some c → linesLow s.cfg c = true) ∧
  (s.busy = true → sound s.stepPos (posOf s) = true)

/-! ### The EEPROM part -/

/-- The word array is in canonical form and holds only bytes of the array, and a word being programmed is a word of it
(R44, R46). -/
def MemInv (s : State) : Prop :=
  s.cfg.ok = true ∧ Memory.wf s.part.mem = true ∧
  (∀ c ∈ s.part.mem, c.1 < s.cfg.capacity) ∧
  (∀ g, s.part.programming = some g → g.addr < s.cfg.words)

/-- The launch premises P2 and P3 for an attached reference part (R141): CS is low, the part waits for a start bit and is
not programming. -/
def PartAtRest (s : State) : Prop :=
  s.attached = .reference ∧ level s.cfg s.creg .cs = false ∧ s.part.cmd = .waiting ∧ s.part.programming = none

/-- Whether a byte offset belongs to a word (R46). -/
def inWord (k a : Nat) : Prop := a = 2 * k ∨ a = 2 * k + 1

/-- The offset belongs to the word being programmed, if one is (R129). -/
def inPendingWord (p : Part) (a : Nat) : Prop := ∃ g, p.programming = some g ∧ inWord g.addr a

end Sys2Proof.Machine
end

