-- ==== Sys2Proof/Certificates/Slice0/Obligations.lean ====
section
/-! DEFINITION. The statements for the provers. Each docstring names the rules of spec/ it formalises. -/

open Sys2Proof Sys2Proof.Machine

/-! ### Reset and configuration -/

/-- R136, R38: what a new instance holds; `State.reset` is the instance of the test configuration (log entry 2). -/
def Obligations.NewInstanceHoldsResetValues : Prop :=
  ∀ c : Config, (State.fresh c).phase = .idle ∧ (State.fresh c).ctl = none ∧ (State.fresh c).busy = false ∧
    (State.fresh c).status = .ok ∧ (State.fresh c).data = 0 ∧ (State.fresh c).acc = none ∧
    (State.fresh c).stepPos = [] ∧ (State.fresh c).history = [] ∧ (State.fresh c).cfg = c ∧
    State.reset = State.fresh Config.test

/-- R140: exactly the configurations of its list give a machine. -/
def Obligations.InstanceIsBuiltForAdmittedConfigurationsOnly : Prop :=
  ∀ c : Config,
    ((2 ^ c.aw * 2 = c.capacity ∧ 2 ≤ c.aw ∧ c.aw ≤ 16 ∧
      c.posSK < 32 ∧ c.posCS < 32 ∧ c.posDI < 32 ∧ c.posDO < 32 ∧
      c.posSK ≠ c.posCS ∧ c.posSK ≠ c.posDI ∧ c.posSK ≠ c.posDO ∧ c.posCS ≠ c.posDI ∧ c.posCS ≠ c.posDO ∧
      c.posDI ≠ c.posDO ∧
      (c.wired.doe = true → c.posDOE < 32 ∧ c.posSK ≠ c.posDOE ∧ c.posCS ≠ c.posDOE ∧ c.posDI ≠ c.posDOE ∧
        c.posDO ≠ c.posDOE) ∧
      c.wired.sk = true ∧ c.wired.cs = true ∧ c.wired.di = true ∧ c.wired.dout = true ∧ c.ctrlOffset % 4 = 0)
      → State.create c = some (State.fresh c)) ∧
    (¬ (2 ^ c.aw * 2 = c.capacity ∧ 2 ≤ c.aw ∧ c.aw ≤ 16 ∧
      c.posSK < 32 ∧ c.posCS < 32 ∧ c.posDI < 32 ∧ c.posDO < 32 ∧
      c.posSK ≠ c.posCS ∧ c.posSK ≠ c.posDI ∧ c.posSK ≠ c.posDO ∧ c.posCS ≠ c.posDI ∧ c.posCS ≠ c.posDO ∧
      c.posDI ≠ c.posDO ∧
      (c.wired.doe = true → c.posDOE < 32 ∧ c.posSK ≠ c.posDOE ∧ c.posCS ≠ c.posDOE ∧ c.posDI ≠ c.posDOE ∧
        c.posDO ≠ c.posDOE) ∧
      c.wired.sk = true ∧ c.wired.cs = true ∧ c.wired.di = true ∧ c.wired.dout = true ∧ c.ctrlOffset % 4 = 0)
      → State.create c = none)

/-- R136 to R138: a reset between two actions abandons the operation; the lines, the part and the history stay, and so do
what answers for DO, the running deadline (R121), and what the oracles hold: answers, deadlines, programming times and the
count of free values (log entry 22). -/
def Obligations.ResetAbandonsTheOperationAndKeepsTheLines : Prop :=
  ∀ (s : State) (ms : List Move), s.cfg.ok = true → s.moves = .reset :: ms →
    ∃ t, step s = .next t ∧ t.phase = .idle ∧ t.ctl = none ∧ t.busy = false ∧ t.status = .ok ∧ t.data = 0 ∧
      t.acc = none ∧ t.stepPos = [] ∧ t.ret = none ∧ t.creg = s.creg ∧ t.part = s.part ∧ t.history = s.history ∧
      t.cfg = s.cfg ∧ t.attached = s.attached ∧ t.answers = s.answers ∧ t.deadline = s.deadline ∧
      t.deadlines = s.deadlines ∧ t.progTimes = s.progTimes ∧ t.draws = s.draws ∧ t.moves = ms

/-- R36: no step and no row writes the configuration. What answers for DO stays as well (the model's own field, log entry
9). -/
def Obligations.ConfigurationNeverChanges : Prop :=
  (∀ s t : State, step s = .next t → t.cfg = s.cfg ∧ t.attached = s.attached) ∧
  (∀ (i : Instr) (s t : State), exec i s = .next t → t.cfg = s.cfg ∧ t.attached = s.attached ∧ t.moves = s.moves)

/-! ### Encodings -/

/-- R71, R73, R76: what each descriptor selects. -/
def Obligations.EveryDescriptorSelectsOneOutcome : Prop :=
  ∀ d : Descriptor,
    (d.extractLsb 3 0 = 1 → decodeDescriptor d = .readWord (d.extractLsb 31 16)) ∧
    (d.extractLsb 3 0 = 2 → decodeDescriptor d = .writeWord (d.extractLsb 31 16) (d.extractLsb 47 32)) ∧
    (d.extractLsb 3 0 = 3 → decodeDescriptor d = .writeEnable) ∧
    (d.extractLsb 3 0 = 4 → decodeDescriptor d = .writeDisable) ∧
    ((d.extractLsb 3 0).toNat = 0 ∨ 5 ≤ (d.extractLsb 3 0).toNat → decodeDescriptor d = .reserved (d.extractLsb 3 0))

/-- R72: an ignored field never changes what a step does. -/
def Obligations.IgnoredFieldsNeverChangeAStep : Prop :=
  ∀ (s : State) (ms : List Move) (d e : Descriptor),
    d.extractLsb 3 0 = e.extractLsb 3 0 →
    (d.extractLsb 3 0 = 1 ∨ d.extractLsb 3 0 = 2 → d.extractLsb 31 16 = e.extractLsb 31 16) →
    (d.extractLsb 3 0 = 2 → d.extractLsb 47 32 = e.extractLsb 47 32) →
    step { s with moves := .run d :: ms } = step { s with moves := .run e :: ms } ∧
    step { s with moves := .issue d :: ms } = step { s with moves := .issue e :: ms }

/-- R70, R71: decoding the descriptor of a well-formed host operation gives it back, and exactly the host operations have
one (R78). -/
def Obligations.DescriptorRoundTrip : Prop :=
  ∀ (aw : Nat) (i : Instr), i.wf aw = true →
    (i.isHostOp = true → ∃ d, encodeDescriptor i = some d ∧ decodeDescriptor d = i) ∧
    (i.isHostOp = false → encodeDescriptor i = none ∧ ∀ d, decodeDescriptor d ≠ i)

/-- R65 to R68, R75: a receiver reads every frame the block sends as that frame. -/
def Obligations.FrameRoundTrip : Prop :=
  ∀ (aw : Nat) (i : Instr) (bits : List Bool), 2 ≤ aw → aw ≤ 16 → i.wf aw = true →
    encodeFrame aw i = some bits → decodeFrame aw bits = .ok i

/-- R75: bits read as a frame are that frame's encoding, so no two frames share their bits and nothing else is read as one. -/
def Obligations.FrameDecodingIsExact : Prop :=
  ∀ (aw : Nat) (i : Instr) (bits : List Bool), 2 ≤ aw → aw ≤ 16 →
    decodeFrame aw bits = .ok i → encodeFrame aw i = some bits ∧ i.wf aw = true

/-- R75: the four frame lengths. -/
def Obligations.FrameLengths : Prop :=
  ∀ (aw : Nat), 2 ≤ aw →
    (∀ a bits, encodeFrame aw (.readFrame a) = some bits → bits.length = 3 + aw) ∧
    (∀ a v bits, encodeFrame aw (.writeFrame a v) = some bits → bits.length = 19 + aw) ∧
    (∀ bits, encodeFrame aw .ewenFrame = some bits → bits.length = 3 + aw) ∧
    (∀ bits, encodeFrame aw .ewdsFrame = some bits → bits.length = 7 + aw)

/-- 95_test_vectors.md V1 to V10 and W8: words and frames written out in the spec. -/
def Obligations.SpecWordsDecode : Prop :=
  decodeDescriptor 0x0000000000050001 = .readWord 5 ∧
  decodeDescriptor 0x0000BEEF00030002 = .writeWord 3 0xBEEF ∧
  decodeDescriptor 0x0000000000000003 = .writeEnable ∧
  decodeDescriptor 0x0000000000000004 = .writeDisable ∧
  decodeDescriptor 0x0000BEEF00030006 = .reserved 6 ∧
  decodeDescriptor 0x123456789ABC0011 = .readWord 0x9ABC ∧
  encodeFrame 6 (.readFrame 5) = some [true, true, false, false, false, false, true, false, true] ∧
  encodeFrame 6 .ewenFrame = some [true, false, false, true, true, false, false, false, false]

/-- R77: what each mnemonic assembles to with every operand, decimal or hexadecimal; an operand outside 16 bits is refused;
a comment changes nothing; a line of blanks is nothing; and no line assembles to anything but the four operations. That
hexadecimal letters are of either case, and where blanks may stand, is log entry 30. -/
def Obligations.AssembledLinesAreTheFourOperations : Prop :=
  (∀ (ca cv : List Char) (a v : Nat) (b₀ b₁ b₂ b₃ b₄ : List Char), Numeral ca a → Numeral cv v →
    Blanks b₀ → Blanks b₁ → b₁ ≠ [] → Blanks b₂ → Blanks b₃ → Blanks b₄ →
    (a < 65536 → assembleLine (b₀ ++ "READ_WORD".toList ++ b₁ ++ ca ++ b₂) =
      .ok (some (.readWord (BitVec.ofNat 16 a)))) ∧
    (65536 ≤ a → assembleLine (b₀ ++ "READ_WORD".toList ++ b₁ ++ ca ++ b₂) = .error .outOfRange) ∧
    (a < 65536 → v < 65536 →
      assembleLine (b₀ ++ "WRITE_WORD".toList ++ b₁ ++ ca ++ b₂ ++ [','] ++ b₃ ++ cv ++ b₄) =
        .ok (some (.writeWord (BitVec.ofNat 16 a) (BitVec.ofNat 16 v)))) ∧
    (65536 ≤ a ∨ 65536 ≤ v →
      assembleLine (b₀ ++ "WRITE_WORD".toList ++ b₁ ++ ca ++ b₂ ++ [','] ++ b₃ ++ cv ++ b₄) = .error .outOfRange)) ∧
  (∀ b₀ b₁ : List Char, Blanks b₀ → Blanks b₁ →
    assembleLine (b₀ ++ "WRITE_ENABLE".toList ++ b₁) = .ok (some .writeEnable) ∧
    assembleLine (b₀ ++ "EWEN".toList ++ b₁) = .ok (some .writeEnable) ∧
    assembleLine (b₀ ++ "WRITE_DISABLE".toList ++ b₁) = .ok (some .writeDisable) ∧
    assembleLine (b₀ ++ "EWDS".toList ++ b₁) = .ok (some .writeDisable) ∧
    assembleLine b₀ = .ok none) ∧
  (∀ line comment : List Char, assembleLine (line ++ ';' :: comment) = assembleLine line) ∧
  (∀ (line : List Char) (i : Instr), assembleLine line = .ok (some i) →
    (∃ a, i = .readWord a) ∨ (∃ a v, i = .writeWord a v) ∨ i = .writeEnable ∨ i = .writeDisable)

/-! ### Lines -/

/-- R14, R29: `setl` replaces its line's bit when the line is wired and changes nothing else. -/
def Obligations.SetlReplacesOnlyItsLine : Prop :=
  ∀ (cfg : Config) (c : Word32) (l : Line) (b : Bool) (k : Nat), k < 32 →
    (setl cfg c l b).getLsbD k = if cfg.isWired l = true ∧ k = cfg.pos l then b else c.getLsbD k

/-! ### Micro-operations -/

/-- R82: START. -/
def Obligations.StartRaisesChipSelectAndClocksTheStartBit : Prop :=
  ∀ s : State, s.cfg.ok = true → s.phase = .idle →
    ∃ t r, exec .start s = .next t ∧ r = readValue s ∧
      Added s t
        [.read r,
         .write (setl s.cfg (setl s.cfg (setl s.cfg (setl s.cfg r .sk false) .cs true) .di true) .doe true), .delay 2,
         .write (setl s.cfg (setl s.cfg (setl s.cfg (setl s.cfg (setl s.cfg r .sk false) .cs true) .di true) .doe true)
           .sk true), .delay 2] ∧
      t.ctl = some (setl s.cfg (setl s.cfg (setl s.cfg (setl s.cfg (setl s.cfg r .sk false) .cs true) .di true) .doe true)
        .sk true) ∧
      t.creg = setl s.cfg (setl s.cfg (setl s.cfg (setl s.cfg (setl s.cfg r .sk false) .cs true) .di true) .doe true)
        .sk true ∧
      t.phase = .commandActive

/-- R80, R83: PUT_BITS sends `value[n-1]` down to `value[0]`, two writes and two holds a bit, with `n = 0` doing nothing; the
control register holds the last value written. -/
def Obligations.PutBitsClocksItsBitsOut : Prop :=
  ∀ (s : State) (v : Word32) (n : Nat) (c : Word32), s.cfg.ok = true → s.phase = .commandActive → s.ctl = some c →
    n ≤ 32 →
    ∃ t, exec (.putBits v n) s = .next t ∧
      Added s t ((msbBits v n).flatMap fun b =>
        [.write (setl s.cfg (setl s.cfg (setl s.cfg c .sk false) .di b) .doe b), .delay 2,
         .write (setl s.cfg (setl s.cfg (setl s.cfg (setl s.cfg c .sk false) .di b) .doe b) .sk true), .delay 2]) ∧
      t.ctl = some (if n = 0 then c else
        setl s.cfg (setl s.cfg (setl s.cfg (setl s.cfg c .sk false) .di (v.getLsbD 0)) .doe (v.getLsbD 0)) .sk true) ∧
      t.creg = (if n = 0 then s.creg else
        setl s.cfg (setl s.cfg (setl s.cfg (setl s.cfg c .sk false) .di (v.getLsbD 0)) .doe (v.getLsbD 0)) .sk true) ∧
      t.phase = .commandActive

/-- R80, R84: GET_BITS requests read mode, then accumulates `n` samples of DO, first one most significant; the control
register holds the last value written. -/
def Obligations.GetBitsAccumulatesItsSamples : Prop :=
  ∀ (s : State) (n : Nat) (c : Word32), s.cfg.ok = true → s.phase = .commandActive → s.ctl = some c → n ≤ 32 →
    ∃ (t : State) (rs : List Word32) (a : Word32), exec (.getBits n) s = .next t ∧ rs.length = n ∧
      Added s t (.write (setl s.cfg (setl s.cfg c .di true) .doe true) :: rs.flatMap fun r =>
        [.write (setl s.cfg (setl s.cfg (setl s.cfg c .di true) .doe true) .sk false), .delay 2,
         .write (setl s.cfg (setl s.cfg (setl s.cfg (setl s.cfg c .di true) .doe true) .sk false) .sk true), .delay 3,
         .read r]) ∧
      t.acc = some a ∧ a.toNat = sampledWord s.cfg rs ∧
      t.ctl = some (if n = 0 then setl s.cfg (setl s.cfg c .di true) .doe true else
        setl s.cfg (setl s.cfg (setl s.cfg (setl s.cfg c .di true) .doe true) .sk false) .sk true) ∧
      t.ctl = some t.creg ∧ t.phase = .commandActive

/-- R85: END lowers CS, SK, DI and DOE in one write. -/
def Obligations.EndLowersTheLinesInOneWrite : Prop :=
  ∀ (s : State) (c : Word32), s.cfg.ok = true → s.phase = .commandActive → s.ctl = some c →
    ∃ t, exec .endOp s = .next t ∧
      Added s t [.write (setl s.cfg (setl s.cfg (setl s.cfg (setl s.cfg c .cs false) .sk false) .di false) .doe false),
        .delay 2] ∧
      t.ctl = some (setl s.cfg (setl s.cfg (setl s.cfg (setl s.cfg c .cs false) .sk false) .di false) .doe false) ∧
      t.creg = setl s.cfg (setl s.cfg (setl s.cfg (setl s.cfg c .cs false) .sk false) .di false) .doe false ∧
      linesLow s.cfg t.creg = true ∧ t.phase = .idle

/-- R80, R95 to R97: WAIT re-asserts, polls at least once, goes on while DO reads 0, ends with END, and returns OK exactly when
its last poll read 1; the control register holds END's value. -/
def Obligations.WaitPollsAndEnds : Prop :=
  ∀ (s : State) (c : Word32), s.cfg.ok = true → s.phase = .idle → s.ctl = some c →
    ∃ (t : State) (earlier : List Word32) (last : Word32), exec .wait s = .next t ∧
      Added s t (.write (setl s.cfg (setl s.cfg (setl s.cfg c .cs true) .di true) .doe true) ::
        ((earlier.flatMap fun r => [.read r, .yield]) ++
        [.read last, .write (setl s.cfg (setl s.cfg (setl s.cfg (setl s.cfg c .cs false) .sk false) .di false) .doe false),
         .delay 2])) ∧
      (∀ r ∈ earlier, doBit s.cfg r = false) ∧
      t.ret = some (if doBit s.cfg last then .ok else .writeTimeout) ∧
      t.ctl = some (setl s.cfg (setl s.cfg (setl s.cfg (setl s.cfg c .cs false) .sk false) .di false) .doe false) ∧
      t.creg = setl s.cfg (setl s.cfg (setl s.cfg (setl s.cfg c .cs false) .sk false) .di false) .doe false ∧
      t.phase = .idle

/-- R95, R121, with an oracle for DO and a scripted deadline (log entries 3, 4): WAIT ends at the first poll that reads 1, or
at the poll whose deadline test answers true. -/
def Obligations.WaitEndsAtReadyOrDeadline : Prop :=
  ∀ (s : State) (c : Word32) (n : Nat) (ns : List Nat) (zeros : List Word32) (last : Word32) (rest : List Word32),
    s.cfg.ok = true → s.phase = .idle → s.ctl = some c → s.attached = .oracle → s.deadlines = n :: ns →
    s.answers = zeros ++ last :: rest → (∀ r ∈ zeros, doBit s.cfg r = false) → zeros.length ≤ n →
    (doBit s.cfg last = true ∨ zeros.length = n) →
    ∃ t, exec .wait s = .next t ∧ t.answers = rest ∧ t.deadlines = ns ∧
      t.ret = some (if doBit s.cfg last then .ok else .writeTimeout) ∧
      Added s t (.write (setl s.cfg (setl s.cfg (setl s.cfg c .cs true) .di true) .doe true) ::
        ((zeros.flatMap fun r => [.read r, .yield]) ++
        [.read last, .write (setl s.cfg (setl s.cfg (setl s.cfg (setl s.cfg c .cs false) .sk false) .di false) .doe false),
         .delay 2]))

/-- R86, I10: a micro-operation outside its phase faults; PUT_BITS, GET_BITS and END need `CommandActive`, START `Idle`, and
WAIT and the frames, which begin as R95 and R82 say, `Idle`. The same holds of their single actions inside a running
operation, WAIT's re-assert among those of Idle. That it is a fault is the model's choice (log entry 19). -/
def Obligations.EngineRowsFaultOutsideTheirPhase : Prop :=
  (∀ (s : State) (i : Instr), s.cfg.ok = true → i.wf s.cfg.aw = true → i.isHostOp = false →
    (s.phase = .idle → (∃ v n, i = .putBits v n) ∨ (∃ n, i = .getBits n) ∨ i = .endOp →
      exec i s = .fault .phaseViolation) ∧
    (s.phase = .commandActive → (∀ v n, i ≠ .putBits v n) → (∀ n, i ≠ .getBits n) → i ≠ .endOp →
      exec i s = .fault .phaseViolation)) ∧
  (∀ (s : State) (a : Act) (rest : List Act), s.cfg.ok = true → s.busy = true → s.stepPos = a :: rest →
    s.moves = [] ∨ (∃ ms, s.moves = .act :: ms) →
    (s.phase = .idle → (∃ v n, a ∈ putActs v n) ∨ (∃ n, a ∈ getActs n) ∨ a ∈ endActs →
      step s = .fault .phaseViolation) ∧
    (s.phase = .commandActive → a ∈ startActs ∨ a = .reassert → step s = .fault .phaseViolation))

/-- R69, R73, R83, R84: counts above 32, frame addresses of more than AW bits and codes that are not reserved in a reserved
row are no instructions of the block; the refusal is the model's choice (log entry 20). -/
def Obligations.IllFormedRowsAreRefused : Prop :=
  ∀ (s : State) (i : Instr), s.cfg.ok = true → s.busy = false → i.wf s.cfg.aw = false →
    exec i s = .refused .notWellFormed

/-! ### Frames -/

/-- R62 to R64, R66 to R68: the WRITE, EWEN and EWDS rows, as instructions of their own (log entry 17), clock exactly their
frame's bits into the EEPROM and leave the lines low in Idle. -/
def Obligations.FramesClockTheirEncoding : Prop :=
  ∀ (s : State) (i : Instr) (bits : List Bool) (prev : Word32), s.cfg.ok = true → s.phase = .idle →
    i.wf s.cfg.aw = true → (∃ a v, i = .writeFrame a v) ∨ i = .ewenFrame ∨ i = .ewdsFrame →
    encodeFrame s.cfg.aw i = some bits →
    ∃ t evs, exec i s = .next t ∧ Added s t evs ∧ clockedBits s.cfg prev (writesOf evs) = bits ∧
      readsOf evs = [readValue s] ∧ t.phase = .idle ∧ t.ctl = some t.creg ∧ linesLow s.cfg t.creg = true

/-- R65, R91: the READ row, as an instruction of its own (log entries 17, 18), clocks its frame, checks the dummy bit with
one read, and only on a 0 clocks 16 more edges and samples 16 bits into `acc`; END comes on both paths. -/
def Obligations.ReadFrameChecksThenSamples : Prop :=
  ∀ (s : State) (addr : Word16) (bits : List Bool) (prev : Word32), s.cfg.ok = true → s.phase = .idle →
    addr.toNat < s.cfg.words → encodeFrame s.cfg.aw (.readFrame addr) = some bits →
    ∃ t evs dummy samples, exec (.readFrame addr) s = .next t ∧ Added s t evs ∧
      readsOf evs = readValue s :: dummy :: samples ∧ t.phase = .idle ∧ linesLow s.cfg t.creg = true ∧
      (doBit s.cfg dummy = true → samples = [] ∧ t.ret = some .protocolFraming ∧
        clockedBits s.cfg prev (writesOf evs) = bits) ∧
      (doBit s.cfg dummy = false → samples.length = 16 ∧ t.ret = some .ok ∧
        (∃ a, t.acc = some a ∧ a.toNat = sampledWord s.cfg samples) ∧
        clockedBits s.cfg prev (writesOf evs) = bits ++ List.replicate 16 true)

/-! ### Host operations -/

/-- R90, R91, R103: READ_WORD completes; its result is the 16 samples after a dummy bit of 0, or ProtocolFraming with data 0
after a dummy bit of 1. -/
def Obligations.ReadWordCompletes : Prop :=
  ∀ (s : State) (addr : Word16), Ready s → addr.toNat < s.cfg.words →
    ∃ t evs dummy samples, exec (.readWord addr) s = .next t ∧ Added s t (evs ++ [.completed t.status t.data]) ∧
      readsOf evs = readValue s :: dummy :: samples ∧ t.phase = .idle ∧ t.busy = false ∧
      (doBit s.cfg dummy = true → samples = [] ∧ t.status = .protocolFraming ∧ t.data = 0) ∧
      (doBit s.cfg dummy = false → samples.length = 16 ∧ t.status = .ok ∧ t.data.toNat = sampledWord s.cfg samples)

/-- R53, R90, with an oracle for DO and scripted answers (log entry 3): the reads of READ_WORD are the oracle's next answers,
in order, and the word is theirs. -/
def Obligations.ReadWordReturnsTheSampledWord : Prop :=
  ∀ (s : State) (addr : Word16) (r dummy : Word32) (samples rest : List Word32), Ready s →
    addr.toNat < s.cfg.words → s.attached = .oracle → s.answers = r :: dummy :: (samples ++ rest) →
    samples.length = 16 →
    ∃ t, exec (.readWord addr) s = .next t ∧
      (doBit s.cfg dummy = false → t.status = .ok ∧ t.data.toNat = sampledWord s.cfg samples ∧ t.answers = rest) ∧
      (doBit s.cfg dummy = true → t.status = .protocolFraming ∧ t.data = 0 ∧ t.answers = samples ++ rest)

/-- R92, R95, R104: WRITE_WORD completes with data 0; after START's read its reads are polls, all but the last with DO = 0,
and it reports OK exactly when the last one read 1, else WriteTimeout. -/
def Obligations.WriteWordCompletes : Prop :=
  ∀ (s : State) (addr value : Word16), Ready s → addr.toNat < s.cfg.words →
    ∃ t evs earlier last, exec (.writeWord addr value) s = .next t ∧
      Added s t (evs ++ [.completed t.status t.data]) ∧
      readsOf evs = readValue s :: (earlier ++ [last]) ∧ yieldsOf evs = earlier.length ∧
      (∀ r ∈ earlier, doBit s.cfg r = false) ∧
      t.status = (if doBit s.cfg last then .ok else .writeTimeout) ∧ t.data = 0 ∧ t.phase = .idle ∧ t.busy = false

/-- R93, R94: WRITE_ENABLE and WRITE_DISABLE complete with OK and data 0 and read the register once, at START. -/
def Obligations.WriteEnableAndDisableComplete : Prop :=
  ∀ (s : State) (i : Instr), Ready s → i = .writeEnable ∨ i = .writeDisable →
    ∃ t evs, exec i s = .next t ∧ Added s t (evs ++ [.completed .ok 0]) ∧ readsOf evs = [readValue s] ∧
      t.status = .ok ∧ t.data = 0 ∧ t.phase = .idle ∧ t.busy = false

/-- R107: a descriptor with a reserved code completes at once with IllegalOp, data 0 and no access; phase and ctl are
unchanged. -/
def Obligations.ReservedCodeCompletesWithIllegalOp : Prop :=
  ∀ (s : State) (d : Descriptor), s.cfg.ok = true → s.busy = false →
    (d.extractLsb 3 0).toNat = 0 ∨ 5 ≤ (d.extractLsb 3 0).toNat →
    decodeDescriptor d = .reserved (d.extractLsb 3 0) ∧
    exec (.reserved (d.extractLsb 3 0)) s = .next
      { s with status := .illegalOp, data := 0, busy := false, acc := none, stepPos := [], ret := none,
               history := .completed .illegalOp 0 :: s.history }

/-- R89: an address out of range, compared with CAPACITY / 2 = 2^AW, completes with AddressOutOfRange and data 0, with no
access and no delay; phase and ctl are unchanged. An address below is not rejected: `ReadWordCompletes`,
`WriteWordCompletes`. -/
def Obligations.AddressOutOfRangeMakesNoAccess : Prop :=
  ∀ (s : State) (addr value : Word16), s.cfg.ok = true → s.busy = false → 2 ^ s.cfg.aw ≤ addr.toNat →
    s.cfg.capacity / 2 = 2 ^ s.cfg.aw ∧
    exec (.readWord addr) s = .next
      { s with status := .addressOutOfRange, data := 0, busy := false, acc := none, stepPos := [], ret := none,
               history := .completed .addressOutOfRange 0 :: s.history } ∧
    exec (.writeWord addr value) s = exec (.readWord addr) s

/-- R117, I11: a descriptor offered while `busy = 1` is no move of the model, which refuses it (log entry 20). -/
def Obligations.DescriptorWhileBusyIsRefused : Prop :=
  ∀ (s : State) (d : Descriptor) (ms : List Move), s.cfg.ok = true → s.busy = true →
    (s.moves = .run d :: ms ∨ s.moves = .issue d :: ms) → step s = .refused .hostBusy

/-- R98, R106: every host operation that begins in Idle completes in Idle with `busy = 0`; if it ran a sequence, the last
value written has CS, SK and DI low, and DOE where wired. -/
def Obligations.HostOperationsEndIdleWithLinesLow : Prop :=
  ∀ (s t : State) (i : Instr), Ready s → i.isHostOp = true → exec i s = .next t →
    t.phase = .idle ∧ t.busy = false ∧ t.acc = none ∧ t.stepPos = [] ∧
    (earlyStatus s.cfg i = none → t.ctl = some t.creg ∧ linesLow s.cfg t.creg = true)

/-- R81: in every write of every row, DOE equals DI where it is wired, whatever ctl held before. -/
def Obligations.EveryWriteKeepsOutputEnableWithDataIn : Prop :=
  ∀ (s t : State) (i : Instr), exec i s = .next t →
    ∃ evs, Added s t evs ∧ ∀ v ∈ writesOf evs, lockstep s.cfg v = true

/-- R31, R33: every write of a host operation or a frame keeps the bits that are no driven line as START's read, the first
read of the run, gave them. -/
def Obligations.EveryWriteKeepsTheOtherBitsAsStartReadThem : Prop :=
  ∀ (s t : State) (i : Instr), s.phase = .idle → i ≠ .wait → exec i s = .next t →
    ∃ evs, Added s t evs ∧
      ∀ v ∈ writesOf evs, ∃ r rest, readsOf evs = r :: rest ∧ sameOtherBits s.cfg r v

/-- R62 to R68, R99: a host operation clocks exactly the bits of its one frame into the EEPROM, plus 16 edges with DI = 1 for
a READ_WORD that completes with OK; the completion wait clocks none (R96). -/
def Obligations.HostOperationsClockExactlyOneFrame : Prop :=
  ∀ (s : State) (i f : Instr) (bits : List Bool) (prev : Word32), Ready s → earlyStatus s.cfg i = none →
    frameOf i = some f → encodeFrame s.cfg.aw f = some bits →
    ∃ t evs, exec i s = .next t ∧ Added s t evs ∧
      clockedBits s.cfg prev (writesOf evs) =
        bits ++ (if (∃ a, i = .readWord a) ∧ t.status = .ok then List.replicate 16 true else [])

/-- R99: numbers of accesses and yields and the minimum busy-wait time of the host operations, for every AW. -/
def Obligations.AccessCountsOfHostOperations : Prop :=
  ∀ (s t : State) (i : Instr) (evs : List Event), Ready s → exec i s = .next t → Added s t evs →
    earlyStatus s.cfg i = none →
    (i = .writeEnable → (readsOf evs).length = 1 ∧ (writesOf evs).length = 7 + 2 * s.cfg.aw ∧
      busyWait evs = 14 + 4 * s.cfg.aw ∧ yieldsOf evs = 0) ∧
    (i = .writeDisable → (readsOf evs).length = 1 ∧ (writesOf evs).length = 15 + 2 * s.cfg.aw ∧
      busyWait evs = 30 + 4 * s.cfg.aw ∧ yieldsOf evs = 0) ∧
    (∀ a, i = .readWord a → t.status = .ok → (readsOf evs).length = 18 ∧
      (writesOf evs).length = 40 + 2 * s.cfg.aw ∧ busyWait evs = 94 + 4 * s.cfg.aw ∧ yieldsOf evs = 0) ∧
    (∀ a, i = .readWord a → t.status = .protocolFraming → (readsOf evs).length = 2 ∧
      (writesOf evs).length = 7 + 2 * s.cfg.aw ∧ busyWait evs = 14 + 4 * s.cfg.aw ∧ yieldsOf evs = 0) ∧
    (∀ a v, i = .writeWord a v → ∃ k, 1 ≤ k ∧ (readsOf evs).length = 1 + k ∧
      (writesOf evs).length = 41 + 2 * s.cfg.aw ∧ busyWait evs = 80 + 4 * s.cfg.aw ∧ yieldsOf evs = k - 1)

/-- R23, R101, R109: which status each operation can report, and data 0 but for a READ_WORD that reports OK, whose data has
16 bits. -/
def Obligations.StatusAndDataOfHostOperations : Prop :=
  ∀ (s t : State) (i : Instr), i.isHostOp = true → exec i s = .next t →
    ((∀ a, i = .readWord a → t.status = .ok ∨ t.status = .addressOutOfRange ∨ t.status = .protocolFraming) ∧
     (∀ a v, i = .writeWord a v → t.status = .ok ∨ t.status = .addressOutOfRange ∨ t.status = .writeTimeout) ∧
     (i = .writeEnable ∨ i = .writeDisable → t.status = .ok) ∧
     (∀ op, i = .reserved op → t.status = .illegalOp)) ∧
    (t.status ≠ .ok ∨ (∀ a, i ≠ .readWord a) → t.data = 0) ∧ t.data.toNat < 2 ^ 16

/-- R22, R101: the codes. -/
def Obligations.StatusCodesAreThoseOfTheTable : Prop :=
  Status.ok.code = 0 ∧ Status.addressOutOfRange.code = 1 ∧ Status.protocolFraming.code = 2 ∧
    Status.writeTimeout.code = 3 ∧ Status.illegalOp.code = 4

/-- R19, R20, R88, R138: an accepted operation does not depend on the shadow value, status, data or internal values an
earlier one left. -/
def Obligations.AcceptedOperationsUseNoStaleState : Prop :=
  ∀ (s : State) (i : Instr) (ctl : Option Word32) (st : Status) (d : Word32) (acc : Option Word32) (pos : List Act)
    (ret : Option Status), Ready s → i.isHostOp = true → earlyStatus s.cfg i = none →
    exec i { s with ctl := ctl, status := st, data := d, acc := acc, stepPos := pos, ret := ret } = exec i s

/-! ### What each row leaves unchanged -/

/-- Frame of the micro-operations (R82 to R85, R95; ret and the deadline: log entries 4, 18): none touches the host port,
the running position or the schedule, and with an oracle for DO none touches the part; START and END leave acc, the returned
status and the deadline, PUT_BITS those, the phase and the oracle answers, GET_BITS the phase, the returned status and the
deadline, WAIT acc. The configuration: `ConfigurationNeverChanges`. -/
def Obligations.FrameOfMicroOperations : Prop :=
  ∀ s t : State,
    (∀ i, i = .start ∨ (∃ v n, i = .putBits v n) ∨ (∃ n, i = .getBits n) ∨ i = .endOp ∨ i = .wait →
      exec i s = .next t →
      t.busy = s.busy ∧ t.status = s.status ∧ t.data = s.data ∧ t.stepPos = s.stepPos ∧ t.moves = s.moves ∧
      (s.attached = .oracle → t.part = s.part)) ∧
    (exec .start s = .next t → t.acc = s.acc ∧ t.ret = s.ret ∧ t.deadline = s.deadline) ∧
    (∀ v n, exec (.putBits v n) s = .next t → t.phase = s.phase ∧ t.acc = s.acc ∧ t.ret = s.ret ∧
      t.deadline = s.deadline ∧ t.answers = s.answers ∧ t.deadlines = s.deadlines) ∧
    (∀ n, exec (.getBits n) s = .next t → t.phase = s.phase ∧ t.ret = s.ret ∧ t.deadline = s.deadline ∧
      t.deadlines = s.deadlines) ∧
    (exec .endOp s = .next t → t.acc = s.acc ∧ t.ret = s.ret ∧ t.deadline = s.deadline ∧ t.answers = s.answers ∧
      t.deadlines = s.deadlines) ∧
    (exec .wait s = .next t → t.acc = s.acc)

/-- Memory frame of the micro-operations with the reference part: the only bytes that can change are those of the word being
programmed and, where the lines of `ctl` are those last written, of the complete WRITE the part has shifted in (R129). -/
def Obligations.MicroOperationsKeepOtherBytes : Prop :=
  ∀ (s t : State) (i : Instr),
    i = .start ∨ (((∃ v n, i = .putBits v n) ∨ (∃ n, i = .getBits n) ∨ i = .endOp ∨ i = .wait) ∧
      s.ctl = some s.creg) →
    exec i s = .next t →
    ∀ a, ¬ inPendingWord s.part a →
      (∀ k v, Part.pendingWrite s.cfg.aw s.part = some (k, v) → ¬ inWord k a) →
      Memory.read t.part.mem a = Memory.read s.part.mem a

/-- Frame of the serial frame rows: they leave the host port and the running position alone, and with an oracle for DO the
part; the WRITE, EWEN and EWDS rows leave acc, the returned status and the wait's deadline alone. -/
def Obligations.FrameOfSerialFrames : Prop :=
  ∀ (s t : State) (i : Instr), (∃ a, i = .readFrame a) ∨ (∃ a v, i = .writeFrame a v) ∨ i = .ewenFrame ∨ i = .ewdsFrame →
    exec i s = .next t →
    t.busy = s.busy ∧ t.status = s.status ∧ t.data = s.data ∧ t.stepPos = s.stepPos ∧ t.moves = s.moves ∧
    t.deadline = s.deadline ∧ t.deadlines = s.deadlines ∧
    (s.attached = .oracle → t.part = s.part) ∧
    ((∀ a, i ≠ .readFrame a) → t.acc = s.acc ∧ t.ret = s.ret)

/-- Frame of the host operations: the schedule stays, only WRITE_WORD, whose completion wait it is (R95), draws a deadline,
with an oracle for DO the part stays, and an operation that is not accepted leaves phase, ctl, lines, part and oracle answers
as they are. The schedule (log entry 16), the deadlines (4), the answers (3), the count of draws (5) and the part under an
oracle (9) are the model's own fields. -/
def Obligations.FrameOfHostOperations : Prop :=
  ∀ (s t : State) (i : Instr), i.isHostOp = true → exec i s = .next t →
    t.moves = s.moves ∧ (s.attached = .oracle → t.part = s.part) ∧
    ((∀ a v, i ≠ .writeWord a v) → t.deadline = s.deadline ∧ t.deadlines = s.deadlines) ∧
    (earlyStatus s.cfg i ≠ none → t.phase = s.phase ∧ t.ctl = s.ctl ∧ t.creg = s.creg ∧ t.part = s.part ∧
      t.answers = s.answers ∧ t.draws = s.draws ∧ t.deadline = s.deadline ∧ t.deadlines = s.deadlines)

/-- Memory frame of the host operations and frames (R92, R129, R132, R134): from a part that waits for a start bit, the only
bytes that can change are those of the word a WRITE row stores to and of a word that was being programmed before. -/
def Obligations.RowsStoreOnlyTheirWord : Prop :=
  ∀ (s t : State) (i : Instr), s.part.cmd = .waiting → i.isHostOp = true ∨ (encodeFrame s.cfg.aw i).isSome = true →
    exec i s = .next t →
    ∀ a, ¬ inPendingWord s.part a → (∀ k, storedWord i = some k → ¬ inWord k a) →
      Memory.read t.part.mem a = Memory.read s.part.mem a

/-- R35: only the EWEN and EWDS frames move the write-enable latch: from a part that waits for a start bit, every other host
operation and frame leaves it as it was. -/
def Obligations.OnlyEnableAndDisableMoveTheLatch : Prop :=
  ∀ (s t : State) (i : Instr), s.part.cmd = .waiting → i.isHostOp = true ∨ (encodeFrame s.cfg.aw i).isSome = true →
    i ≠ .writeEnable → i ≠ .writeDisable → i ≠ .ewenFrame → i ≠ .ewdsFrame →
    exec i s = .next t → t.part.we = s.part.we

/-! ### Memory -/

/-- R46: after programming a word (memory as log entry 8 lays it out), that word reads as written and every other word as
before; its low byte lies at the even offset. -/
def Obligations.WordReadsAsWritten : Prop :=
  ∀ (m : Memory) (j k : Nat) (v : Word16), Memory.wf m = true →
    Memory.readWord (Memory.writeWord m k v) j = (if j = k then v else Memory.readWord m j) ∧
    Memory.read (Memory.writeWord m k v) (2 * k) = v.setWidth 8 ∧
    Memory.read (Memory.writeWord m k v) (2 * k + 1) = (v >>> 8).setWidth 8

/-- Equal contents are equal data: the canonical form of memory (log entry 8). -/
def Obligations.CanonicalMemoryIsUnique : Prop :=
  ∀ m n : Memory, Memory.wf m = true → Memory.wf n = true → (∀ a, Memory.read m a = Memory.read n a) → m = n

/-- R44, R46: every step keeps the word array canonical and inside its capacity. -/
def Obligations.StepKeepsMemoryCanonical : Prop :=
  ∀ s t : State, MemInv s → step s = .next t → MemInv t

/-! ### The machine -/

/-- A step takes the host's descriptor and runs the instruction it decodes to (R70, R76, R116; the schedule is log entry
16). -/
def Obligations.StepRunsTheDecodedInstruction : Prop :=
  ∀ (s : State) (d : Descriptor) (ms : List Move), s.cfg.ok = true → s.moves = .run d :: ms →
    step s = exec (decodeDescriptor d) { s with moves := ms }

/-- R126, R136: with nothing running and nothing scheduled (log entry 16) the sequencer makes no access and stays as it is.
R115, R129, R130: meanwhile, and in a step of its own, an attached part goes on by itself: a word being programmed comes one
unit of time nearer its end, at which the word array holds it (log entries 9, 12); nothing else of the machine changes. -/
def Obligations.IdleSequencerWaits : Prop :=
  ∀ (s : State) (ms : List Move), s.cfg.ok = true →
    (s.busy = false ∧ s.moves = [] ∧ ms = []) ∨ s.moves = .part :: ms →
    ∃ p : Part, step s = .next { s with moves := ms, part := p } ∧
      (s.attached = .oracle ∨ s.part.programming = none → p = s.part) ∧
      (∀ g, s.attached = .reference → s.part.programming = some g →
        p = if g.left = 0 then { s.part with mem := Memory.writeWord s.part.mem g.addr g.value, programming := none }
          else { s.part with programming := some { g with left := g.left - 1 } })

/-- R140, I12: no machine runs under a configuration R140 excludes (log entries 1, 20). -/
def Obligations.ExcludedConfigurationIsRefused : Prop :=
  ∀ (s : State) (i : Instr), s.cfg.ok = false →
    step s = .refused .badConfiguration ∧ exec i s = .refused .badConfiguration

/-- R17, R18, R37, R86, R98: the sequencer's invariant holds for every new instance. -/
def Obligations.NewInstanceMeetsTheSequencerInvariant : Prop :=
  ∀ (c : Config) (s : State), State.create c = some s → SeqInv s ∧ MemInv s

/-- R17, R18, R37, R86, R98: every step, an action, an operation, a reset or another agent's write, keeps the sequencer's
invariant. -/
def Obligations.StepKeepsTheSequencerInvariant : Prop :=
  ∀ s t : State, SeqInv s → step s = .next t → SeqInv t

/-- R20, R86: under the invariant no step faults; the only refusal is a descriptor offered while busy (R117). -/
def Obligations.NoStepFaultsUnderTheInvariant : Prop :=
  ∀ s : State, SeqInv s →
    (∃ t, step s = .next t) ∨
    (s.busy = true ∧ (∃ d ms, s.moves = .run d :: ms ∨ s.moves = .issue d :: ms) ∧ step s = .refused .hostBusy)

/-- R25, R50, R79: an operation taken action by action (log entry 21) ends exactly as `exec` says. -/
def Obligations.ActionsOfAnOperationAddUpToExec : Prop :=
  ∀ (s : State) (d : Descriptor), s.cfg.ok = true →
    ∃ n, 1 ≤ n ∧ Host.Core.run core n { s with moves := [.issue d] } = exec (decodeDescriptor d) { s with moves := [] }

/-- R33, R144 (log entry 28): what another agent writes to the control register during an operation is undone by the block's
next write, be it a write of START, PUT_BITS, GET_BITS or END, GET_BITS' read-mode write or WAIT's re-assert: the register then
holds the whole of ctl, computed from ctl alone. -/
def Obligations.NextWriteUndoesAForeignWrite : Prop :=
  ∀ (s : State) (v c : Word32) (rest : List Act), s.cfg.ok = true → s.busy = true → s.ctl = some c →
    s.moves = [.foreign v] →
    (∀ sk cs di, s.stepPos = .drive s.phase sk cs di :: rest →
      ∃ t, Host.Core.run core 2 s = .next t ∧ t.creg = driveLines s.cfg c sk cs di ∧ t.ctl = some t.creg ∧
        t.history = .write t.creg :: s.history) ∧
    (s.phase = .commandActive → s.stepPos = .readMode :: rest →
      ∃ t, Host.Core.run core 2 s = .next t ∧ t.creg = setl s.cfg (setl s.cfg c .di true) .doe true ∧
        t.ctl = some t.creg ∧ t.history = .write t.creg :: s.history) ∧
    (s.phase = .idle → s.stepPos = .reassert :: rest →
      ∃ t, Host.Core.run core 2 s = .next t ∧
        t.creg = setl s.cfg (setl s.cfg (setl s.cfg c .cs true) .di true) .doe true ∧
        t.ctl = some t.creg ∧ t.history = .write t.creg :: s.history)

/-- R11, R42, R43, R55: of the events a row adds, each RegRead32 and each RegWrite32 is one access of 4 bytes at BASE +
CTRL_OFFSET in the space ACCESS_MODE names, carrying the value read or written, and nothing else is an access. A row that
begins with START reads first; the register holds what the last write access carried (R52), or is as before where there is
none; a row that completes early makes no access (R89, R107). R54: a read leaves the lines and the EEPROM as they are. -/
def Obligations.EveryAccessIsTheControlRegister : Prop :=
  (∀ (s t : State) (i : Instr), exec i s = .next t →
    ∃ evs, Added s t evs ∧
      (∀ e ∈ evs, busAccess s.cfg e =
        match e with
        | .read v => some ⟨s.cfg.accessMode, s.cfg.base + s.cfg.ctrlOffset, 4, false, v⟩
        | .write v => some ⟨s.cfg.accessMode, s.cfg.base + s.cfg.ctrlOffset, 4, true, v⟩
        | .delay _ => none
        | .yield => none
        | .completed _ _ => none) ∧
      (earlyStatus s.cfg i ≠ none → accessesOf s.cfg evs = []) ∧
      (earlyStatus s.cfg i = none → i.isHostOp = true ∨ (encodeFrame s.cfg.aw i).isSome = true ∨ i = .start →
        (accessesOf s.cfg evs).head? =
          some ⟨s.cfg.accessMode, s.cfg.base + s.cfg.ctrlOffset, 4, false, readValue s⟩) ∧
      (((accessesOf s.cfg evs).filter (·.isWrite)).getLast? = none → t.creg = s.creg) ∧
      (∀ a, ((accessesOf s.cfg evs).filter (·.isWrite)).getLast? = some a →
        a = ⟨s.cfg.accessMode, s.cfg.base + s.cfg.ctrlOffset, 4, true, t.creg⟩)) ∧
  (∀ (s : State) (a : Act) (rest : List Act), s.cfg.ok = true → s.busy = true → s.moves = [] → s.stepPos = a :: rest →
    (s.phase = .idle ∧ a = .loadCtl) ∨
    (s.phase = .commandActive ∧ ((a = .sample ∧ s.acc.isSome = true) ∨ a = .check ∨ a = .poll)) →
    ∃ t, step s = .next t ∧ t.history = .read (readValue s) :: s.history ∧ t.creg = s.creg ∧ t.part = s.part)

/-! ### With the reference part attached (R127 to R135)

The reference part is general knowledge in the spec and an attachment in the model (log entries 9 to 14). -/

/-- R35, R135: WRITE_ENABLE sets the part's latch and WRITE_DISABLE clears it; nothing else of the part changes. -/
def Obligations.ReferencePartTakesEnableAndDisable : Prop :=
  ∀ s : State, Ready s → PartAtRest s →
    (∃ t, exec .writeEnable s = .next t ∧ t.status = .ok ∧ t.part = { s.part with we := true } ∧ PartAtRest t) ∧
    (∃ t, exec .writeDisable s = .next t ∧ t.status = .ok ∧ t.part = { s.part with we := false } ∧ PartAtRest t)

/-- R132, R135: READ_WORD gives OK and the part's word, and leaves the part as it was. -/
def Obligations.ReferencePartAnswersReadWord : Prop :=
  ∀ (s : State) (addr : Word16), Ready s → PartAtRest s → addr.toNat < s.cfg.words →
    ∃ t, exec (.readWord addr) s = .next t ∧ t.status = .ok ∧
      t.data = (Memory.readWord s.part.mem addr.toNat).setWidth 32 ∧ t.part = s.part ∧ PartAtRest t

/-- R129, R130, R135: WRITE_WORD with the latch set programs the word and reports OK once the programming time, counted in
polls that read busy and scripted not to outlast the deadline (log entries 4, 12), has passed; with the latch clear it
reports OK at its first poll and changes nothing. -/
def Obligations.ReferencePartTakesWriteWord : Prop :=
  ∀ (s : State) (addr value : Word16) (time n : Nat) (times ns : List Nat), Ready s → PartAtRest s →
    addr.toNat < s.cfg.words → s.progTimes = time :: times → s.deadlines = n :: ns →
    (s.part.we = true → time ≤ n →
      ∃ t evs, exec (.writeWord addr value) s = .next t ∧ t.status = .ok ∧
        t.part = { s.part with mem := Memory.writeWord s.part.mem addr.toNat value } ∧ PartAtRest t ∧
        Added s t evs ∧ (readsOf evs).length = time + 2 ∧ yieldsOf evs = time) ∧
    (s.part.we = false →
      ∃ t evs, exec (.writeWord addr value) s = .next t ∧ t.status = .ok ∧ t.part = s.part ∧ PartAtRest t ∧
        Added s t evs ∧ (readsOf evs).length = 2 ∧ yieldsOf evs = 0)

/-- R100, R128: the round trip under the reference part: enable, write, disable, read back; the reference part, its programming
time and the scripted deadline are the model's (log entries 4, 9, 12). -/
def Obligations.RoundTripUnderTheReferencePart : Prop :=
  ∀ (s : State) (addr value : Word16) (time n : Nat) (times ns : List Nat) (d1 d2 d3 d4 : Descriptor), Ready s →
    PartAtRest s → Memory.wf s.part.mem = true → addr.toNat < s.cfg.words → s.progTimes = time :: times →
    s.deadlines = n :: ns → time ≤ n →
    encodeDescriptor .writeEnable = some d1 → encodeDescriptor (.writeWord addr value) = some d2 →
    encodeDescriptor .writeDisable = some d3 → encodeDescriptor (.readWord addr) = some d4 →
    s.moves = [.run d1, .run d2, .run d3, .run d4] →
    ∃ t, Host.Core.run core 4 s = .next t ∧ t.status = .ok ∧ t.data = value.setWidth 32 ∧ t.part.we = false ∧
      (∀ k, k ≠ addr.toNat → Memory.readWord t.part.mem k = Memory.readWord s.part.mem k)
end

