-- ==== Sys2Proof/Laws/State.lean ====
section
/-! SUPPORT. What the plain updates of State leave alone, one lemma a field, each true by rfl. -/

namespace Sys2Proof.Machine

/-! ### `record` -/

@[simp] theorem record_cfg (e : Event) (s : State) : (record e s).cfg = s.cfg := rfl
@[simp] theorem record_phase (e : Event) (s : State) : (record e s).phase = s.phase := rfl
@[simp] theorem record_ctl (e : Event) (s : State) : (record e s).ctl = s.ctl := rfl
@[simp] theorem record_busy (e : Event) (s : State) : (record e s).busy = s.busy := rfl
@[simp] theorem record_status (e : Event) (s : State) : (record e s).status = s.status := rfl
@[simp] theorem record_data (e : Event) (s : State) : (record e s).data = s.data := rfl
@[simp] theorem record_acc (e : Event) (s : State) : (record e s).acc = s.acc := rfl
@[simp] theorem record_stepPos (e : Event) (s : State) : (record e s).stepPos = s.stepPos := rfl
@[simp] theorem record_ret (e : Event) (s : State) : (record e s).ret = s.ret := rfl
@[simp] theorem record_creg (e : Event) (s : State) : (record e s).creg = s.creg := rfl
@[simp] theorem record_deadline (e : Event) (s : State) : (record e s).deadline = s.deadline := rfl
@[simp] theorem record_attached (e : Event) (s : State) : (record e s).attached = s.attached := rfl
@[simp] theorem record_part (e : Event) (s : State) : (record e s).part = s.part := rfl
@[simp] theorem record_moves (e : Event) (s : State) : (record e s).moves = s.moves := rfl
@[simp] theorem record_answers (e : Event) (s : State) : (record e s).answers = s.answers := rfl
@[simp] theorem record_deadlines (e : Event) (s : State) : (record e s).deadlines = s.deadlines := rfl
@[simp] theorem record_progTimes (e : Event) (s : State) : (record e s).progTimes = s.progTimes := rfl
@[simp] theorem record_draws (e : Event) (s : State) : (record e s).draws = s.draws := rfl
@[simp] theorem record_history (e : Event) (s : State) : (record e s).history = e :: s.history := rfl

/-! ### `complete` -/

@[simp] theorem complete_cfg (st : Status) (d : Word32) (s : State) : (complete st d s).cfg = s.cfg := rfl
@[simp] theorem complete_phase (st : Status) (d : Word32) (s : State) : (complete st d s).phase = s.phase := rfl
@[simp] theorem complete_ctl (st : Status) (d : Word32) (s : State) : (complete st d s).ctl = s.ctl := rfl
@[simp] theorem complete_creg (st : Status) (d : Word32) (s : State) : (complete st d s).creg = s.creg := rfl
@[simp] theorem complete_deadline (st : Status) (d : Word32) (s : State) : (complete st d s).deadline = s.deadline := rfl
@[simp] theorem complete_attached (st : Status) (d : Word32) (s : State) : (complete st d s).attached = s.attached := rfl
@[simp] theorem complete_part (st : Status) (d : Word32) (s : State) : (complete st d s).part = s.part := rfl
@[simp] theorem complete_moves (st : Status) (d : Word32) (s : State) : (complete st d s).moves = s.moves := rfl
@[simp] theorem complete_answers (st : Status) (d : Word32) (s : State) : (complete st d s).answers = s.answers := rfl
@[simp] theorem complete_deadlines (st : Status) (d : Word32) (s : State) : (complete st d s).deadlines = s.deadlines := rfl
@[simp] theorem complete_progTimes (st : Status) (d : Word32) (s : State) : (complete st d s).progTimes = s.progTimes := rfl
@[simp] theorem complete_draws (st : Status) (d : Word32) (s : State) : (complete st d s).draws = s.draws := rfl
@[simp] theorem complete_status (st : Status) (d : Word32) (s : State) : (complete st d s).status = st := rfl
@[simp] theorem complete_data (st : Status) (d : Word32) (s : State) : (complete st d s).data = d := rfl
@[simp] theorem complete_busy (st : Status) (d : Word32) (s : State) : (complete st d s).busy = false := rfl
@[simp] theorem complete_acc (st : Status) (d : Word32) (s : State) : (complete st d s).acc = none := rfl
@[simp] theorem complete_stepPos (st : Status) (d : Word32) (s : State) : (complete st d s).stepPos = [] := rfl
@[simp] theorem complete_ret (st : Status) (d : Word32) (s : State) : (complete st d s).ret = none := rfl
@[simp] theorem complete_history (st : Status) (d : Word32) (s : State) : (complete st d s).history = .completed st d :: s.history := rfl

/-! ### `accept` -/

@[simp] theorem accept_cfg (s : State) : (accept s).cfg = s.cfg := rfl
@[simp] theorem accept_phase (s : State) : (accept s).phase = s.phase := rfl
@[simp] theorem accept_ctl (s : State) : (accept s).ctl = s.ctl := rfl
@[simp] theorem accept_status (s : State) : (accept s).status = s.status := rfl
@[simp] theorem accept_data (s : State) : (accept s).data = s.data := rfl
@[simp] theorem accept_acc (s : State) : (accept s).acc = s.acc := rfl
@[simp] theorem accept_stepPos (s : State) : (accept s).stepPos = s.stepPos := rfl
@[simp] theorem accept_ret (s : State) : (accept s).ret = s.ret := rfl
@[simp] theorem accept_creg (s : State) : (accept s).creg = s.creg := rfl
@[simp] theorem accept_deadline (s : State) : (accept s).deadline = s.deadline := rfl
@[simp] theorem accept_attached (s : State) : (accept s).attached = s.attached := rfl
@[simp] theorem accept_part (s : State) : (accept s).part = s.part := rfl
@[simp] theorem accept_moves (s : State) : (accept s).moves = s.moves := rfl
@[simp] theorem accept_answers (s : State) : (accept s).answers = s.answers := rfl
@[simp] theorem accept_deadlines (s : State) : (accept s).deadlines = s.deadlines := rfl
@[simp] theorem accept_progTimes (s : State) : (accept s).progTimes = s.progTimes := rfl
@[simp] theorem accept_draws (s : State) : (accept s).draws = s.draws := rfl
@[simp] theorem accept_history (s : State) : (accept s).history = s.history := rfl
@[simp] theorem accept_busy (s : State) : (accept s).busy = true := rfl

/-! ### `resetSequencer` -/

@[simp] theorem resetSequencer_cfg (s : State) : (resetSequencer s).cfg = s.cfg := rfl
@[simp] theorem resetSequencer_creg (s : State) : (resetSequencer s).creg = s.creg := rfl
@[simp] theorem resetSequencer_deadline (s : State) : (resetSequencer s).deadline = s.deadline := rfl
@[simp] theorem resetSequencer_attached (s : State) : (resetSequencer s).attached = s.attached := rfl
@[simp] theorem resetSequencer_part (s : State) : (resetSequencer s).part = s.part := rfl
@[simp] theorem resetSequencer_moves (s : State) : (resetSequencer s).moves = s.moves := rfl
@[simp] theorem resetSequencer_answers (s : State) : (resetSequencer s).answers = s.answers := rfl
@[simp] theorem resetSequencer_deadlines (s : State) : (resetSequencer s).deadlines = s.deadlines := rfl
@[simp] theorem resetSequencer_progTimes (s : State) : (resetSequencer s).progTimes = s.progTimes := rfl
@[simp] theorem resetSequencer_draws (s : State) : (resetSequencer s).draws = s.draws := rfl
@[simp] theorem resetSequencer_history (s : State) : (resetSequencer s).history = s.history := rfl
@[simp] theorem resetSequencer_phase (s : State) : (resetSequencer s).phase = .idle := rfl
@[simp] theorem resetSequencer_ctl (s : State) : (resetSequencer s).ctl = none := rfl
@[simp] theorem resetSequencer_status (s : State) : (resetSequencer s).status = .ok := rfl
@[simp] theorem resetSequencer_data (s : State) : (resetSequencer s).data = 0 := rfl
@[simp] theorem resetSequencer_busy (s : State) : (resetSequencer s).busy = false := rfl
@[simp] theorem resetSequencer_acc (s : State) : (resetSequencer s).acc = none := rfl
@[simp] theorem resetSequencer_stepPos (s : State) : (resetSequencer s).stepPos = [] := rfl
@[simp] theorem resetSequencer_ret (s : State) : (resetSequencer s).ret = none := rfl

end Sys2Proof.Machine
end

