-- ==== Sys2Proof/Laws/Ops.lean ====
section
/-! SUPPORT. What each port operation leaves alone, one lemma a field, and what it does to the history, the control register
and the shadow value. -/

namespace Sys2Proof.Machine

/-! ### `takeProgTime` -/

@[simp] theorem takeProgTime_cfg (s : State) : (takeProgTime s).cfg = s.cfg := by
  unfold takeProgTime; split <;> rfl
@[simp] theorem takeProgTime_phase (s : State) : (takeProgTime s).phase = s.phase := by
  unfold takeProgTime; split <;> rfl
@[simp] theorem takeProgTime_ctl (s : State) : (takeProgTime s).ctl = s.ctl := by
  unfold takeProgTime; split <;> rfl
@[simp] theorem takeProgTime_busy (s : State) : (takeProgTime s).busy = s.busy := by
  unfold takeProgTime; split <;> rfl
@[simp] theorem takeProgTime_status (s : State) : (takeProgTime s).status = s.status := by
  unfold takeProgTime; split <;> rfl
@[simp] theorem takeProgTime_data (s : State) : (takeProgTime s).data = s.data := by
  unfold takeProgTime; split <;> rfl
@[simp] theorem takeProgTime_acc (s : State) : (takeProgTime s).acc = s.acc := by
  unfold takeProgTime; split <;> rfl
@[simp] theorem takeProgTime_stepPos (s : State) : (takeProgTime s).stepPos = s.stepPos := by
  unfold takeProgTime; split <;> rfl
@[simp] theorem takeProgTime_ret (s : State) : (takeProgTime s).ret = s.ret := by
  unfold takeProgTime; split <;> rfl
@[simp] theorem takeProgTime_creg (s : State) : (takeProgTime s).creg = s.creg := by
  unfold takeProgTime; split <;> rfl
@[simp] theorem takeProgTime_deadline (s : State) : (takeProgTime s).deadline = s.deadline := by
  unfold takeProgTime; split <;> rfl
@[simp] theorem takeProgTime_attached (s : State) : (takeProgTime s).attached = s.attached := by
  unfold takeProgTime; split <;> rfl
@[simp] theorem takeProgTime_part (s : State) : (takeProgTime s).part = s.part := by
  unfold takeProgTime; split <;> rfl
@[simp] theorem takeProgTime_moves (s : State) : (takeProgTime s).moves = s.moves := by
  unfold takeProgTime; split <;> rfl
@[simp] theorem takeProgTime_answers (s : State) : (takeProgTime s).answers = s.answers := by
  unfold takeProgTime; split <;> rfl
@[simp] theorem takeProgTime_deadlines (s : State) : (takeProgTime s).deadlines = s.deadlines := by
  unfold takeProgTime; split <;> rfl
@[simp] theorem takeProgTime_history (s : State) : (takeProgTime s).history = s.history := by
  unfold takeProgTime; split <;> rfl

/-! ### `partFrameEnd` -/

@[simp] theorem partFrameEnd_cfg (s : State) : (partFrameEnd s).cfg = s.cfg := by
  unfold partFrameEnd; dsimp only; split <;> simp
@[simp] theorem partFrameEnd_phase (s : State) : (partFrameEnd s).phase = s.phase := by
  unfold partFrameEnd; dsimp only; split <;> simp
@[simp] theorem partFrameEnd_ctl (s : State) : (partFrameEnd s).ctl = s.ctl := by
  unfold partFrameEnd; dsimp only; split <;> simp
@[simp] theorem partFrameEnd_busy (s : State) : (partFrameEnd s).busy = s.busy := by
  unfold partFrameEnd; dsimp only; split <;> simp
@[simp] theorem partFrameEnd_status (s : State) : (partFrameEnd s).status = s.status := by
  unfold partFrameEnd; dsimp only; split <;> simp
@[simp] theorem partFrameEnd_data (s : State) : (partFrameEnd s).data = s.data := by
  unfold partFrameEnd; dsimp only; split <;> simp
@[simp] theorem partFrameEnd_acc (s : State) : (partFrameEnd s).acc = s.acc := by
  unfold partFrameEnd; dsimp only; split <;> simp
@[simp] theorem partFrameEnd_stepPos (s : State) : (partFrameEnd s).stepPos = s.stepPos := by
  unfold partFrameEnd; dsimp only; split <;> simp
@[simp] theorem partFrameEnd_ret (s : State) : (partFrameEnd s).ret = s.ret := by
  unfold partFrameEnd; dsimp only; split <;> simp
@[simp] theorem partFrameEnd_creg (s : State) : (partFrameEnd s).creg = s.creg := by
  unfold partFrameEnd; dsimp only; split <;> simp
@[simp] theorem partFrameEnd_deadline (s : State) : (partFrameEnd s).deadline = s.deadline := by
  unfold partFrameEnd; dsimp only; split <;> simp
@[simp] theorem partFrameEnd_attached (s : State) : (partFrameEnd s).attached = s.attached := by
  unfold partFrameEnd; dsimp only; split <;> simp
@[simp] theorem partFrameEnd_moves (s : State) : (partFrameEnd s).moves = s.moves := by
  unfold partFrameEnd; dsimp only; split <;> simp
@[simp] theorem partFrameEnd_answers (s : State) : (partFrameEnd s).answers = s.answers := by
  unfold partFrameEnd; dsimp only; split <;> simp
@[simp] theorem partFrameEnd_deadlines (s : State) : (partFrameEnd s).deadlines = s.deadlines := by
  unfold partFrameEnd; dsimp only; split <;> simp
@[simp] theorem partFrameEnd_history (s : State) : (partFrameEnd s).history = s.history := by
  unfold partFrameEnd; dsimp only; split <;> simp

/-! ### `partObserve` -/

@[simp] theorem partObserve_cfg (old new : Word32) (s : State) : (partObserve old new s).cfg = s.cfg := by
  unfold partObserve; dsimp only; split <;> [split <;> rfl; split <;> simp]
@[simp] theorem partObserve_phase (old new : Word32) (s : State) : (partObserve old new s).phase = s.phase := by
  unfold partObserve; dsimp only; split <;> [split <;> rfl; split <;> simp]
@[simp] theorem partObserve_ctl (old new : Word32) (s : State) : (partObserve old new s).ctl = s.ctl := by
  unfold partObserve; dsimp only; split <;> [split <;> rfl; split <;> simp]
@[simp] theorem partObserve_busy (old new : Word32) (s : State) : (partObserve old new s).busy = s.busy := by
  unfold partObserve; dsimp only; split <;> [split <;> rfl; split <;> simp]
@[simp] theorem partObserve_status (old new : Word32) (s : State) : (partObserve old new s).status = s.status := by
  unfold partObserve; dsimp only; split <;> [split <;> rfl; split <;> simp]
@[simp] theorem partObserve_data (old new : Word32) (s : State) : (partObserve old new s).data = s.data := by
  unfold partObserve; dsimp only; split <;> [split <;> rfl; split <;> simp]
@[simp] theorem partObserve_acc (old new : Word32) (s : State) : (partObserve old new s).acc = s.acc := by
  unfold partObserve; dsimp only; split <;> [split <;> rfl; split <;> simp]
@[simp] theorem partObserve_stepPos (old new : Word32) (s : State) : (partObserve old new s).stepPos = s.stepPos := by
  unfold partObserve; dsimp only; split <;> [split <;> rfl; split <;> simp]
@[simp] theorem partObserve_ret (old new : Word32) (s : State) : (partObserve old new s).ret = s.ret := by
  unfold partObserve; dsimp only; split <;> [split <;> rfl; split <;> simp]
@[simp] theorem partObserve_creg (old new : Word32) (s : State) : (partObserve old new s).creg = s.creg := by
  unfold partObserve; dsimp only; split <;> [split <;> rfl; split <;> simp]
@[simp] theorem partObserve_deadline (old new : Word32) (s : State) : (partObserve old new s).deadline = s.deadline := by
  unfold partObserve; dsimp only; split <;> [split <;> rfl; split <;> simp]
@[simp] theorem partObserve_attached (old new : Word32) (s : State) : (partObserve old new s).attached = s.attached := by
  unfold partObserve; dsimp only; split <;> [split <;> rfl; split <;> simp]
@[simp] theorem partObserve_moves (old new : Word32) (s : State) : (partObserve old new s).moves = s.moves := by
  unfold partObserve; dsimp only; split <;> [split <;> rfl; split <;> simp]
@[simp] theorem partObserve_answers (old new : Word32) (s : State) : (partObserve old new s).answers = s.answers := by
  unfold partObserve; dsimp only; split <;> [split <;> rfl; split <;> simp]
@[simp] theorem partObserve_deadlines (old new : Word32) (s : State) : (partObserve old new s).deadlines = s.deadlines := by
  unfold partObserve; dsimp only; split <;> [split <;> rfl; split <;> simp]
@[simp] theorem partObserve_history (old new : Word32) (s : State) : (partObserve old new s).history = s.history := by
  unfold partObserve; dsimp only; split <;> [split <;> rfl; split <;> simp]

/-! ### `setLines` -/

@[simp] theorem setLines_cfg (v : Word32) (s : State) : (setLines v s).cfg = s.cfg := by
  unfold setLines; dsimp only; split <;> simp
@[simp] theorem setLines_phase (v : Word32) (s : State) : (setLines v s).phase = s.phase := by
  unfold setLines; dsimp only; split <;> simp
@[simp] theorem setLines_ctl (v : Word32) (s : State) : (setLines v s).ctl = s.ctl := by
  unfold setLines; dsimp only; split <;> simp
@[simp] theorem setLines_busy (v : Word32) (s : State) : (setLines v s).busy = s.busy := by
  unfold setLines; dsimp only; split <;> simp
@[simp] theorem setLines_status (v : Word32) (s : State) : (setLines v s).status = s.status := by
  unfold setLines; dsimp only; split <;> simp
@[simp] theorem setLines_data (v : Word32) (s : State) : (setLines v s).data = s.data := by
  unfold setLines; dsimp only; split <;> simp
@[simp] theorem setLines_acc (v : Word32) (s : State) : (setLines v s).acc = s.acc := by
  unfold setLines; dsimp only; split <;> simp
@[simp] theorem setLines_stepPos (v : Word32) (s : State) : (setLines v s).stepPos = s.stepPos := by
  unfold setLines; dsimp only; split <;> simp
@[simp] theorem setLines_ret (v : Word32) (s : State) : (setLines v s).ret = s.ret := by
  unfold setLines; dsimp only; split <;> simp
@[simp] theorem setLines_deadline (v : Word32) (s : State) : (setLines v s).deadline = s.deadline := by
  unfold setLines; dsimp only; split <;> simp
@[simp] theorem setLines_attached (v : Word32) (s : State) : (setLines v s).attached = s.attached := by
  unfold setLines; dsimp only; split <;> simp
@[simp] theorem setLines_moves (v : Word32) (s : State) : (setLines v s).moves = s.moves := by
  unfold setLines; dsimp only; split <;> simp
@[simp] theorem setLines_answers (v : Word32) (s : State) : (setLines v s).answers = s.answers := by
  unfold setLines; dsimp only; split <;> simp
@[simp] theorem setLines_deadlines (v : Word32) (s : State) : (setLines v s).deadlines = s.deadlines := by
  unfold setLines; dsimp only; split <;> simp
@[simp] theorem setLines_history (v : Word32) (s : State) : (setLines v s).history = s.history := by
  unfold setLines; dsimp only; split <;> simp
@[simp] theorem setLines_creg (v : Word32) (s : State) : (setLines v s).creg = v := by
  unfold setLines; dsimp only; split <;> simp
theorem setLines_oracle (v : Word32) (s : State) (h : s.attached = .oracle) : setLines v s = { s with creg := v } := by
  simp [setLines, h]
theorem setLines_reference (v : Word32) (s : State) (h : s.attached = .reference) :
    setLines v s = partObserve s.creg v { s with creg := v } := by
  simp [setLines, h]

/-! ### `regWrite` -/

@[simp] theorem regWrite_cfg (v : Word32) (s : State) : (regWrite v s).cfg = s.cfg := by
  simp [regWrite]
@[simp] theorem regWrite_phase (v : Word32) (s : State) : (regWrite v s).phase = s.phase := by
  simp [regWrite]
@[simp] theorem regWrite_ctl (v : Word32) (s : State) : (regWrite v s).ctl = s.ctl := by
  simp [regWrite]
@[simp] theorem regWrite_busy (v : Word32) (s : State) : (regWrite v s).busy = s.busy := by
  simp [regWrite]
@[simp] theorem regWrite_status (v : Word32) (s : State) : (regWrite v s).status = s.status := by
  simp [regWrite]
@[simp] theorem regWrite_data (v : Word32) (s : State) : (regWrite v s).data = s.data := by
  simp [regWrite]
@[simp] theorem regWrite_acc (v : Word32) (s : State) : (regWrite v s).acc = s.acc := by
  simp [regWrite]
@[simp] theorem regWrite_stepPos (v : Word32) (s : State) : (regWrite v s).stepPos = s.stepPos := by
  simp [regWrite]
@[simp] theorem regWrite_ret (v : Word32) (s : State) : (regWrite v s).ret = s.ret := by
  simp [regWrite]
@[simp] theorem regWrite_deadline (v : Word32) (s : State) : (regWrite v s).deadline = s.deadline := by
  simp [regWrite]
@[simp] theorem regWrite_attached (v : Word32) (s : State) : (regWrite v s).attached = s.attached := by
  simp [regWrite]
@[simp] theorem regWrite_moves (v : Word32) (s : State) : (regWrite v s).moves = s.moves := by
  simp [regWrite]
@[simp] theorem regWrite_answers (v : Word32) (s : State) : (regWrite v s).answers = s.answers := by
  simp [regWrite]
@[simp] theorem regWrite_deadlines (v : Word32) (s : State) : (regWrite v s).deadlines = s.deadlines := by
  simp [regWrite]
@[simp] theorem regWrite_creg (v : Word32) (s : State) : (regWrite v s).creg = v := by
  simp [regWrite]
@[simp] theorem regWrite_history (v : Word32) (s : State) : (regWrite v s).history = .write v :: s.history := by
  simp [regWrite]

/-! ### `takeAnswer` -/

@[simp] theorem takeAnswer_cfg (s : State) : (takeAnswer s).cfg = s.cfg := by
  unfold takeAnswer; split <;> rfl
@[simp] theorem takeAnswer_phase (s : State) : (takeAnswer s).phase = s.phase := by
  unfold takeAnswer; split <;> rfl
@[simp] theorem takeAnswer_ctl (s : State) : (takeAnswer s).ctl = s.ctl := by
  unfold takeAnswer; split <;> rfl
@[simp] theorem takeAnswer_busy (s : State) : (takeAnswer s).busy = s.busy := by
  unfold takeAnswer; split <;> rfl
@[simp] theorem takeAnswer_status (s : State) : (takeAnswer s).status = s.status := by
  unfold takeAnswer; split <;> rfl
@[simp] theorem takeAnswer_data (s : State) : (takeAnswer s).data = s.data := by
  unfold takeAnswer; split <;> rfl
@[simp] theorem takeAnswer_acc (s : State) : (takeAnswer s).acc = s.acc := by
  unfold takeAnswer; split <;> rfl
@[simp] theorem takeAnswer_stepPos (s : State) : (takeAnswer s).stepPos = s.stepPos := by
  unfold takeAnswer; split <;> rfl
@[simp] theorem takeAnswer_ret (s : State) : (takeAnswer s).ret = s.ret := by
  unfold takeAnswer; split <;> rfl
@[simp] theorem takeAnswer_creg (s : State) : (takeAnswer s).creg = s.creg := by
  unfold takeAnswer; split <;> rfl
@[simp] theorem takeAnswer_deadline (s : State) : (takeAnswer s).deadline = s.deadline := by
  unfold takeAnswer; split <;> rfl
@[simp] theorem takeAnswer_attached (s : State) : (takeAnswer s).attached = s.attached := by
  unfold takeAnswer; split <;> rfl
@[simp] theorem takeAnswer_part (s : State) : (takeAnswer s).part = s.part := by
  unfold takeAnswer; split <;> rfl
@[simp] theorem takeAnswer_moves (s : State) : (takeAnswer s).moves = s.moves := by
  unfold takeAnswer; split <;> rfl
@[simp] theorem takeAnswer_deadlines (s : State) : (takeAnswer s).deadlines = s.deadlines := by
  unfold takeAnswer; split <;> rfl
@[simp] theorem takeAnswer_progTimes (s : State) : (takeAnswer s).progTimes = s.progTimes := by
  unfold takeAnswer; split <;> rfl
@[simp] theorem takeAnswer_history (s : State) : (takeAnswer s).history = s.history := by
  unfold takeAnswer; split <;> rfl

/-! ### `partStep`, `delay` and `yieldPoll` -/

@[simp] theorem partStep_cfg (s : State) : (partStep s).cfg = s.cfg := by
  unfold partStep; split <;> rfl
@[simp] theorem partStep_phase (s : State) : (partStep s).phase = s.phase := by
  unfold partStep; split <;> rfl
@[simp] theorem partStep_ctl (s : State) : (partStep s).ctl = s.ctl := by
  unfold partStep; split <;> rfl
@[simp] theorem partStep_busy (s : State) : (partStep s).busy = s.busy := by
  unfold partStep; split <;> rfl
@[simp] theorem partStep_status (s : State) : (partStep s).status = s.status := by
  unfold partStep; split <;> rfl
@[simp] theorem partStep_data (s : State) : (partStep s).data = s.data := by
  unfold partStep; split <;> rfl
@[simp] theorem partStep_acc (s : State) : (partStep s).acc = s.acc := by
  unfold partStep; split <;> rfl
@[simp] theorem partStep_stepPos (s : State) : (partStep s).stepPos = s.stepPos := by
  unfold partStep; split <;> rfl
@[simp] theorem partStep_ret (s : State) : (partStep s).ret = s.ret := by
  unfold partStep; split <;> rfl
@[simp] theorem partStep_creg (s : State) : (partStep s).creg = s.creg := by
  unfold partStep; split <;> rfl
@[simp] theorem partStep_deadline (s : State) : (partStep s).deadline = s.deadline := by
  unfold partStep; split <;> rfl
@[simp] theorem partStep_attached (s : State) : (partStep s).attached = s.attached := by
  unfold partStep; split <;> rfl
@[simp] theorem partStep_moves (s : State) : (partStep s).moves = s.moves := by
  unfold partStep; split <;> rfl
@[simp] theorem partStep_answers (s : State) : (partStep s).answers = s.answers := by
  unfold partStep; split <;> rfl
@[simp] theorem partStep_deadlines (s : State) : (partStep s).deadlines = s.deadlines := by
  unfold partStep; split <;> rfl
@[simp] theorem partStep_progTimes (s : State) : (partStep s).progTimes = s.progTimes := by
  unfold partStep; split <;> rfl
@[simp] theorem partStep_draws (s : State) : (partStep s).draws = s.draws := by
  unfold partStep; split <;> rfl
@[simp] theorem partStep_history (s : State) : (partStep s).history = s.history := by
  unfold partStep; split <;> rfl
theorem partStep_oracle (s : State) (h : s.attached = .oracle) : partStep s = s := by
  unfold partStep; rw [h]
theorem partStep_reference (s : State) (h : s.attached = .reference) :
    partStep s = { s with part := Part.tick s.part } := by
  unfold partStep; rw [h]
/-- A hold is its event and a step of the part's own (R120). -/
@[simp] theorem delay_eq (us : Nat) (s : State) : delay us s = partStep (record (.delay us) s) := rfl
/-- A yield is its event and a step of the part's own (R120). -/
@[simp] theorem yieldPoll_eq (s : State) : yieldPoll s = partStep (record .yield s) := rfl

/-! ### `afterRead` -/

@[simp] theorem afterRead_cfg (s : State) : (afterRead s).cfg = s.cfg := by
  simp [afterRead]
@[simp] theorem afterRead_phase (s : State) : (afterRead s).phase = s.phase := by
  simp [afterRead]
@[simp] theorem afterRead_ctl (s : State) : (afterRead s).ctl = s.ctl := by
  simp [afterRead]
@[simp] theorem afterRead_busy (s : State) : (afterRead s).busy = s.busy := by
  simp [afterRead]
@[simp] theorem afterRead_status (s : State) : (afterRead s).status = s.status := by
  simp [afterRead]
@[simp] theorem afterRead_data (s : State) : (afterRead s).data = s.data := by
  simp [afterRead]
@[simp] theorem afterRead_acc (s : State) : (afterRead s).acc = s.acc := by
  simp [afterRead]
@[simp] theorem afterRead_stepPos (s : State) : (afterRead s).stepPos = s.stepPos := by
  simp [afterRead]
@[simp] theorem afterRead_ret (s : State) : (afterRead s).ret = s.ret := by
  simp [afterRead]
@[simp] theorem afterRead_creg (s : State) : (afterRead s).creg = s.creg := by
  simp [afterRead]
@[simp] theorem afterRead_deadline (s : State) : (afterRead s).deadline = s.deadline := by
  simp [afterRead]
@[simp] theorem afterRead_attached (s : State) : (afterRead s).attached = s.attached := by
  simp [afterRead]
@[simp] theorem afterRead_moves (s : State) : (afterRead s).moves = s.moves := by
  simp [afterRead]
@[simp] theorem afterRead_deadlines (s : State) : (afterRead s).deadlines = s.deadlines := by
  simp [afterRead]
@[simp] theorem afterRead_progTimes (s : State) : (afterRead s).progTimes = s.progTimes := by
  simp [afterRead]
/-- A read has no effect on the EEPROM (R54). -/
@[simp] theorem afterRead_part (s : State) : (afterRead s).part = s.part := by
  simp [afterRead]
@[simp] theorem afterRead_history (s : State) : (afterRead s).history = .read (readValue s) :: s.history := by
  simp [afterRead]

/-! ### `takeDeadline` -/

@[simp] theorem takeDeadline_cfg (s : State) : (takeDeadline s).cfg = s.cfg := by
  unfold takeDeadline; split <;> rfl
@[simp] theorem takeDeadline_phase (s : State) : (takeDeadline s).phase = s.phase := by
  unfold takeDeadline; split <;> rfl
@[simp] theorem takeDeadline_ctl (s : State) : (takeDeadline s).ctl = s.ctl := by
  unfold takeDeadline; split <;> rfl
@[simp] theorem takeDeadline_busy (s : State) : (takeDeadline s).busy = s.busy := by
  unfold takeDeadline; split <;> rfl
@[simp] theorem takeDeadline_status (s : State) : (takeDeadline s).status = s.status := by
  unfold takeDeadline; split <;> rfl
@[simp] theorem takeDeadline_data (s : State) : (takeDeadline s).data = s.data := by
  unfold takeDeadline; split <;> rfl
@[simp] theorem takeDeadline_acc (s : State) : (takeDeadline s).acc = s.acc := by
  unfold takeDeadline; split <;> rfl
@[simp] theorem takeDeadline_stepPos (s : State) : (takeDeadline s).stepPos = s.stepPos := by
  unfold takeDeadline; split <;> rfl
@[simp] theorem takeDeadline_ret (s : State) : (takeDeadline s).ret = s.ret := by
  unfold takeDeadline; split <;> rfl
@[simp] theorem takeDeadline_creg (s : State) : (takeDeadline s).creg = s.creg := by
  unfold takeDeadline; split <;> rfl
@[simp] theorem takeDeadline_attached (s : State) : (takeDeadline s).attached = s.attached := by
  unfold takeDeadline; split <;> rfl
@[simp] theorem takeDeadline_part (s : State) : (takeDeadline s).part = s.part := by
  unfold takeDeadline; split <;> rfl
@[simp] theorem takeDeadline_moves (s : State) : (takeDeadline s).moves = s.moves := by
  unfold takeDeadline; split <;> rfl
@[simp] theorem takeDeadline_answers (s : State) : (takeDeadline s).answers = s.answers := by
  unfold takeDeadline; split <;> rfl
@[simp] theorem takeDeadline_progTimes (s : State) : (takeDeadline s).progTimes = s.progTimes := by
  unfold takeDeadline; split <;> rfl
@[simp] theorem takeDeadline_history (s : State) : (takeDeadline s).history = s.history := by
  unfold takeDeadline; split <;> rfl
@[simp] theorem takeDeadline_deadline (s : State) : (takeDeadline s).deadline = nextDeadline s := by
  unfold takeDeadline; split <;> rfl

/-! ### `drive` -/

@[simp] theorem drive_cfg (sk cs di : Option Bool) (s : State) : (drive sk cs di s).cfg = s.cfg := by
  unfold drive; split <;> simp
@[simp] theorem drive_phase (sk cs di : Option Bool) (s : State) : (drive sk cs di s).phase = s.phase := by
  unfold drive; split <;> simp
@[simp] theorem drive_busy (sk cs di : Option Bool) (s : State) : (drive sk cs di s).busy = s.busy := by
  unfold drive; split <;> simp
@[simp] theorem drive_status (sk cs di : Option Bool) (s : State) : (drive sk cs di s).status = s.status := by
  unfold drive; split <;> simp
@[simp] theorem drive_data (sk cs di : Option Bool) (s : State) : (drive sk cs di s).data = s.data := by
  unfold drive; split <;> simp
@[simp] theorem drive_acc (sk cs di : Option Bool) (s : State) : (drive sk cs di s).acc = s.acc := by
  unfold drive; split <;> simp
@[simp] theorem drive_stepPos (sk cs di : Option Bool) (s : State) : (drive sk cs di s).stepPos = s.stepPos := by
  unfold drive; split <;> simp
@[simp] theorem drive_ret (sk cs di : Option Bool) (s : State) : (drive sk cs di s).ret = s.ret := by
  unfold drive; split <;> simp
@[simp] theorem drive_deadline (sk cs di : Option Bool) (s : State) : (drive sk cs di s).deadline = s.deadline := by
  unfold drive; split <;> simp
@[simp] theorem drive_attached (sk cs di : Option Bool) (s : State) : (drive sk cs di s).attached = s.attached := by
  unfold drive; split <;> simp
@[simp] theorem drive_moves (sk cs di : Option Bool) (s : State) : (drive sk cs di s).moves = s.moves := by
  unfold drive; split <;> simp
@[simp] theorem drive_answers (sk cs di : Option Bool) (s : State) : (drive sk cs di s).answers = s.answers := by
  unfold drive; split <;> simp
@[simp] theorem drive_deadlines (sk cs di : Option Bool) (s : State) : (drive sk cs di s).deadlines = s.deadlines := by
  unfold drive; split <;> simp
@[simp] theorem drive_ctl_isSome (sk cs di : Option Bool) (s : State) : (drive sk cs di s).ctl.isSome = s.ctl.isSome := by
  unfold drive; split <;> simp [*]
theorem drive_some (sk cs di : Option Bool) (s : State) (c : Word32) (h : s.ctl = some c) :
    drive sk cs di s =
      regWrite (driveLines s.cfg c sk cs di) { s with ctl := some (driveLines s.cfg c sk cs di) } := by
  simp [drive, h]

/-! ### `framingRead` -/

@[simp] theorem framingRead_cfg (s : State) : (framingRead s).cfg = s.cfg := by
  simp [framingRead]
@[simp] theorem framingRead_phase (s : State) : (framingRead s).phase = s.phase := by
  simp [framingRead]
@[simp] theorem framingRead_ctl (s : State) : (framingRead s).ctl = s.ctl := by
  simp [framingRead]
@[simp] theorem framingRead_busy (s : State) : (framingRead s).busy = s.busy := by
  simp [framingRead]
@[simp] theorem framingRead_status (s : State) : (framingRead s).status = s.status := by
  simp [framingRead]
@[simp] theorem framingRead_data (s : State) : (framingRead s).data = s.data := by
  simp [framingRead]
@[simp] theorem framingRead_acc (s : State) : (framingRead s).acc = s.acc := by
  simp [framingRead]
@[simp] theorem framingRead_stepPos (s : State) : (framingRead s).stepPos = s.stepPos := by
  simp [framingRead]
@[simp] theorem framingRead_creg (s : State) : (framingRead s).creg = s.creg := by
  simp [framingRead]
@[simp] theorem framingRead_deadline (s : State) : (framingRead s).deadline = s.deadline := by
  simp [framingRead]
@[simp] theorem framingRead_attached (s : State) : (framingRead s).attached = s.attached := by
  simp [framingRead]
@[simp] theorem framingRead_moves (s : State) : (framingRead s).moves = s.moves := by
  simp [framingRead]
@[simp] theorem framingRead_deadlines (s : State) : (framingRead s).deadlines = s.deadlines := by
  simp [framingRead]
@[simp] theorem framingRead_progTimes (s : State) : (framingRead s).progTimes = s.progTimes := by
  simp [framingRead]
@[simp] theorem framingRead_history (s : State) : (framingRead s).history = .read (readValue s) :: s.history := by
  simp [framingRead]
@[simp] theorem framingRead_ret (s : State) :
    (framingRead s).ret = some (if doBit s.cfg (readValue s) then .protocolFraming else .ok) := rfl

/-! ### `waitBegin` -/

@[simp] theorem waitBegin_cfg (s : State) : (waitBegin s).cfg = s.cfg := by
  simp [waitBegin]
@[simp] theorem waitBegin_busy (s : State) : (waitBegin s).busy = s.busy := by
  simp [waitBegin]
@[simp] theorem waitBegin_status (s : State) : (waitBegin s).status = s.status := by
  simp [waitBegin]
@[simp] theorem waitBegin_data (s : State) : (waitBegin s).data = s.data := by
  simp [waitBegin]
@[simp] theorem waitBegin_acc (s : State) : (waitBegin s).acc = s.acc := by
  simp [waitBegin]
@[simp] theorem waitBegin_stepPos (s : State) : (waitBegin s).stepPos = s.stepPos := by
  simp [waitBegin]
@[simp] theorem waitBegin_attached (s : State) : (waitBegin s).attached = s.attached := by
  simp [waitBegin]
@[simp] theorem waitBegin_moves (s : State) : (waitBegin s).moves = s.moves := by
  simp [waitBegin]
@[simp] theorem waitBegin_answers (s : State) : (waitBegin s).answers = s.answers := by
  simp [waitBegin]
@[simp] theorem waitBegin_phase (s : State) : (waitBegin s).phase = .commandActive := rfl
@[simp] theorem waitBegin_ret (s : State) : (waitBegin s).ret = none := rfl

/-! ### `pollStep` -/

@[simp] theorem pollStep_cfg (s : State) : (pollStep s).cfg = s.cfg := by
  unfold pollStep; dsimp only; split <;> [skip; split] <;> simp
@[simp] theorem pollStep_phase (s : State) : (pollStep s).phase = s.phase := by
  unfold pollStep; dsimp only; split <;> [skip; split] <;> simp
@[simp] theorem pollStep_ctl (s : State) : (pollStep s).ctl = s.ctl := by
  unfold pollStep; dsimp only; split <;> [skip; split] <;> simp
@[simp] theorem pollStep_busy (s : State) : (pollStep s).busy = s.busy := by
  unfold pollStep; dsimp only; split <;> [skip; split] <;> simp
@[simp] theorem pollStep_status (s : State) : (pollStep s).status = s.status := by
  unfold pollStep; dsimp only; split <;> [skip; split] <;> simp
@[simp] theorem pollStep_data (s : State) : (pollStep s).data = s.data := by
  unfold pollStep; dsimp only; split <;> [skip; split] <;> simp
@[simp] theorem pollStep_acc (s : State) : (pollStep s).acc = s.acc := by
  unfold pollStep; dsimp only; split <;> [skip; split] <;> simp
@[simp] theorem pollStep_stepPos (s : State) : (pollStep s).stepPos = s.stepPos := by
  unfold pollStep; dsimp only; split <;> [skip; split] <;> simp
@[simp] theorem pollStep_creg (s : State) : (pollStep s).creg = s.creg := by
  unfold pollStep; dsimp only; split <;> [skip; split] <;> simp
@[simp] theorem pollStep_attached (s : State) : (pollStep s).attached = s.attached := by
  unfold pollStep; dsimp only; split <;> [skip; split] <;> simp
@[simp] theorem pollStep_moves (s : State) : (pollStep s).moves = s.moves := by
  unfold pollStep; dsimp only; split <;> [skip; split] <;> simp
@[simp] theorem pollStep_deadlines (s : State) : (pollStep s).deadlines = s.deadlines := by
  unfold pollStep; dsimp only; split <;> [skip; split] <;> simp
@[simp] theorem pollStep_progTimes (s : State) : (pollStep s).progTimes = s.progTimes := by
  unfold pollStep; dsimp only; split <;> [skip; split] <;> simp
@[simp] theorem pollStep_history (s : State) : (pollStep s).history = .read (readValue s) :: s.history := by
  unfold pollStep; dsimp only; split <;> [skip; split] <;> simp
@[simp] theorem pollStep_part (s : State) : (pollStep s).part = (afterRead s).part := by
  unfold pollStep; dsimp only; split <;> [skip; split] <;> rfl
@[simp] theorem pollStep_answers (s : State) : (pollStep s).answers = (afterRead s).answers := by
  unfold pollStep; dsimp only; split <;> [skip; split] <;> rfl
@[simp] theorem pollStep_draws (s : State) : (pollStep s).draws = (afterRead s).draws := by
  unfold pollStep; dsimp only; split <;> [skip; split] <;> rfl
@[simp] theorem framingRead_part (s : State) : (framingRead s).part = (afterRead s).part := rfl
@[simp] theorem framingRead_answers (s : State) : (framingRead s).answers = (afterRead s).answers := rfl
@[simp] theorem framingRead_draws (s : State) : (framingRead s).draws = (afterRead s).draws := rfl

end Sys2Proof.Machine
end

