-- ==== Sys2Proof/Laws/Lines.lean ====
section
/-! SUPPORT. Bits and lines of control-register values: what a line change does to each bit, and that a later change of a
line overwrites an earlier one. -/

namespace Sys2Proof.Machine

/-! ### Single bits -/

theorem setBit_getLsbD (v : Word32) (i : Nat) (b : Bool) (k : Nat) (hk : k < 32) :
    (setBit v i b).getLsbD k = if k = i then b else v.getLsbD k := by
  unfold setBit
  cases b <;> simp only [Bool.false_eq_true, if_false, if_true, BitVec.getLsbD_or, BitVec.getLsbD_and,
    BitVec.getLsbD_not, BitVec.getLsbD_shiftLeft, BitVec.getLsbD_one, hk]
  · by_cases h : k = i
    · subst h; simp
    · rcases Nat.lt_or_ge k i with h' | h'
      · simp [h, h']
      · have : k - i ≠ 0 := by omega
        simp [h, this]
  · by_cases h : k = i
    · subst h; simp
    · rcases Nat.lt_or_ge k i with h' | h'
      · simp [h, h']
      · have : k - i ≠ 0 := by omega
        simp [h, this]

/-! ### What an admitted configuration gives (R140) -/

/-- The conditions of R140, one field each. -/
structure Admitted (c : Config) : Prop where
  aw_ge : 2 ≤ c.aw
  aw_le : c.aw ≤ 16
  capacity : 2 ^ c.aw * 2 = c.capacity
  sk : c.wired.sk = true
  cs : c.wired.cs = true
  di : c.wired.di = true
  dout : c.wired.dout = true
  lt_sk : c.posSK < 32
  lt_cs : c.posCS < 32
  lt_di : c.posDI < 32
  lt_do : c.posDO < 32
  sk_cs : c.posSK ≠ c.posCS
  sk_di : c.posSK ≠ c.posDI
  sk_do : c.posSK ≠ c.posDO
  cs_di : c.posCS ≠ c.posDI
  cs_do : c.posCS ≠ c.posDO
  di_do : c.posDI ≠ c.posDO
  doe : c.wired.doe = true → c.posDOE < 32 ∧ c.posSK ≠ c.posDOE ∧ c.posCS ≠ c.posDOE ∧ c.posDI ≠ c.posDOE ∧
    c.posDO ≠ c.posDOE
  offset : c.ctrlOffset % 4 = 0

theorem Config.ok_iff_admitted (c : Config) : c.ok = true ↔ Admitted c := by
  constructor
  · intro h
    unfold Config.ok Config.positions at h
    cases hd : c.wired.doe <;> simp [hd] at h <;> constructor <;> simp_all
  · intro h
    obtain ⟨h1, h2, h3, h4, h5, h6, h7, h8, h9, h10, h11, h12, h13, h14, h15, h16, h17, h18, h19⟩ := h
    unfold Config.ok Config.positions
    cases hd : c.wired.doe <;> simp_all

theorem Config.admitted {c : Config} (h : c.ok = true) : Admitted c := (Config.ok_iff_admitted c).1 h

/-! ### Groups of line changes -/

/-- Each bit after a group of line changes: DOE's where it is wired, then DI's, CS's and SK's, any other as before (R14, R33,
R81). -/
theorem driveLines_getLsbD {cfg : Config} (h : cfg.ok = true) (c : Word32) (sk cs di : Option Bool) (k : Nat)
    (hk : k < 32) :
    (driveLines cfg c sk cs di).getLsbD k =
      if cfg.wired.doe = true ∧ k = cfg.posDOE then di.getD (c.getLsbD k)
      else if k = cfg.posDI then di.getD (c.getLsbD k)
      else if k = cfg.posCS then cs.getD (c.getLsbD k)
      else if k = cfg.posSK then sk.getD (c.getLsbD k)
      else c.getLsbD k := by
  have a := Config.admitted h
  have hsk := a.sk
  have hcs := a.cs
  have hdi := a.di
  have hdoe := a.doe
  have := a.sk_cs
  have := a.sk_di
  have := a.cs_di
  unfold driveLines
  rcases sk with _ | sk <;> rcases cs with _ | cs <;> rcases di with _ | di <;>
    simp only [setlOpt, setl, Config.isWired, Config.pos, hsk, hcs, hdi, if_true, Option.getD] <;>
    cases hd : cfg.wired.doe <;>
    simp only [if_true, Bool.false_eq_true, if_false, setBit_getLsbD _ _ _ _ hk, false_and, true_and] <;>
    split_ifs <;> simp_all

/-- The level of SK, CS and DI after a group of line changes. -/
theorem level_driveLines_sk {cfg : Config} (h : cfg.ok = true) (c : Word32) (sk cs di : Option Bool) :
    level cfg (driveLines cfg c sk cs di) .sk = sk.getD (level cfg c .sk) := by
  have a := Config.admitted h
  have := a.doe
  simp only [level, Config.pos, driveLines_getLsbD h c sk cs di cfg.posSK a.lt_sk]
  split_ifs <;> simp_all [a.sk_di, a.sk_cs]

theorem level_driveLines_cs {cfg : Config} (h : cfg.ok = true) (c : Word32) (sk cs di : Option Bool) :
    level cfg (driveLines cfg c sk cs di) .cs = cs.getD (level cfg c .cs) := by
  have a := Config.admitted h
  have := a.doe
  simp only [level, Config.pos, driveLines_getLsbD h c sk cs di cfg.posCS a.lt_cs]
  split_ifs <;> simp_all [a.cs_di]

theorem level_driveLines_di {cfg : Config} (h : cfg.ok = true) (c : Word32) (sk cs di : Option Bool) :
    level cfg (driveLines cfg c sk cs di) .di = di.getD (level cfg c .di) := by
  have a := Config.admitted h
  have := a.doe
  simp only [level, Config.pos, driveLines_getLsbD h c sk cs di cfg.posDI a.lt_di]
  split_ifs <;> simp_all

theorem level_driveLines_doe {cfg : Config} (h : cfg.ok = true) (hd : cfg.wired.doe = true) (c : Word32)
    (sk cs di : Option Bool) :
    level cfg (driveLines cfg c sk cs di) .doe = di.getD (level cfg c .doe) := by
  have a := Config.admitted h
  have := a.doe hd
  simp only [level, Config.pos, driveLines_getLsbD h c sk cs di cfg.posDOE this.1]
  simp [hd]

/-- A later group of line changes overwrites an earlier one line by line. -/
theorem driveLines_driveLines {cfg : Config} (h : cfg.ok = true) (c : Word32) (sk cs di sk' cs' di' : Option Bool) :
    driveLines cfg (driveLines cfg c sk cs di) sk' cs' di' =
      driveLines cfg c (sk'.or sk) (cs'.or cs) (di'.or di) := by
  refine BitVec.eq_of_getLsbD_eq fun k hk => ?_
  simp only [driveLines_getLsbD h _ _ _ _ k hk]
  split_ifs <;> cases sk' <;> cases cs' <;> cases di' <;> simp

/-- A group of line changes gives the same value from values that agree on every other bit. -/
theorem driveLines_sameOtherBits {cfg : Config} (h : cfg.ok = true) (r c : Word32) (sk cs di : Option Bool)
    (hr : sameOtherBits cfg r c) : sameOtherBits cfg r (driveLines cfg c sk cs di) := by
  have a := Config.admitted h
  intro k hk
  rw [← hr k hk]
  rcases Nat.lt_or_ge k 32 with hlt | hge
  · rw [driveLines_getLsbD h c sk cs di k hlt]
    have h1 := hk .sk (by simpa [Config.isWired] using a.sk)
    have h2 := hk .cs (by simpa [Config.isWired] using a.cs)
    have h3 := hk .di (by simpa [Config.isWired] using a.di)
    have h4 : cfg.wired.doe = true → k ≠ cfg.posDOE := fun hd => hk .doe hd
    simp only [Config.pos] at h1 h2 h3
    by_cases hd : cfg.wired.doe = true
    · simp [h1, h2, h3, h4 hd]
    · simp [h1, h2, h3, hd]
  · simp [BitVec.getLsbD_of_ge _ _ hge]

theorem sameOtherBits_refl (cfg : Config) (r : Word32) : sameOtherBits cfg r r := fun _ _ => rfl

/-- A change that sets DI leaves DOE in lockstep (R81). -/
theorem lockstep_driveLines {cfg : Config} (h : cfg.ok = true) (c : Word32) (sk cs di : Option Bool)
    (hl : di.isSome = true ∨ lockstep cfg c = true) : lockstep cfg (driveLines cfg c sk cs di) = true := by
  unfold lockstep at *
  by_cases hd : cfg.wired.doe = true
  · rw [level_driveLines_doe h hd, level_driveLines_di h]
    cases di <;> simp_all
  · simp [hd]

/-- Lowering all lines leaves them low (R98). -/
theorem linesLow_driveLines {cfg : Config} (h : cfg.ok = true) (c : Word32) :
    linesLow cfg (driveLines cfg c (some false) (some false) (some false)) = true := by
  unfold linesLow
  rw [level_driveLines_sk h, level_driveLines_cs h, level_driveLines_di h]
  by_cases hd : cfg.wired.doe = true
  · rw [level_driveLines_doe h hd]; simp
  · simp [hd]

/-! ### The spec's spelling of the groups (R82 to R85, R95) -/

theorem driveLines_start (cfg : Config) (c : Word32) :
    driveLines cfg c (some false) (some true) (some true) =
      setl cfg (setl cfg (setl cfg (setl cfg c .sk false) .cs true) .di true) .doe true := rfl

theorem driveLines_skHigh (cfg : Config) (c : Word32) : driveLines cfg c (some true) none none = setl cfg c .sk true := rfl

theorem driveLines_skLow (cfg : Config) (c : Word32) :
    driveLines cfg c (some false) none none = setl cfg c .sk false := rfl

theorem driveLines_bit (cfg : Config) (c : Word32) (b : Bool) :
    driveLines cfg c (some false) none (some b) = setl cfg (setl cfg (setl cfg c .sk false) .di b) .doe b := rfl

theorem driveLines_readMode (cfg : Config) (c : Word32) :
    driveLines cfg c none none (some true) = setl cfg (setl cfg c .di true) .doe true := rfl

theorem driveLines_reassert (cfg : Config) (c : Word32) :
    driveLines cfg c none (some true) (some true) =
      setl cfg (setl cfg (setl cfg c .cs true) .di true) .doe true := rfl

end Sys2Proof.Machine
end

