-- ==== Sys2Proof/Laws/Sequences.lean ====
section
/-! SUPPORT. What a straight-line sequence does: what it leaves alone, and one lemma each for START, clocking bits out
(PUT_BITS), GET_BITS and END that gives the shadow value, the lines and the events. -/

namespace Sys2Proof.Machine

@[simp] theorem runActs_nil (s : State) : runActs [] s = s := rfl

@[simp] theorem runActs_cons (a : Act) (as : List Act) (s : State) : runActs (a :: as) s = runActs as (runAct a s) := rfl

theorem runActs_append (as bs : List Act) (s : State) : runActs (as ++ bs) s = runActs bs (runActs as s) := by
  induction as generalizing s with
  | nil => rfl
  | cons a as ih => exact ih (runAct a s)

/-! ### What straight-line actions leave alone -/

/-- No branch and no completion: the actions of START, PUT_BITS, GET_BITS and END. -/
def Act.straight : Act → Bool
  | .loadCtl => true
  | .drive _ _ _ _ => true
  | .hold _ _ _ => true
  | .readMode => true
  | .sample => true
  | .check => false
  | .reassert => false
  | .poll => false
  | .yield => false
  | .complete _ => false
  | .completeRead => false
  | .completeRet => false

/-- Agreement on the host port, the running position, the timer and what never changes. -/
structure SamePort (s t : State) : Prop where
  cfg : t.cfg = s.cfg
  busy : t.busy = s.busy
  status : t.status = s.status
  data : t.data = s.data
  stepPos : t.stepPos = s.stepPos
  ret : t.ret = s.ret
  deadline : t.deadline = s.deadline
  deadlines : t.deadlines = s.deadlines
  attached : t.attached = s.attached
  moves : t.moves = s.moves

theorem SamePort.rfl' (s : State) : SamePort s s := by constructor <;> rfl

theorem SamePort.trans {s t u : State} (h : SamePort s t) (k : SamePort t u) : SamePort s u := by
  constructor
  · exact k.cfg.trans h.cfg
  · exact k.busy.trans h.busy
  · exact k.status.trans h.status
  · exact k.data.trans h.data
  · exact k.stepPos.trans h.stepPos
  · exact k.ret.trans h.ret
  · exact k.deadline.trans h.deadline
  · exact k.deadlines.trans h.deadlines
  · exact k.attached.trans h.attached
  · exact k.moves.trans h.moves

theorem runAct_samePort (a : Act) (s : State) (h : a.straight = true) : SamePort s (runAct a s) := by
  cases a <;> simp [Act.straight] at h <;> constructor <;> simp [runAct]

theorem runActs_samePort (as : List Act) (s : State) (h : ∀ a ∈ as, a.straight = true) : SamePort s (runActs as s) := by
  induction as generalizing s with
  | nil => exact SamePort.rfl' s
  | cons a as ih =>
    exact (runAct_samePort a s (h a (by simp))).trans (ih _ fun b hb => h b (by simp [hb]))

/-- No phase change. -/
def Act.keepsPhase : Act → Bool
  | .hold _ _ next => next.isNone
  | .drive _ _ _ _ => true
  | .readMode => true
  | .sample => true
  | _ => false

theorem runActs_phase (as : List Act) (s : State) (h : ∀ a ∈ as, a.keepsPhase = true) :
    (runActs as s).phase = s.phase := by
  induction as generalizing s with
  | nil => rfl
  | cons a as ih =>
    rw [runActs_cons, ih _ fun b hb => h b (by simp [hb])]
    have := h a (by simp)
    cases a <;> simp_all [Act.keepsPhase, runAct]

/-- No read and no accumulator: the actions of PUT_BITS and END. -/
def Act.writesOnly : Act → Bool
  | .hold _ _ _ => true
  | .drive _ _ _ _ => true
  | _ => false

theorem runActs_writesOnly (as : List Act) (s : State) (h : ∀ a ∈ as, a.writesOnly = true) :
    (runActs as s).acc = s.acc ∧ (runActs as s).answers = s.answers := by
  induction as generalizing s with
  | nil => exact ⟨rfl, rfl⟩
  | cons a as ih =>
    have ha := h a (by simp)
    obtain ⟨h1, h2⟩ := ih (runAct a s) fun b hb => h b (by simp [hb])
    rw [runActs_cons, h1, h2]
    cases a <;> simp_all [Act.writesOnly, runAct]

theorem getActs_kinds (n : Nat) : ∀ a ∈ getActs n, a.straight = true ∧ a.keepsPhase = true := by
  intro a ha
  rcases List.mem_cons.1 ha with rfl | ha
  · simp [Act.straight, Act.keepsPhase]
  · induction n with
    | zero => simp [samplesActs] at ha
    | succ n ih =>
      rcases List.mem_append.1 ha with ha | ha
      · simp only [sampleActs, List.mem_cons, List.not_mem_nil, or_false] at ha
        rcases ha with rfl | rfl | rfl | rfl | rfl <;> simp [Act.straight, Act.keepsPhase]
      · exact ih (by simp [getActs, ha]) ha

theorem startActs_straight : ∀ a ∈ startActs, a.straight = true := by
  simp [startActs, Act.straight]

theorem endActs_straight : ∀ a ∈ endActs, a.straight = true := by
  simp [endActs, Act.straight]

/-! ### START -/

/-- START's first written value (R82, write S1). -/
def startLow (cfg : Config) (r : Word32) : Word32 := driveLines cfg r (some false) (some true) (some true)

/-- START's second written value (R82, write S2). -/
def startHigh (cfg : Config) (r : Word32) : Word32 := driveLines cfg r (some true) (some true) (some true)

theorem runActs_start (s : State) (h : s.cfg.ok = true) :
    (runActs startActs s).ctl = some (startHigh s.cfg (readValue s)) ∧
    (runActs startActs s).creg = startHigh s.cfg (readValue s) ∧
    (runActs startActs s).phase = .commandActive ∧
    (runActs startActs s).acc = s.acc ∧
    (runActs startActs s).answers = (takeAnswer s).answers ∧
    (runActs startActs s).history =
      .delay 2 :: .write (startHigh s.cfg (readValue s)) :: .delay 2 :: .write (startLow s.cfg (readValue s)) ::
        .read (readValue s) :: s.history := by
  have hh : driveLines s.cfg (startLow s.cfg (readValue s)) (some true) none none = startHigh s.cfg (readValue s) := by
    simp [startLow, startHigh, driveLines_driveLines h]
  have ha : (afterRead s).answers = (takeAnswer s).answers := by
    simp only [afterRead]
    unfold takeAnswer; simp only [record_answers]; split <;> rfl
  simp only [startActs, runActs_cons, runActs_nil, runAct]
  rw [drive_some (some false) (some true) (some true) (c := readValue s) (h := by simp)]
  rw [drive_some (some true) none none (c := startLow s.cfg (readValue s)) (h := by simp [startLow])]
  unfold startLow at hh
  simp [hh, ha, startLow, Hold.micros, Config.tSettle]

/-! ### PUT_BITS -/

/-- The events of one bit of PUT_BITS (R83). -/
def bitEvents (cfg : Config) (c : Word32) (b : Bool) : List Event :=
  [.write (driveLines cfg c (some false) none (some b)), .delay 2,
   .write (driveLines cfg c (some true) none (some b)), .delay 2]

theorem bitEvents_after {cfg : Config} (h : cfg.ok = true) (c : Word32) (b b' : Bool) :
    bitEvents cfg (driveLines cfg c (some true) none (some b')) b = bitEvents cfg c b := by
  simp [bitEvents, driveLines_driveLines h]

theorem runActs_bit (s : State) (h : s.cfg.ok = true) (c : Word32) (hc : s.ctl = some c) (b : Bool) :
    (runActs (bitActs b) s).ctl = some (driveLines s.cfg c (some true) none (some b)) ∧
    (runActs (bitActs b) s).creg = driveLines s.cfg c (some true) none (some b) ∧
    (runActs (bitActs b) s).history = (bitEvents s.cfg c b).reverse ++ s.history ∧
    (runActs (bitActs b) s).cfg = s.cfg := by
  simp only [bitActs, runActs_cons, runActs_nil, runAct]
  rw [drive_some (c := c) (h := hc)]
  rw [drive_some (c := driveLines s.cfg c (some false) none (some b)) (h := by simp)]
  simp [driveLines_driveLines h, bitEvents, Hold.micros, Config.tHold]

/-- The actions that clock a list of bits out (R63). -/
def clockActs (bits : List Bool) : List Act := bits.flatMap bitActs

theorem putActs_eq_clockActs (v : Word32) (n : Nat) : putActs v n = clockActs (msbBits v n) := by
  induction n with
  | zero => rfl
  | succ n ih => simp [putActs, msbBits, clockActs, ih]

theorem clockActs_append (as bs : List Bool) : clockActs (as ++ bs) = clockActs as ++ clockActs bs := by
  simp [clockActs]

theorem clockActs_kinds (bits : List Bool) :
    ∀ a ∈ clockActs bits, a.straight = true ∧ a.keepsPhase = true ∧ a.writesOnly = true := by
  intro a ha
  obtain ⟨b, -, hb⟩ := List.mem_flatMap.1 ha
  simp only [bitActs, List.mem_cons, List.not_mem_nil, or_false] at hb
  rcases hb with rfl | rfl | rfl | rfl <;> simp [Act.straight, Act.keepsPhase, Act.writesOnly]

/-- The lines once some bits are clocked out. -/
def clockedValue (cfg : Config) (c : Word32) (bits : List Bool) : Word32 :=
  match bits.getLast? with
  | none => c
  | some b => driveLines cfg c (some true) none (some b)

theorem clockedValue_cons {cfg : Config} (h : cfg.ok = true) (c : Word32) (b : Bool) (bits : List Bool) :
    clockedValue cfg (driveLines cfg c (some true) none (some b)) bits = clockedValue cfg c (b :: bits) := by
  cases bits with
  | nil => rfl
  | cons d ds => simp [clockedValue, List.getLast?_cons, driveLines_driveLines h]

/-- Clocking a list of bits out (R63, R83). -/
theorem runActs_clock (bits : List Bool) (s : State) (h : s.cfg.ok = true) (c : Word32) (hc : s.ctl = some c) :
    (runActs (clockActs bits) s).ctl = some (clockedValue s.cfg c bits) ∧
    (runActs (clockActs bits) s).creg = (if bits = [] then s.creg else clockedValue s.cfg c bits) ∧
    (runActs (clockActs bits) s).history = (bits.flatMap (bitEvents s.cfg c)).reverse ++ s.history := by
  induction bits generalizing s c with
  | nil => simp [clockActs, clockedValue, hc]
  | cons b bits ih =>
    obtain ⟨h1, h2, h3, h4⟩ := runActs_bit s h c hc b
    obtain ⟨i1, i2, i3⟩ := ih (runActs (bitActs b) s) (by rw [h4]; exact h) _ h1
    have e : runActs (clockActs (b :: bits)) s = runActs (clockActs bits) (runActs (bitActs b) s) := by
      simp [clockActs, runActs_append]
    have he : bitEvents s.cfg (driveLines s.cfg c (some true) none (some b)) = bitEvents s.cfg c :=
      funext fun d => bitEvents_after h c d b
    rw [e, i1, i2, i3, h2, h3, h4, clockedValue_cons h, he]
    refine ⟨rfl, ?_, by simp⟩
    cases bits <;> simp [clockedValue]

/-! ### GET_BITS -/

/-- GET_BITS' read-mode value (R84). -/
def readModeValue (cfg : Config) (c : Word32) : Word32 := driveLines cfg c none none (some true)

/-- The events of one sample of GET_BITS (R84). -/
def sampleEvents (cfg : Config) (m : Word32) (r : Word32) : List Event :=
  [.write (driveLines cfg m (some false) none none), .delay 2,
   .write (driveLines cfg m (some true) none none), .delay 3, .read r]

/-- The accumulator after more samples (R84). -/
def accAfter (cfg : Config) (acc : Word32) (samples : List Word32) : Word32 :=
  samples.foldl (fun a r => accumulate a (doBit cfg r)) acc

/-- What one sample reads: the value RegRead32 returns once SK is high. -/
def sampleState (s : State) : State :=
  runActs [.drive .commandActive (some false) none none, .hold .commandActive .plain none,
    .drive .commandActive (some true) none none, .hold .commandActive .readHold none] s

theorem runActs_sample (s : State) (h : s.cfg.ok = true) (c a : Word32) (hc : s.ctl = some c) (ha : s.acc = some a) :
    (runActs sampleActs s).ctl = some (driveLines s.cfg c (some true) none none) ∧
    (runActs sampleActs s).creg = driveLines s.cfg c (some true) none none ∧
    (runActs sampleActs s).acc = some (accumulate a (doBit s.cfg (readValue (sampleState s)))) ∧
    (runActs sampleActs s).history = (sampleEvents s.cfg c (readValue (sampleState s))).reverse ++ s.history ∧
    (runActs sampleActs s).cfg = s.cfg := by
  have e : runActs sampleActs s = runAct .sample (sampleState s) := rfl
  have k1 : (sampleState s).ctl = some (driveLines s.cfg c (some true) none none) ∧
      (sampleState s).creg = driveLines s.cfg c (some true) none none ∧ (sampleState s).acc = some a ∧
      (sampleState s).cfg = s.cfg ∧
      (sampleState s).history = .delay 3 :: .write (driveLines s.cfg c (some true) none none) :: .delay 2 ::
        .write (driveLines s.cfg c (some false) none none) :: s.history := by
    simp only [sampleState, runActs_cons, runActs_nil, runAct]
    rw [drive_some (c := c) (h := hc)]
    rw [drive_some (c := driveLines s.cfg c (some false) none none) (h := by simp)]
    simp [driveLines_driveLines h, Hold.micros, Config.tHold, Config.tReadHold, ha]
  obtain ⟨k1, k2, k3, k4, k5⟩ := k1
  rw [e]
  simp [runAct, k1, k2, k3, k4, k5, sampleEvents]

theorem runActs_samples (n : Nat) (s : State) (h : s.cfg.ok = true) (c a : Word32) (hc : s.ctl = some c)
    (ha : s.acc = some a) :
    ∃ rs : List Word32, rs.length = n ∧
      (runActs (samplesActs n) s).ctl = some (if n = 0 then c else driveLines s.cfg c (some true) none none) ∧
      (runActs (samplesActs n) s).creg = (if n = 0 then s.creg else driveLines s.cfg c (some true) none none) ∧
      (runActs (samplesActs n) s).acc = some (accAfter s.cfg a rs) ∧
      (runActs (samplesActs n) s).history = (rs.flatMap (sampleEvents s.cfg c)).reverse ++ s.history := by
  induction n generalizing s c a with
  | zero => exact ⟨[], by simp [samplesActs, accAfter, hc, ha]⟩
  | succ n ih =>
    obtain ⟨h1, h2, h3, h4, h5⟩ := runActs_sample s h c a hc ha
    obtain ⟨rs, i0, i1, i2, i3, i4⟩ := ih (runActs sampleActs s) (by rw [h5]; exact h) _ _ h1 h3
    refine ⟨readValue (sampleState s) :: rs, by simp [i0], ?_⟩
    have he : ∀ r, sampleEvents s.cfg (driveLines s.cfg c (some true) none none) r = sampleEvents s.cfg c r := by
      intro r; simp [sampleEvents, driveLines_driveLines h]
    have he' : sampleEvents s.cfg (driveLines s.cfg c (some true) none none) = sampleEvents s.cfg c := funext he
    simp only [samplesActs, runActs_append, List.flatMap_cons, List.reverse_append, List.append_assoc]
    rw [i1, i2, i3, i4, h2, h4, h5, he']
    refine ⟨?_, ?_, rfl, rfl⟩ <;> split <;> simp [driveLines_driveLines h]

/-- GET_BITS (R84). -/
theorem runActs_get (n : Nat) (s : State) (h : s.cfg.ok = true) (c : Word32) (hc : s.ctl = some c) :
    ∃ rs : List Word32, rs.length = n ∧
      (runActs (getActs n) s).ctl =
        some (if n = 0 then readModeValue s.cfg c else driveLines s.cfg (readModeValue s.cfg c) (some true) none none) ∧
      (runActs (getActs n) s).creg =
        (if n = 0 then readModeValue s.cfg c else driveLines s.cfg (readModeValue s.cfg c) (some true) none none) ∧
      (runActs (getActs n) s).acc = some (accAfter s.cfg 0 rs) ∧
      (runActs (getActs n) s).history =
        (rs.flatMap (sampleEvents s.cfg (readModeValue s.cfg c))).reverse ++
          .write (readModeValue s.cfg c) :: s.history := by
  have e : runActs (getActs n) s = runActs (samplesActs n) (runAct .readMode s) := rfl
  obtain ⟨rs, i0, i1, i2, i3, i4⟩ := runActs_samples n (runAct .readMode s) (by simp [runAct, h])
    (readModeValue s.cfg c) 0 (by simp only [runAct]; rw [drive_some (c := c) (h := hc)]; simp [readModeValue])
    (by simp [runAct])
  rw [e]
  refine ⟨rs, i0, ?_, ?_, ?_, ?_⟩
  · rw [i1]; simp [runAct]
  · rw [i2]; simp only [runAct]; rw [drive_some (c := c) (h := hc)]; simp [readModeValue]
  · rw [i3]; simp [runAct]
  · rw [i4]; simp only [runAct]; rw [drive_some (c := c) (h := hc)]; simp [readModeValue]

/-! ### END -/

/-- END's written value (R85). -/
def endValue (cfg : Config) (c : Word32) : Word32 := driveLines cfg c (some false) (some false) (some false)

/-- END (R85). -/
theorem runActs_end (s : State) (c : Word32) (hc : s.ctl = some c) :
    (runActs endActs s).ctl = some (endValue s.cfg c) ∧ (runActs endActs s).creg = endValue s.cfg c ∧
    (runActs endActs s).phase = .idle ∧ (runActs endActs s).acc = s.acc ∧
    (runActs endActs s).answers = s.answers ∧
    (runActs endActs s).history = .delay 2 :: .write (endValue s.cfg c) :: s.history := by
  simp only [endActs, runActs_cons, runActs_nil, runAct]
  rw [drive_some (c := c) (h := hc)]
  simp [endValue, Hold.micros, Config.tHold]

/-! ### Whole frames that only write -/

/-- The actions of a frame whose bits after the start bit are given (R62). -/
def frameActs (bits : List Bool) : List Act := startActs ++ clockActs bits ++ endActs

theorem writeActs_eq (aw : Nat) (a v : Word16) :
    writeActs aw a v = frameActs ([false, true] ++ msbBits (addrField a) aw ++ msbBits (dataField v) 16) := by
  have e : msbBits opWrite 2 = [false, true] := by decide
  simp only [writeActs, frameActs, putActs_eq_clockActs, clockActs_append, e, List.append_assoc]

theorem msbBits_zero (n : Nat) : msbBits (0 : Word32) n = List.replicate n false := by
  induction n with
  | zero => rfl
  | succ n ih =>
    rw [msbBits, ih, List.replicate_succ]
    congr 1
    simp

theorem ewenActs_eq (aw : Nat) :
    ewenActs aw = frameActs ([false, false, true, true] ++ List.replicate (aw - 2) false) := by
  have e : msbBits opEwen 4 = [false, false, true, true] := by decide
  simp only [ewenActs, frameActs, putActs_eq_clockActs, clockActs_append, e, msbBits_zero, List.append_assoc]

theorem ewdsActs_eq (aw : Nat) :
    ewdsActs aw = frameActs ([false, false, false, false] ++ List.replicate (aw + 2) false) := by
  have e : msbBits opEwds 4 = [false, false, false, false] := by decide
  simp only [ewdsActs, frameActs, putActs_eq_clockActs, clockActs_append, e, msbBits_zero, List.append_assoc]

theorem readHeadActs_eq (aw : Nat) (a : Word16) :
    readHeadActs aw a = startActs ++ clockActs ([true, false] ++ msbBits (addrField a) aw) := by
  have e : msbBits opRead 2 = [true, false] := by decide
  simp only [readHeadActs, putActs_eq_clockActs, clockActs_append, e, List.append_assoc]

theorem frameActs_straight (bits : List Bool) : ∀ a ∈ frameActs bits, a.straight = true := by
  intro a ha
  rcases List.mem_append.1 ha with ha | ha
  · rcases List.mem_append.1 ha with ha | ha
    · exact startActs_straight a ha
    · exact (clockActs_kinds bits a ha).1
  · exact endActs_straight a ha

/-- START's events (R82). -/
def startEvents (cfg : Config) (r : Word32) : List Event :=
  [.read r, .write (startLow cfg r), .delay 2, .write (startHigh cfg r), .delay 2]

/-- START, then bits clocked out: the head of every frame. -/
theorem runActs_head (bits : List Bool) (s : State) (h : s.cfg.ok = true) :
    (runActs (startActs ++ clockActs bits) s).ctl =
      some (clockedValue s.cfg (startHigh s.cfg (readValue s)) bits) ∧
    (runActs (startActs ++ clockActs bits) s).creg = clockedValue s.cfg (startHigh s.cfg (readValue s)) bits ∧
    (runActs (startActs ++ clockActs bits) s).phase = .commandActive ∧
    (runActs (startActs ++ clockActs bits) s).acc = s.acc ∧
    (runActs (startActs ++ clockActs bits) s).answers = (takeAnswer s).answers ∧
    (runActs (startActs ++ clockActs bits) s).history =
      (startEvents s.cfg (readValue s) ++
        bits.flatMap (bitEvents s.cfg (startHigh s.cfg (readValue s)))).reverse ++ s.history := by
  obtain ⟨h1, h2, h3, h4, h5, h6⟩ := runActs_start s h
  have hcfg := (runActs_samePort startActs s startActs_straight).cfg
  obtain ⟨i1, i2, i3⟩ := runActs_clock bits (runActs startActs s) (by rw [hcfg]; exact h) _ h1
  obtain ⟨j1, j2⟩ := runActs_writesOnly (clockActs bits) (runActs startActs s) fun a ha => (clockActs_kinds bits a ha).2.2
  have j3 := runActs_phase (clockActs bits) (runActs startActs s) fun a ha => (clockActs_kinds bits a ha).2.1
  rw [runActs_append]
  refine ⟨by rw [i1, hcfg], ?_, by rw [j3, h3], by rw [j1, h4], by rw [j2, h5], ?_⟩
  · rw [i2, hcfg, h2]
    split
    · rename_i e; subst e; rfl
    · rfl
  · rw [i3, hcfg, h6]
    simp [startEvents]

theorem endValue_clockedValue {cfg : Config} (h : cfg.ok = true) (r : Word32) (bits : List Bool) :
    endValue cfg (clockedValue cfg (startHigh cfg r) bits) = endValue cfg r := by
  unfold clockedValue
  split <;> simp [endValue, startHigh, driveLines_driveLines h]

theorem clockedValue_lines {cfg : Config} (h : cfg.ok = true) (r : Word32) (bits : List Bool) :
    level cfg (clockedValue cfg (startHigh cfg r) bits) .sk = true ∧
    level cfg (clockedValue cfg (startHigh cfg r) bits) .cs = true ∧
    sameOtherBits cfg r (clockedValue cfg (startHigh cfg r) bits) ∧
    lockstep cfg (clockedValue cfg (startHigh cfg r) bits) = true := by
  unfold clockedValue startHigh
  split
  · exact ⟨by rw [level_driveLines_sk h]; rfl, by rw [level_driveLines_cs h]; rfl,
      driveLines_sameOtherBits h _ _ _ _ _ (sameOtherBits_refl cfg r), lockstep_driveLines h _ _ _ _ (.inl rfl)⟩
  · rw [driveLines_driveLines h]
    exact ⟨by rw [level_driveLines_sk h]; rfl, by rw [level_driveLines_cs h]; rfl,
      driveLines_sameOtherBits h _ _ _ _ _ (sameOtherBits_refl cfg r), lockstep_driveLines h _ _ _ _ (.inl rfl)⟩

/-- A whole frame that only writes (R66 to R68). -/
theorem runActs_frame (bits : List Bool) (s : State) (h : s.cfg.ok = true) :
    (runActs (frameActs bits) s).ctl = some (endValue s.cfg (readValue s)) ∧
    (runActs (frameActs bits) s).creg = endValue s.cfg (readValue s) ∧
    (runActs (frameActs bits) s).phase = .idle ∧
    (runActs (frameActs bits) s).acc = s.acc ∧
    (runActs (frameActs bits) s).answers = (takeAnswer s).answers ∧
    (runActs (frameActs bits) s).history =
      (startEvents s.cfg (readValue s) ++
        (bits.flatMap (bitEvents s.cfg (startHigh s.cfg (readValue s))) ++
          [Event.write (endValue s.cfg (readValue s)), Event.delay 2])).reverse ++ s.history := by
  obtain ⟨h1, -, -, h4, h5, h6⟩ := runActs_head bits s h
  have hs : ∀ a ∈ startActs ++ clockActs bits, a.straight = true := by
    intro a ha
    rcases List.mem_append.1 ha with ha | ha
    · exact startActs_straight a ha
    · exact (clockActs_kinds bits a ha).1
  have hcfg := (runActs_samePort _ s hs).cfg
  obtain ⟨i1, i2, i3, i4, i5, i6⟩ := runActs_end _ _ h1
  have e : runActs (frameActs bits) s = runActs endActs (runActs (startActs ++ clockActs bits) s) := by
    rw [frameActs, runActs_append]
  rw [e, i1, i2, i3, i4, i5, i6, hcfg, h4, h5, h6, endValue_clockedValue h]
  simp

end Sys2Proof.Machine
end

