-- ==== Sys2Proof/Laws/Events.lean ====
section
/-! SUPPORT. Counting and reading the events of a sequence: accesses, delays, yields, the bits clocked, and the accumulated
samples as a number. -/

namespace Sys2Proof.Machine

/-! ### The readers are additive -/

@[simp] theorem writesOf_append (as bs : List Event) : writesOf (as ++ bs) = writesOf as ++ writesOf bs := by
  induction as with
  | nil => rfl
  | cons a as ih => cases a <;> simp [writesOf, ih]

@[simp] theorem readsOf_append (as bs : List Event) : readsOf (as ++ bs) = readsOf as ++ readsOf bs := by
  induction as with
  | nil => rfl
  | cons a as ih => cases a <;> simp [readsOf, ih]

@[simp] theorem busyWait_append (as bs : List Event) : busyWait (as ++ bs) = busyWait as + busyWait bs := by
  induction as with
  | nil => simp [busyWait]
  | cons a as ih => cases a <;> simp [busyWait, ih, Nat.add_assoc]

@[simp] theorem yieldsOf_append (as bs : List Event) : yieldsOf (as ++ bs) = yieldsOf as + yieldsOf bs := by
  induction as with
  | nil => simp [yieldsOf]
  | cons a as ih => cases a <;> simp [yieldsOf, ih]; omega

/-- The events added between two states are unique. -/
theorem Added.unique {s t : State} {es fs : List Event} (h : Added s t es) (k : Added s t fs) : es = fs := by
  unfold Added at h k
  rw [h] at k
  simpa using k

/-! ### The events of bits and samples -/

theorem writesOf_bits (cfg : Config) (c : Word32) (bits : List Bool) :
    writesOf (bits.flatMap (bitEvents cfg c)) =
      bits.flatMap fun b => [driveLines cfg c (some false) none (some b), driveLines cfg c (some true) none (some b)] := by
  induction bits with
  | nil => rfl
  | cons b bs ih => simp [bitEvents, writesOf, ih]

theorem counts_bits (cfg : Config) (c : Word32) (bits : List Bool) :
    (writesOf (bits.flatMap (bitEvents cfg c))).length = 2 * bits.length ∧
    readsOf (bits.flatMap (bitEvents cfg c)) = [] ∧
    busyWait (bits.flatMap (bitEvents cfg c)) = 4 * bits.length ∧
    yieldsOf (bits.flatMap (bitEvents cfg c)) = 0 := by
  induction bits with
  | nil => simp [writesOf, readsOf, busyWait, yieldsOf]
  | cons b bs ih =>
    obtain ⟨h1, h2, h3, h4⟩ := ih
    simp [bitEvents, writesOf, readsOf, busyWait, yieldsOf, h1, h2, h3, h4]
    omega

theorem writesOf_samples (cfg : Config) (m : Word32) (rs : List Word32) :
    writesOf (rs.flatMap (sampleEvents cfg m)) =
      rs.flatMap fun _ => [driveLines cfg m (some false) none none, driveLines cfg m (some true) none none] := by
  induction rs with
  | nil => rfl
  | cons b bs ih => simp [sampleEvents, writesOf, ih]

theorem counts_samples (cfg : Config) (m : Word32) (rs : List Word32) :
    (writesOf (rs.flatMap (sampleEvents cfg m))).length = 2 * rs.length ∧
    readsOf (rs.flatMap (sampleEvents cfg m)) = rs ∧
    busyWait (rs.flatMap (sampleEvents cfg m)) = 5 * rs.length ∧
    yieldsOf (rs.flatMap (sampleEvents cfg m)) = 0 := by
  induction rs with
  | nil => simp [writesOf, readsOf, busyWait, yieldsOf]
  | cons b bs ih =>
    obtain ⟨h1, h2, h3, h4⟩ := ih
    simp [sampleEvents, writesOf, readsOf, busyWait, yieldsOf, h1, h2, h3, h4]
    omega

/-! ### The bits clocked (R63) -/

theorem clockedBits_low (cfg : Config) (prev v : Word32) (vs : List Word32) (h : level cfg v .sk = false) :
    clockedBits cfg prev (v :: vs) = clockedBits cfg v vs := by
  simp [clockedBits, h]

/-- Only the level of SK of the first lines matters. -/
theorem clockedBits_congr (cfg : Config) (p q : Word32) (vs : List Word32) (h : level cfg p .sk = level cfg q .sk) :
    clockedBits cfg p vs = clockedBits cfg q vs := by
  cases vs with
  | nil => rfl
  | cons v vs => simp [clockedBits, h]

/-- A bit clocked out with CS high is clocked in by the part. -/
theorem clockedBits_bits {cfg : Config} (h : cfg.ok = true) (c : Word32) (hcs : level cfg c .cs = true)
    (bits : List Bool) (prev : Word32) (hp : level cfg prev .sk = true) (vs : List Word32) :
    clockedBits cfg prev ((bits.flatMap fun b =>
      [driveLines cfg c (some false) none (some b), driveLines cfg c (some true) none (some b)]) ++ vs) =
      bits ++ clockedBits cfg prev vs := by
  induction bits generalizing prev with
  | nil => rfl
  | cons b bs ih =>
    have l1 : level cfg (driveLines cfg c (some false) none (some b)) .sk = false := by
      rw [level_driveLines_sk h]; rfl
    have l2 : level cfg (driveLines cfg c (some true) none (some b)) .sk = true := by
      rw [level_driveLines_sk h]; rfl
    have l3 : level cfg (driveLines cfg c (some true) none (some b)) .cs = true := by
      rw [level_driveLines_cs h]; simpa using hcs
    have l4 : level cfg (driveLines cfg c (some true) none (some b)) .di = b := by
      rw [level_driveLines_di h]; rfl
    simp only [List.flatMap_cons, List.cons_append, List.nil_append]
    rw [clockedBits_low _ _ _ _ l1]
    simp only [clockedBits, l1, l2, l3, l4, Bool.not_false, Bool.and_true, if_true]
    rw [ih _ l2, clockedBits_congr cfg _ prev vs (by rw [l2, hp])]

theorem clockedBits_samples {cfg : Config} (h : cfg.ok = true) (m : Word32) (hcs : level cfg m .cs = true)
    (hdi : level cfg m .di = true) (rs : List Word32) (prev : Word32) (hp : level cfg prev .sk = true)
    (vs : List Word32) :
    clockedBits cfg prev ((rs.flatMap fun _ =>
      [driveLines cfg m (some false) none none, driveLines cfg m (some true) none none]) ++ vs) =
      List.replicate rs.length true ++ clockedBits cfg prev vs := by
  induction rs generalizing prev with
  | nil => rfl
  | cons r rs ih =>
    have l1 : level cfg (driveLines cfg m (some false) none none) .sk = false := by
      rw [level_driveLines_sk h]; rfl
    have l2 : level cfg (driveLines cfg m (some true) none none) .sk = true := by
      rw [level_driveLines_sk h]; rfl
    have l3 : level cfg (driveLines cfg m (some true) none none) .cs = true := by
      rw [level_driveLines_cs h]; simpa using hcs
    have l4 : level cfg (driveLines cfg m (some true) none none) .di = true := by
      rw [level_driveLines_di h]; simpa using hdi
    simp only [List.flatMap_cons, List.cons_append, List.nil_append, List.length_cons,
      List.replicate_succ]
    rw [clockedBits_low _ _ _ _ l1]
    simp only [clockedBits, l1, l2, l3, l4, Bool.not_false, Bool.and_true, if_true]
    rw [ih _ l2, clockedBits_congr cfg _ prev vs (by rw [l2, hp])]

/-! ### Samples as a number (R45, R84) -/

theorem bitsToNat_append_single (bits : List Bool) (b : Bool) :
    bitsToNat (bits ++ [b]) = 2 * bitsToNat bits + b.toNat := by
  simp [bitsToNat]

theorem bitsToNat_lt (bits : List Bool) : bitsToNat bits < 2 ^ bits.length := by
  induction bits using List.reverseRecOn with
  | nil => simp [bitsToNat]
  | append_singleton bits b ih =>
    rw [bitsToNat_append_single, List.length_append, List.length_singleton, Nat.pow_succ]
    have : b.toNat ≤ 1 := Bool.toNat_le b
    omega

theorem accumulate_toNat (a : Word32) (b : Bool) (h : 2 * a.toNat < 2 ^ 32) :
    (accumulate a b).toNat = 2 * a.toNat + b.toNat := by
  have hb : b.toNat < 2 ^ 1 := by cases b <;> decide
  have e : (accumulate a b).toNat = 2 ^ 1 * a.toNat ||| b.toNat := by
    unfold accumulate
    rw [BitVec.toNat_or, BitVec.toNat_shiftLeft, Nat.shiftLeft_eq, Nat.mod_eq_of_lt (by omega), Nat.mul_comm]
    congr 1
    cases b <;> rfl
  rw [e, ← Nat.two_pow_add_eq_or_of_lt hb]

theorem accAfter_toNat (cfg : Config) (rs : List Word32) (h : rs.length ≤ 32) :
    (accAfter cfg 0 rs).toNat = sampledWord cfg rs := by
  induction rs using List.reverseRecOn with
  | nil => rfl
  | append_singleton rs r ih =>
    have hl : rs.length ≤ 31 := by simp at h; omega
    have i := ih (by omega)
    have hlt := bitsToNat_lt (rs.map (doBit cfg))
    have hp : 2 ^ (rs.map (doBit cfg)).length ≤ 2 ^ 31 :=
      Nat.pow_le_pow_right (by omega) (by simpa using hl)
    have e : accAfter cfg 0 (rs ++ [r]) = accumulate (accAfter cfg 0 rs) (doBit cfg r) := by simp [accAfter]
    have e' : sampledWord cfg (rs ++ [r]) = 2 * sampledWord cfg rs + (doBit cfg r).toNat := by
      simp [sampledWord, bitsToNat_append_single]
    unfold sampledWord at i e'
    rw [e, accumulate_toNat _ _ (by omega), i]
    unfold sampledWord
    rw [e']

/-- READ_WORD's result is its 16 samples (R90, R100). -/
theorem readResult_toNat (cfg : Config) (rs : List Word32) (h : rs.length = 16) :
    (readResult (accAfter cfg 0 rs)).toNat = sampledWord cfg rs := by
  have e := accAfter_toNat cfg rs (by omega)
  have hlt := bitsToNat_lt (rs.map (doBit cfg))
  rw [List.length_map, h] at hlt
  unfold sampledWord at *
  unfold readResult
  simp only [BitVec.toNat_setWidth, e]
  omega

end Sys2Proof.Machine
end

