-- ==== Sys2Proof/Laws/Wait.lean ====
section
/-! SUPPORT. What the poll loop and WAIT do (R95 to R97). -/

namespace Sys2Proof.Machine

/-! ### What polling leaves alone -/

@[simp] theorem pollLoop_cfg (n : Nat) (s : State) : (pollLoop n s).cfg = s.cfg := by
  induction n generalizing s with
  | zero => simp [pollLoop]
  | succ n ih => unfold pollLoop; dsimp only; split <;> simp [runAct, ih]
@[simp] theorem pollLoop_phase (n : Nat) (s : State) : (pollLoop n s).phase = s.phase := by
  induction n generalizing s with
  | zero => simp [pollLoop]
  | succ n ih => unfold pollLoop; dsimp only; split <;> simp [runAct, ih]
@[simp] theorem pollLoop_ctl (n : Nat) (s : State) : (pollLoop n s).ctl = s.ctl := by
  induction n generalizing s with
  | zero => simp [pollLoop]
  | succ n ih => unfold pollLoop; dsimp only; split <;> simp [runAct, ih]
@[simp] theorem pollLoop_busy (n : Nat) (s : State) : (pollLoop n s).busy = s.busy := by
  induction n generalizing s with
  | zero => simp [pollLoop]
  | succ n ih => unfold pollLoop; dsimp only; split <;> simp [runAct, ih]
@[simp] theorem pollLoop_status (n : Nat) (s : State) : (pollLoop n s).status = s.status := by
  induction n generalizing s with
  | zero => simp [pollLoop]
  | succ n ih => unfold pollLoop; dsimp only; split <;> simp [runAct, ih]
@[simp] theorem pollLoop_data (n : Nat) (s : State) : (pollLoop n s).data = s.data := by
  induction n generalizing s with
  | zero => simp [pollLoop]
  | succ n ih => unfold pollLoop; dsimp only; split <;> simp [runAct, ih]
@[simp] theorem pollLoop_acc (n : Nat) (s : State) : (pollLoop n s).acc = s.acc := by
  induction n generalizing s with
  | zero => simp [pollLoop]
  | succ n ih => unfold pollLoop; dsimp only; split <;> simp [runAct, ih]
@[simp] theorem pollLoop_stepPos (n : Nat) (s : State) : (pollLoop n s).stepPos = s.stepPos := by
  induction n generalizing s with
  | zero => simp [pollLoop]
  | succ n ih => unfold pollLoop; dsimp only; split <;> simp [runAct, ih]
@[simp] theorem pollLoop_creg (n : Nat) (s : State) : (pollLoop n s).creg = s.creg := by
  induction n generalizing s with
  | zero => simp [pollLoop]
  | succ n ih => unfold pollLoop; dsimp only; split <;> simp [runAct, ih]
@[simp] theorem pollLoop_attached (n : Nat) (s : State) : (pollLoop n s).attached = s.attached := by
  induction n generalizing s with
  | zero => simp [pollLoop]
  | succ n ih => unfold pollLoop; dsimp only; split <;> simp [runAct, ih]
@[simp] theorem pollLoop_moves (n : Nat) (s : State) : (pollLoop n s).moves = s.moves := by
  induction n generalizing s with
  | zero => simp [pollLoop]
  | succ n ih => unfold pollLoop; dsimp only; split <;> simp [runAct, ih]
@[simp] theorem pollLoop_deadlines (n : Nat) (s : State) : (pollLoop n s).deadlines = s.deadlines := by
  induction n generalizing s with
  | zero => simp [pollLoop]
  | succ n ih => unfold pollLoop; dsimp only; split <;> simp [runAct, ih]
@[simp] theorem pollLoop_progTimes (n : Nat) (s : State) : (pollLoop n s).progTimes = s.progTimes := by
  induction n generalizing s with
  | zero => simp [pollLoop]
  | succ n ih => unfold pollLoop; dsimp only; split <;> simp [runAct, ih]

/-! ### The loop -/

/-- The events of the polls before the last one (R95). -/
def earlierEvents (earlier : List Word32) : List Event := earlier.flatMap fun r => [.read r, .yield]

theorem pollStep_ret (s : State) (h : s.ret = none) :
    (pollStep s).ret =
      if doBit s.cfg (readValue s) then some .ok else if s.deadline = 0 then some .writeTimeout else none := by
  unfold pollStep; dsimp only; split <;> [skip; split] <;> simp_all

theorem pollStep_deadline (s : State) (h : doBit s.cfg (readValue s) = false) :
    (pollStep s).deadline = s.deadline - 1 := by
  unfold pollStep
  simp only [h, Bool.false_eq_true, if_false, afterRead_deadline]
  by_cases hz : s.deadline = 0 <;> simp [hz]

/-- The poll loop with `n` false deadline answers to come: polls that read 0, then the last one, which reads 1 or finds the
deadline expired (R95, R97). -/
theorem pollLoop_spec (n : Nat) (s : State) (hr : s.ret = none) (hd : s.deadline = n) :
    ∃ (earlier : List Word32) (last : Word32),
      (pollLoop n s).history = (earlierEvents earlier ++ [Event.read last]).reverse ++ s.history ∧
      (∀ r ∈ earlier, doBit s.cfg r = false) ∧
      (pollLoop n s).ret = some (if doBit s.cfg last then .ok else .writeTimeout) ∧
      earlier.length ≤ n ∧ (doBit s.cfg last = false → earlier.length = n) := by
  induction n generalizing s with
  | zero =>
    refine ⟨[], readValue s, by simp [pollLoop, earlierEvents], by simp, ?_, by simp, by simp⟩
    rw [pollLoop, pollStep_ret s hr, hd]
    simp only [if_true]
    split <;> rfl
  | succ n ih =>
    by_cases hb : doBit s.cfg (readValue s) = true
    · refine ⟨[], readValue s, ?_, by simp, ?_, by simp, by simp [hb]⟩ <;>
        simp [pollLoop, pollStep_ret s hr, hb, earlierEvents]
    · have hb' : doBit s.cfg (readValue s) = false := by simpa using hb
      have h1 : (pollStep s).ret = none := by
        rw [pollStep_ret s hr]; simp [hb', hd]
      have h2 : (pollStep s).deadline = n := by rw [pollStep_deadline s hb', hd]; rfl
      obtain ⟨earlier, last, i1, i2, i3, i4, i5⟩ := ih (runAct .yield (pollStep s)) (by simp [runAct, h1])
        (by simp [runAct, h2])
      refine ⟨readValue s :: earlier, last, ?_, ?_, ?_, by simp; omega, ?_⟩
      · simp only [pollLoop, h1, Option.isSome_none, Bool.false_eq_true, if_false, i1]
        simp [runAct, earlierEvents]
      · intro r hr'
        rcases List.mem_cons.1 hr' with rfl | hr'
        · exact hb'
        · simpa [runAct] using i2 r hr'
      · simp only [pollLoop, h1, Option.isSome_none, Bool.false_eq_true, if_false, i3]
        simp [runAct]
      · intro hl
        have := i5 (by simpa [runAct] using hl)
        simp [this]

/-! ### WAIT -/

/-- WAIT's re-assert value (R95). -/
def reassertValue (cfg : Config) (c : Word32) : Word32 := driveLines cfg c none (some true) (some true)

theorem waitBegin_spec (s : State) (c : Word32) (hc : s.ctl = some c) :
    (waitBegin s).ctl = some (reassertValue s.cfg c) ∧ (waitBegin s).creg = reassertValue s.cfg c ∧
    (waitBegin s).history = .write (reassertValue s.cfg c) :: s.history := by
  unfold waitBegin
  rw [drive_some (c := c) (h := hc)]
  simp [reassertValue]

theorem endValue_reassertValue {cfg : Config} (h : cfg.ok = true) (c : Word32) :
    endValue cfg (reassertValue cfg c) = endValue cfg c := by
  simp [endValue, reassertValue, driveLines_driveLines h]

/-- WAIT as a whole (R95 to R97). -/
theorem waitBody_spec (s : State) (h : s.cfg.ok = true) (c : Word32) (hc : s.ctl = some c) :
    ∃ (earlier : List Word32) (last : Word32),
      (waitBody s).history =
        (.write (reassertValue s.cfg c) :: (earlierEvents earlier ++
          [Event.read last, Event.write (endValue s.cfg c), Event.delay 2])).reverse ++ s.history ∧
      (∀ r ∈ earlier, doBit s.cfg r = false) ∧
      (waitBody s).ret = some (if doBit s.cfg last then .ok else .writeTimeout) ∧
      (waitBody s).ctl = some (endValue s.cfg c) ∧ (waitBody s).creg = endValue s.cfg c ∧
      (waitBody s).phase = .idle ∧ (waitBody s).acc = s.acc ∧
      earlier.length ≤ (waitBegin s).deadline ∧
      (doBit s.cfg last = false → earlier.length = (waitBegin s).deadline) := by
  obtain ⟨w1, w2, w3⟩ := waitBegin_spec s c hc
  obtain ⟨earlier, last, p1, p2, p3, p4, p5⟩ := pollLoop_spec (waitBegin s).deadline (waitBegin s) (by simp) rfl
  obtain ⟨e1, e2, e3, e4, e5, e6⟩ := runActs_end (pollLoop (waitBegin s).deadline (waitBegin s))
    (reassertValue s.cfg c) (by simp [w1])
  have hs := runActs_samePort endActs (pollLoop (waitBegin s).deadline (waitBegin s)) endActs_straight
  simp only [waitBegin_cfg, pollLoop_cfg] at p2 p3 p4 p5 e1 e2 e6
  rw [endValue_reassertValue h] at e1 e2 e6
  refine ⟨earlier, last, ?_, p2, ?_, e1, e2, e3, ?_, p4, p5⟩
  · show (runActs endActs _).history = _
    rw [e6, p1, w3]
    simp
  · show (runActs endActs _).ret = _
    rw [hs.ret, p3]
  · show (runActs endActs _).acc = _
    rw [e4]
    simp

/-- What WAIT leaves alone beside what `waitBody_spec` gives. -/
theorem waitBody_frame (s : State) :
    (waitBody s).cfg = s.cfg ∧ (waitBody s).busy = s.busy ∧ (waitBody s).status = s.status ∧
    (waitBody s).data = s.data ∧ (waitBody s).stepPos = s.stepPos ∧ (waitBody s).attached = s.attached ∧
    (waitBody s).moves = s.moves := by
  have hs := runActs_samePort endActs (pollLoop (waitBegin s).deadline (waitBegin s)) endActs_straight
  refine ⟨hs.cfg.trans ?_, hs.busy.trans ?_, hs.status.trans ?_, hs.data.trans ?_, hs.stepPos.trans ?_,
    hs.attached.trans ?_, hs.moves.trans ?_⟩ <;> simp

end Sys2Proof.Machine
end

