-- ==== Sys2Proof/Laws/Rows.lean ====
section
/-! SUPPORT. When a row runs and what it answers: one inversion lemma and one completion lemma for host operations and for
engine rows, and the specifications of the READ frame and of the bodies of the host operations. -/

namespace Sys2Proof.Machine

/-! ### When a row runs -/

/-- All a host operation can answer as a next state (R88, R109). -/
theorem hostOp_next {i : Instr} {body : State → State} {s t : State} (h : hostOp i body s = .next t) :
    s.cfg.ok = true ∧ s.busy = false ∧ i.wf s.cfg.aw = true ∧
    ((∃ st, earlyStatus s.cfg i = some st ∧ t = raiseStatus st s) ∨
      (earlyStatus s.cfg i = none ∧ s.phase = .idle ∧ t = body (accept s))) := by
  unfold hostOp at h
  split at h
  · cases h
  · split at h
    · cases h
    · split at h
      · cases h
      · rename_i h1 h2 h3
        refine ⟨by simpa using h1, by simpa using h2, by simpa using h3, ?_⟩
        split at h
        · rename_i st hst
          cases h
          exact .inl ⟨st, hst, rfl⟩
        · rename_i hst
          split at h
          · rename_i hp
            cases h
            exact .inr ⟨hst, hp, rfl⟩
          · cases h

/-- An accepted host operation runs its body (R88). -/
theorem hostOp_accepted {i : Instr} {s : State} (body : State → State) (hr : Ready s) (hw : i.wf s.cfg.aw = true)
    (he : earlyStatus s.cfg i = none) : hostOp i body s = .next (body (accept s)) := by
  obtain ⟨h1, h2, h3⟩ := hr
  simp [hostOp, h1, h2, h3, hw, he]

/-- All an engine row can answer as a next state (R86). -/
theorem engineOp_next {i : Instr} {p : Phase} {needs : Bool} {body : State → State} {s t : State}
    (h : engineOp i p needs body s = .next t) :
    s.cfg.ok = true ∧ i.wf s.cfg.aw = true ∧ s.phase = p ∧ (needs = true → s.ctl.isSome = true) ∧ t = body s := by
  unfold engineOp at h
  split at h
  · cases h
  · split at h
    · cases h
    · split at h
      · cases h
      · split at h
        · cases h
        · rename_i h1 h2 h3 h4
          cases h
          refine ⟨by simpa using h1, by simpa using h2, by simpa using h3, ?_, rfl⟩
          intro hn
          simp only [hn, Bool.true_and, Option.isNone_iff_eq_none] at h4
          exact Option.isSome_iff_ne_none.2 h4

/-- An engine row runs in its phase (R86). -/
theorem engineOp_runs {i : Instr} {p : Phase} {needs : Bool} {s : State} (body : State → State)
    (h1 : s.cfg.ok = true) (h2 : i.wf s.cfg.aw = true) (h3 : s.phase = p) (h4 : needs = true → s.ctl.isSome = true) :
    engineOp i p needs body s = .next (body s) := by
  have h5 : (needs && s.ctl.isNone) = false := by
    cases needs with
    | false => rfl
    | true =>
      have := h4 rfl
      cases hc : s.ctl <;> simp_all
  unfold engineOp
  rw [if_neg (by simp [h1]), if_neg (by simp [h2]), if_neg (by simp [h3])]
  simp only [h5, Bool.false_eq_true, if_false]

/-! ### The READ frame -/

/-- The bits of a READ frame after the start bit (R65). -/
def readBits (aw : Nat) (a : Word16) : List Bool := [true, false] ++ msbBits (addrField a) aw

theorem readHead_straight (aw : Nat) (a : Word16) : ∀ x ∈ readHeadActs aw a, x.straight = true := by
  intro x hx
  rw [readHeadActs_eq] at hx
  rcases List.mem_append.1 hx with hx | hx
  · exact startActs_straight x hx
  · exact (clockActs_kinds _ x hx).1

theorem readTail_straight : ∀ x ∈ readTailActs, x.straight = true := by
  intro x hx
  rcases List.mem_append.1 hx with hx | hx
  · exact (getActs_kinds 16 x hx).1
  · exact endActs_straight x hx

/-- What `sendRead` leaves alone (R65, R91). -/
theorem sendRead_frame (a : Word16) (s : State) :
    (sendRead a s).cfg = s.cfg ∧ (sendRead a s).busy = s.busy ∧ (sendRead a s).status = s.status ∧
    (sendRead a s).data = s.data ∧ (sendRead a s).stepPos = s.stepPos ∧ (sendRead a s).attached = s.attached ∧
    (sendRead a s).moves = s.moves ∧ (sendRead a s).deadline = s.deadline ∧
    (sendRead a s).deadlines = s.deadlines := by
  have h1 := runActs_samePort _ s (readHead_straight s.cfg.aw a)
  have h2 := runActs_samePort readTailActs (framingRead (runActs (readHeadActs s.cfg.aw a) s)) readTail_straight
  have h3 := runActs_samePort endActs (framingRead (runActs (readHeadActs s.cfg.aw a) s)) endActs_straight
  unfold sendRead
  dsimp only
  split
  · refine ⟨h2.cfg.trans ?_, h2.busy.trans ?_, h2.status.trans ?_, h2.data.trans ?_, h2.stepPos.trans ?_,
      h2.attached.trans ?_, h2.moves.trans ?_, h2.deadline.trans ?_, h2.deadlines.trans ?_⟩ <;>
      simp [h1.cfg, h1.busy, h1.status, h1.data, h1.stepPos, h1.attached, h1.moves, h1.deadline, h1.deadlines]
  · refine ⟨h3.cfg.trans ?_, h3.busy.trans ?_, h3.status.trans ?_, h3.data.trans ?_, h3.stepPos.trans ?_,
      h3.attached.trans ?_, h3.moves.trans ?_, h3.deadline.trans ?_, h3.deadlines.trans ?_⟩ <;>
      simp [h1.cfg, h1.busy, h1.status, h1.data, h1.stepPos, h1.attached, h1.moves, h1.deadline, h1.deadlines]

/-- The READ frame as a whole (R65, R90, R91): the framing check's read decides between END at once and 16 samples. -/
theorem sendRead_spec (a : Word16) (s : State) (h : s.cfg.ok = true) :
    (sendRead a s).ctl = some (endValue s.cfg (readValue s)) ∧ (sendRead a s).creg = endValue s.cfg (readValue s) ∧
    (sendRead a s).phase = .idle ∧
    ∃ (dummy : Word32) (m : Word32), level s.cfg m .cs = true ∧ level s.cfg m .di = true ∧ level s.cfg m .sk = true ∧
      sameOtherBits s.cfg (readValue s) m ∧ lockstep s.cfg m = true ∧
      ((doBit s.cfg dummy = true ∧ (sendRead a s).ret = some .protocolFraming ∧ (sendRead a s).acc = s.acc ∧
        (sendRead a s).history =
          (startEvents s.cfg (readValue s) ++
            ((readBits s.cfg.aw a).flatMap (bitEvents s.cfg (startHigh s.cfg (readValue s))) ++
              [Event.read dummy, Event.write (endValue s.cfg (readValue s)), Event.delay 2])).reverse ++ s.history) ∨
       (doBit s.cfg dummy = false ∧ (sendRead a s).ret = some .ok ∧
        ∃ rs : List Word32, rs.length = 16 ∧ (sendRead a s).acc = some (accAfter s.cfg 0 rs) ∧
        (sendRead a s).history =
          (startEvents s.cfg (readValue s) ++
            ((readBits s.cfg.aw a).flatMap (bitEvents s.cfg (startHigh s.cfg (readValue s))) ++
              (Event.read dummy :: Event.write m :: (rs.flatMap (sampleEvents s.cfg m) ++
                [Event.write (endValue s.cfg (readValue s)), Event.delay 2])))).reverse ++ s.history)) := by
  obtain ⟨h1, h2, h3, h4, -, h6⟩ := runActs_head (readBits s.cfg.aw a) s h
  have hp := runActs_samePort _ s (readHead_straight s.cfg.aw a)
  rw [readHeadActs_eq] at hp
  have hcfg : (runActs (startActs ++ clockActs (readBits s.cfg.aw a)) s).cfg = s.cfg := hp.cfg
  have hu : sendRead a s =
      (let t := framingRead (runActs (startActs ++ clockActs (readBits s.cfg.aw a)) s)
       if t.ret = some .ok then runActs readTailActs t else runActs endActs t) := by
    unfold sendRead; rw [readHeadActs_eq]; rfl
  generalize runActs (startActs ++ clockActs (readBits s.cfg.aw a)) s = u at *
  obtain ⟨l1, l2, l3, l4⟩ := clockedValue_lines h (readValue s) (readBits s.cfg.aw a)
  have hev := endValue_clockedValue h (readValue s) (readBits s.cfg.aw a)
  generalize clockedValue s.cfg (startHigh s.cfg (readValue s)) (readBits s.cfg.aw a) = c at *
  have hm : readModeValue s.cfg c = driveLines s.cfg c none none (some true) := rfl
  have e1 := runActs_end (framingRead u) c (by simp [h1])
  simp only [framingRead_cfg, hcfg, hev] at e1
  obtain ⟨rs, g0, g1, -, g3, g4⟩ := runActs_get 16 (framingRead u) (by simp [hcfg, h]) c (by simp [h1])
  have gp := (runActs_samePort (getActs 16) (framingRead u) fun x hx => (getActs_kinds 16 x hx).1)
  have e2 := runActs_end _ _ g1
  have hev2 : endValue s.cfg (driveLines s.cfg (readModeValue s.cfg c) (some true) none none) =
      endValue s.cfg (readValue s) := by
    rw [← hev]; simp [endValue, readModeValue, driveLines_driveLines h]
  simp only [framingRead_cfg, hcfg, gp.cfg, Nat.reduceEqDiff, if_false, hev2] at e2 g3 g4
  have e2' : runActs readTailActs (framingRead u) = runActs endActs (runActs (getActs 16) (framingRead u)) := by
    rw [readTailActs, runActs_append]
  by_cases hd : doBit s.cfg (readValue u) = true
  · have hr : (framingRead u).ret = some .protocolFraming := by simp [hcfg, hd]
    have hs : sendRead a s = runActs endActs (framingRead u) := by
      rw [hu]; dsimp only; rw [if_neg (by rw [hr]; simp)]
    rw [hs]
    refine ⟨e1.1, e1.2.1, e1.2.2.1, readValue u, readModeValue s.cfg c, ?_, ?_, ?_, ?_, ?_, .inl ⟨hd, ?_, ?_, ?_⟩⟩
    · rw [hm, level_driveLines_cs h]; exact l2
    · rw [hm, level_driveLines_di h]; rfl
    · rw [hm, level_driveLines_sk h]; exact l1
    · exact driveLines_sameOtherBits h _ _ _ _ _ l3
    · exact lockstep_driveLines h _ _ _ _ (.inl rfl)
    · rw [(runActs_samePort endActs _ endActs_straight).ret, hr]
    · rw [e1.2.2.2.1]; simp [h4]
    · rw [e1.2.2.2.2.2]; simp [h6]
  · have hr : (framingRead u).ret = some .ok := by simp [hcfg, hd]
    have hs : sendRead a s = runActs endActs (runActs (getActs 16) (framingRead u)) := by
      rw [hu, ← e2']; dsimp only; rw [if_pos hr]
    rw [hs]
    refine ⟨e2.1, e2.2.1, e2.2.2.1, readValue u, readModeValue s.cfg c, ?_, ?_, ?_, ?_, ?_,
      .inr ⟨by simpa using hd, ?_, rs, g0, ?_, ?_⟩⟩
    · rw [hm, level_driveLines_cs h]; exact l2
    · rw [hm, level_driveLines_di h]; rfl
    · rw [hm, level_driveLines_sk h]; exact l1
    · exact driveLines_sameOtherBits h _ _ _ _ _ l3
    · exact lockstep_driveLines h _ _ _ _ (.inl rfl)
    · rw [(runActs_samePort endActs _ endActs_straight).ret, gp.ret, hr]
    · rw [e2.2.2.2.1, g3]
    · rw [e2.2.2.2.2.2, g4]; simp [h6]

/-! ### The bodies of the host operations -/

/-- A completed operation's host port and internal values (R37). -/
theorem raiseStatus_eq (st : Status) (s : State) : raiseStatus st s =
    { s with status := st, data := 0, busy := false, acc := none, stepPos := [], ret := none,
             history := .completed st 0 :: s.history } := rfl

/-- READ_WORD's body completes with what the READ frame returned (R90). -/
theorem readWordBody_eq (a : Word16) (s : State) (h : s.cfg.ok = true) :
    (∃ x, (sendRead a s).ret = some .ok ∧ (sendRead a s).acc = some x ∧
      readWordBody a s = complete .ok (readResult x) (sendRead a s)) ∨
    ((sendRead a s).ret = some .protocolFraming ∧ readWordBody a s = complete .protocolFraming 0 (sendRead a s)) := by
  obtain ⟨-, -, -, dummy, m, -, -, -, -, -, hc⟩ := sendRead_spec a s h
  rcases hc with ⟨-, hr, -, -⟩ | ⟨-, hr, rs, -, ha, -⟩
  · right; exact ⟨hr, by simp [readWordBody, hr, runAct]⟩
  · left; exact ⟨_, hr, ha, by simp [readWordBody, hr, runAct, ha]⟩

/-- WRITE_WORD's body completes with what WAIT returned (R92). -/
theorem writeWordBody_eq (a v : Word16) (s : State) (h : s.cfg.ok = true) :
    ∃ st, (waitBody (runActs (writeActs s.cfg.aw a v) s)).ret = some st ∧ (st = .ok ∨ st = .writeTimeout) ∧
      writeWordBody a v s = complete st 0 (waitBody (runActs (writeActs s.cfg.aw a v) s)) := by
  rw [writeActs_eq]
  obtain ⟨f1, -⟩ := runActs_frame ([false, true] ++ msbBits (addrField a) s.cfg.aw ++ msbBits (dataField v) 16) s h
  have hcfg := (runActs_samePort _ s (frameActs_straight
    ([false, true] ++ msbBits (addrField a) s.cfg.aw ++ msbBits (dataField v) 16))).cfg
  obtain ⟨earlier, last, -, -, hr, -⟩ := waitBody_spec _ (by rw [hcfg]; exact h) _ f1
  refine ⟨_, hr, ?_, by simp only [writeWordBody, writeActs_eq, runAct, hr]⟩
  split <;> simp

end Sys2Proof.Machine
end

