-- ==== Sys2Proof/Laws/Exec.lean ====
section
/-! SUPPORT. What a row answers: the inversion of `exec`, and the events and the state of an accepted host operation. -/

namespace Sys2Proof.Machine

/-! ### Straight sequences -/

theorem putActs_straight (v : Word32) (n : Nat) : ∀ a ∈ putActs v n, a.straight = true := by
  rw [putActs_eq_clockActs]; exact fun a ha => (clockActs_kinds _ a ha).1

theorem getActs_straight (n : Nat) : ∀ a ∈ getActs n, a.straight = true := fun a ha => (getActs_kinds _ a ha).1

theorem writeActs_straight (aw : Nat) (a v : Word16) : ∀ x ∈ writeActs aw a v, x.straight = true := by
  rw [writeActs_eq]; exact frameActs_straight _

theorem ewenActs_straight (aw : Nat) : ∀ x ∈ ewenActs aw, x.straight = true := by
  rw [ewenActs_eq]; exact frameActs_straight _

theorem ewdsActs_straight (aw : Nat) : ∀ x ∈ ewdsActs aw, x.straight = true := by
  rw [ewdsActs_eq]; exact frameActs_straight _

/-! ### Frames as bits -/

/-- The bits of a WRITE frame after the start bit (R66). -/
def writeBits (aw : Nat) (a v : Word16) : List Bool :=
  [false, true] ++ msbBits (addrField a) aw ++ msbBits (dataField v) 16

/-- The bits of an EWEN frame after the start bit (R67). -/
def ewenBits (aw : Nat) : List Bool := [false, false, true, true] ++ List.replicate (aw - 2) false

/-- The bits of an EWDS frame after the start bit (R68). -/
def ewdsBits (aw : Nat) : List Bool := [false, false, false, false] ++ List.replicate (aw + 2) false

theorem encodeFrame_write (aw : Nat) (a v : Word16) :
    encodeFrame aw (.writeFrame a v) = some (true :: writeBits aw a v) := rfl

theorem encodeFrame_read (aw : Nat) (a : Word16) : encodeFrame aw (.readFrame a) = some (true :: readBits aw a) := rfl

theorem encodeFrame_ewen (aw : Nat) : encodeFrame aw .ewenFrame = some (true :: ewenBits aw) := rfl

theorem encodeFrame_ewds (aw : Nat) : encodeFrame aw .ewdsFrame = some (true :: ewdsBits aw) := rfl

/-! ### Frames as events -/

/-- The events of START and of bits clocked out, then others. -/
def headEvents (cfg : Config) (r : Word32) (bits : List Bool) (es : List Event) : List Event :=
  startEvents cfg r ++ (bits.flatMap (bitEvents cfg (startHigh cfg r)) ++ es)

theorem writesOf_head (cfg : Config) (r : Word32) (bits : List Bool) (es : List Event) :
    writesOf (headEvents cfg r bits es) = startLow cfg r :: startHigh cfg r ::
      ((bits.flatMap fun b => [driveLines cfg (startHigh cfg r) (some false) none (some b),
        driveLines cfg (startHigh cfg r) (some true) none (some b)]) ++ writesOf es) := by
  simp [headEvents, writesOf_bits, startEvents, writesOf]

theorem writesOf_head_length (cfg : Config) (r : Word32) (bits : List Bool) (es : List Event) :
    (writesOf (headEvents cfg r bits es)).length = 2 + 2 * bits.length + (writesOf es).length := by
  simp [headEvents, startEvents, writesOf, (counts_bits cfg (startHigh cfg r) bits).1]
  omega

theorem readsOf_head (cfg : Config) (r : Word32) (bits : List Bool) (es : List Event) :
    readsOf (headEvents cfg r bits es) = r :: readsOf es := by
  simp [headEvents, startEvents, readsOf, (counts_bits cfg (startHigh cfg r) bits).2.1]

theorem busyWait_head (cfg : Config) (r : Word32) (bits : List Bool) (es : List Event) :
    busyWait (headEvents cfg r bits es) = 4 + 4 * bits.length + busyWait es := by
  simp [headEvents, startEvents, busyWait, (counts_bits cfg (startHigh cfg r) bits).2.2.1]
  omega

theorem yieldsOf_head (cfg : Config) (r : Word32) (bits : List Bool) (es : List Event) :
    yieldsOf (headEvents cfg r bits es) = yieldsOf es := by
  simp [headEvents, startEvents, yieldsOf, (counts_bits cfg (startHigh cfg r) bits).2.2.2]

/-- START and clocked bits clock the start bit and those bits into the part (R63). -/
theorem clockedBits_head {cfg : Config} (h : cfg.ok = true) (r prev : Word32) (bits : List Bool) (es : List Event) :
    clockedBits cfg prev (writesOf (headEvents cfg r bits es)) =
      true :: bits ++ clockedBits cfg (startHigh cfg r) (writesOf es) := by
  have l1 : level cfg (startLow cfg r) .sk = false := by rw [startLow, level_driveLines_sk h]; rfl
  have l2 : level cfg (startHigh cfg r) .sk = true := by rw [startHigh, level_driveLines_sk h]; rfl
  have l3 : level cfg (startHigh cfg r) .cs = true := by rw [startHigh, level_driveLines_cs h]; rfl
  have l4 : level cfg (startHigh cfg r) .di = true := by rw [startHigh, level_driveLines_di h]; rfl
  rw [writesOf_head, clockedBits_low _ _ _ _ l1]
  simp only [clockedBits, l1, l2, l3, l4, Bool.not_false, Bool.and_true, if_true]
  rw [clockedBits_bits h _ l3 _ _ l2]
  simp

/-- END's write clocks nothing. -/
theorem clockedBits_end {cfg : Config} (h : cfg.ok = true) (r p : Word32) :
    clockedBits cfg p [endValue cfg r] = [] := by
  simp [clockedBits, endValue, level_driveLines_sk h]

/-- GET_BITS' read-mode write, its samples and END clock one edge a sample with DI = 1. -/
theorem clockedBits_readTail {cfg : Config} (h : cfg.ok = true) (m r p : Word32) (hp : level cfg p .sk = true)
    (l1 : level cfg m .cs = true) (l2 : level cfg m .di = true) (l3 : level cfg m .sk = true) (rs : List Word32)
    (es : List Event) (hes : writesOf es = []) :
    clockedBits cfg p (writesOf (Event.write m :: (rs.flatMap (sampleEvents cfg m) ++
      (Event.write (endValue cfg r) :: es)))) = List.replicate rs.length true := by
  simp only [writesOf, writesOf_append, writesOf_samples, hes]
  have e : ∀ vs, clockedBits cfg p (m :: vs) = clockedBits cfg m vs := fun vs => by simp [clockedBits, hp]
  rw [e, clockedBits_samples h m l1 l2 rs m l3, clockedBits_end h]
  simp

theorem readsOf_earlier (l : List Word32) : readsOf (earlierEvents l) = l := by
  induction l <;> simp_all [earlierEvents, readsOf]

theorem yieldsOf_earlier (l : List Word32) : yieldsOf (earlierEvents l) = l.length := by
  induction l with
  | nil => rfl
  | cons r l ih => simp only [earlierEvents] at ih; simp [earlierEvents, yieldsOf, ih]

theorem writesOf_earlier (l : List Word32) : writesOf (earlierEvents l) = [] := by
  induction l <;> simp_all [earlierEvents, writesOf]

theorem busyWait_earlier (l : List Word32) : busyWait (earlierEvents l) = 0 := by
  induction l <;> simp_all [earlierEvents, busyWait]

/-! ### The rows -/

/-- All that `exec` can answer as a next state: an early completion (R109), an accepted host operation (R88), a row that
begins in Idle, or one that runs in CommandActive (R86). -/
theorem exec_next {i : Instr} {s t : State} (h : exec i s = .next t) :
    s.cfg.ok = true ∧ i.wf s.cfg.aw = true ∧
    ((s.busy = false ∧ ∃ st, earlyStatus s.cfg i = some st ∧ t = raiseStatus st s) ∨
     (s.busy = false ∧ s.phase = .idle ∧ earlyStatus s.cfg i = none ∧
       ((∃ a, i = .readWord a ∧ t = readWordBody a (accept s)) ∨
        (∃ a v, i = .writeWord a v ∧ t = writeWordBody a v (accept s)) ∨
        (i = .writeEnable ∧ t = writeEnableBody (accept s)) ∨
        (i = .writeDisable ∧ t = writeDisableBody (accept s)))) ∨
     (s.phase = .idle ∧ earlyStatus s.cfg i = none ∧
       ((∃ a, i = .readFrame a ∧ t = sendRead a s) ∨
        (∃ a v, i = .writeFrame a v ∧ t = runActs (writeActs s.cfg.aw a v) s) ∨
        (i = .ewenFrame ∧ t = runActs (ewenActs s.cfg.aw) s) ∨
        (i = .ewdsFrame ∧ t = runActs (ewdsActs s.cfg.aw) s) ∨
        (i = .start ∧ t = runActs startActs s) ∨
        (i = .wait ∧ t = waitBody s ∧ s.ctl.isSome = true))) ∨
     (s.phase = .commandActive ∧ s.ctl.isSome = true ∧ earlyStatus s.cfg i = none ∧
       ((∃ v n, i = .putBits v n ∧ t = runActs (putActs v n) s) ∨
        (∃ n, i = .getBits n ∧ t = runActs (getActs n) s) ∨
        (i = .endOp ∧ t = runActs endActs s)))) := by
  cases i with
  | readWord a =>
    obtain ⟨h1, h2, h3, h4 | h4⟩ := hostOp_next h
    · exact ⟨h1, h3, .inl ⟨h2, h4⟩⟩
    · exact ⟨h1, h3, .inr (.inl ⟨h2, h4.2.1, h4.1, .inl ⟨a, rfl, h4.2.2⟩⟩)⟩
  | writeWord a v =>
    obtain ⟨h1, h2, h3, h4 | h4⟩ := hostOp_next h
    · exact ⟨h1, h3, .inl ⟨h2, h4⟩⟩
    · exact ⟨h1, h3, .inr (.inl ⟨h2, h4.2.1, h4.1, .inr (.inl ⟨a, v, rfl, h4.2.2⟩)⟩)⟩
  | writeEnable =>
    obtain ⟨h1, h2, h3, h4 | h4⟩ := hostOp_next h
    · exact ⟨h1, h3, .inl ⟨h2, h4⟩⟩
    · exact ⟨h1, h3, .inr (.inl ⟨h2, h4.2.1, h4.1, .inr (.inr (.inl ⟨rfl, h4.2.2⟩))⟩)⟩
  | writeDisable =>
    obtain ⟨h1, h2, h3, h4 | h4⟩ := hostOp_next h
    · exact ⟨h1, h3, .inl ⟨h2, h4⟩⟩
    · exact ⟨h1, h3, .inr (.inl ⟨h2, h4.2.1, h4.1, .inr (.inr (.inr ⟨rfl, h4.2.2⟩))⟩)⟩
  | reserved op =>
    obtain ⟨h1, h2, h3, h4 | h4⟩ := hostOp_next (body := id) h
    · exact ⟨h1, h3, .inl ⟨h2, h4⟩⟩
    · simp [earlyStatus] at h4
  | readFrame a =>
    obtain ⟨h1, h2, h3, -, h5⟩ := engineOp_next h
    exact ⟨h1, h2, .inr (.inr (.inl ⟨h3, rfl, by simp [h5]⟩))⟩
  | writeFrame a v =>
    obtain ⟨h1, h2, h3, -, h5⟩ := engineOp_next h
    exact ⟨h1, h2, .inr (.inr (.inl ⟨h3, rfl, by simp [h5]⟩))⟩
  | ewenFrame =>
    obtain ⟨h1, h2, h3, -, h5⟩ := engineOp_next h
    exact ⟨h1, h2, .inr (.inr (.inl ⟨h3, rfl, by simp [h5]⟩))⟩
  | ewdsFrame =>
    obtain ⟨h1, h2, h3, -, h5⟩ := engineOp_next h
    exact ⟨h1, h2, .inr (.inr (.inl ⟨h3, rfl, by simp [h5]⟩))⟩
  | start =>
    obtain ⟨h1, h2, h3, -, h5⟩ := engineOp_next h
    exact ⟨h1, h2, .inr (.inr (.inl ⟨h3, rfl, by simp [h5]⟩))⟩
  | wait =>
    obtain ⟨h1, h2, h3, h4, h5⟩ := engineOp_next h
    exact ⟨h1, h2, .inr (.inr (.inl ⟨h3, rfl, by simp [h5, h4]⟩))⟩
  | putBits v n =>
    obtain ⟨h1, h2, h3, h4, h5⟩ := engineOp_next h
    exact ⟨h1, h2, .inr (.inr (.inr ⟨h3, h4 rfl, rfl, by simp [h5]⟩))⟩
  | getBits n =>
    obtain ⟨h1, h2, h3, h4, h5⟩ := engineOp_next h
    exact ⟨h1, h2, .inr (.inr (.inr ⟨h3, h4 rfl, rfl, by simp [h5]⟩))⟩
  | endOp =>
    obtain ⟨h1, h2, h3, h4, h5⟩ := engineOp_next h
    exact ⟨h1, h2, .inr (.inr (.inr ⟨h3, h4 rfl, rfl, by simp [h5]⟩))⟩

/-! ### Accepted host operations, one lemma each -/

@[simp] theorem readValue_accept (s : State) : readValue (accept s) = readValue s := rfl

/-- What every accepted host operation leaves (R37, R98). -/
structure Done (s t : State) : Prop where
  phase : t.phase = .idle
  busy : t.busy = false
  acc : t.acc = none
  stepPos : t.stepPos = []
  ret : t.ret = none
  creg : t.creg = endValue s.cfg (readValue s)
  ctl : t.ctl = some (endValue s.cfg (readValue s))
  moves : t.moves = s.moves
  cfg : t.cfg = s.cfg
  attached : t.attached = s.attached

/-- READ_WORD once accepted (R90, R91): the dummy bit's read decides. -/
theorem readWordBody_events (a : Word16) (s : State) (h : s.cfg.ok = true) :
    Done s (readWordBody a (accept s)) ∧
    (readWordBody a (accept s)).deadline = s.deadline ∧
    (readWordBody a (accept s)).deadlines = s.deadlines ∧
    ∃ (dummy m : Word32), level s.cfg m .cs = true ∧ level s.cfg m .di = true ∧ level s.cfg m .sk = true ∧
      sameOtherBits s.cfg (readValue s) m ∧ lockstep s.cfg m = true ∧
      (((readWordBody a (accept s)).status = .protocolFraming ∧
        (readWordBody a (accept s)).data = 0 ∧ doBit s.cfg dummy = true ∧
        Added s (readWordBody a (accept s))
          (headEvents s.cfg (readValue s) (readBits s.cfg.aw a)
            [.read dummy, .write (endValue s.cfg (readValue s)), .delay 2, .completed .protocolFraming 0])) ∨
       ((readWordBody a (accept s)).status = .ok ∧ doBit s.cfg dummy = false ∧
        ∃ rs : List Word32, rs.length = 16 ∧
          (readWordBody a (accept s)).data = readResult (accAfter s.cfg 0 rs) ∧
          Added s (readWordBody a (accept s))
            (headEvents s.cfg (readValue s) (readBits s.cfg.aw a)
              (.read dummy :: .write m :: (rs.flatMap (sampleEvents s.cfg m) ++
                [.write (endValue s.cfg (readValue s)), .delay 2,
                 .completed .ok (readResult (accAfter s.cfg 0 rs))]))))) := by
  obtain ⟨r1, r2, r3, dummy, m, l1, l2, l3, l4, l5, hc⟩ := sendRead_spec a (accept s) h
  obtain ⟨f1, -, -, -, -, f2, f3, f4, f5⟩ := sendRead_frame a (accept s)
  rcases hc with ⟨hd, e1, e2, e3⟩ | ⟨hd, e1, rs, e0, e2, e3⟩
  · rcases readWordBody_eq a (accept s) h with ⟨x, b1, -⟩ | ⟨-, b2⟩
    · rw [e1] at b1; cases b1
    · rw [b2]
      refine ⟨⟨r3, rfl, rfl, rfl, rfl, r2, r1, f3, f1, f2⟩, f4, f5, dummy, m, l1, l2, l3, l4, l5,
        .inl ⟨rfl, rfl, hd, ?_⟩⟩
      unfold Added; rw [complete_history, e3]; simp [headEvents]
  · rcases readWordBody_eq a (accept s) h with ⟨x, -, b1, b2⟩ | ⟨b1, -⟩
    · rw [b2]
      have hx : x = accAfter s.cfg 0 rs := by rw [e2] at b1; simpa using b1.symm
      refine ⟨⟨r3, rfl, rfl, rfl, rfl, r2, r1, f3, f1, f2⟩, f4, f5, dummy, m, l1, l2, l3, l4, l5,
        .inr ⟨rfl, hd, rs, e0, by simp [hx], ?_⟩⟩
      unfold Added; rw [complete_history, e3]; simp [headEvents, hx]
    · rw [e1] at b1; cases b1

/-- WRITE_WORD once accepted (R92, R95). -/
theorem writeWordBody_events (a v : Word16) (s : State) (h : s.cfg.ok = true) :
    Done s (writeWordBody a v (accept s)) ∧ (writeWordBody a v (accept s)).data = 0 ∧
    ∃ earlier last, (∀ r ∈ earlier, doBit s.cfg r = false) ∧
      (writeWordBody a v (accept s)).status = (if doBit s.cfg last then .ok else .writeTimeout) ∧
      Added s (writeWordBody a v (accept s))
        (headEvents s.cfg (readValue s) (writeBits s.cfg.aw a v)
          (.write (endValue s.cfg (readValue s)) :: .delay 2 ::
            .write (reassertValue s.cfg (endValue s.cfg (readValue s))) ::
            (earlierEvents earlier ++ [.read last, .write (endValue s.cfg (readValue s)), .delay 2,
              .completed (if doBit s.cfg last then .ok else .writeTimeout) 0]))) := by
  have hee : endValue s.cfg (endValue s.cfg (readValue s)) = endValue s.cfg (readValue s) := by
    simp [endValue, driveLines_driveLines h]
  obtain ⟨st, w1, -, w3⟩ := writeWordBody_eq a v (accept s) h
  rw [writeActs_eq] at w1 w3
  obtain ⟨f1, -, -, -, -, f6⟩ := runActs_frame (writeBits s.cfg.aw a v) (accept s) h
  have p := runActs_samePort _ (accept s) (frameActs_straight (writeBits s.cfg.aw a v))
  change (waitBody (runActs (frameActs (writeBits s.cfg.aw a v)) (accept s))).ret = some st at w1
  change writeWordBody a v (accept s) =
    complete st 0 (waitBody (runActs (frameActs (writeBits s.cfg.aw a v)) (accept s))) at w3
  generalize runActs (frameActs (writeBits s.cfg.aw a v)) (accept s) = u at *
  have hcfg : u.cfg = s.cfg := p.cfg
  obtain ⟨earlier, last, g1, g2, g3, g4, g5, g6, -, -, -⟩ := waitBody_spec u (by rw [hcfg]; exact h) _ f1
  obtain ⟨k1, -, -, -, -, k2, k3⟩ := waitBody_frame u
  rw [hcfg] at g1 g2 g3 g4 g5
  have hst : st = (if doBit s.cfg last then .ok else .writeTimeout) := by rw [w1] at g3; exact Option.some.inj g3
  subst hst
  rw [w3]
  refine ⟨⟨g6, rfl, rfl, rfl, rfl, by simp [g5, hee], by simp [g4, hee],
    k3.trans p.moves, k1.trans p.cfg, k2.trans p.attached⟩, rfl, earlier, last, g2, rfl, ?_⟩
  unfold Added; rw [complete_history, g1, f6]; simp [headEvents, hee]

/-- WRITE_ENABLE and WRITE_DISABLE once accepted: a frame that only writes, then OK (R93, R94). -/
theorem frameBody_events (bits : List Bool) (s : State) (h : s.cfg.ok = true) :
    Done s (complete .ok 0 (runActs (frameActs bits) (accept s))) ∧
    (runActs (frameActs bits) (accept s)).deadline = s.deadline ∧
    (runActs (frameActs bits) (accept s)).deadlines = s.deadlines ∧
    Added s (complete .ok 0 (runActs (frameActs bits) (accept s)))
      (headEvents s.cfg (readValue s) bits
        [.write (endValue s.cfg (readValue s)), .delay 2, .completed .ok 0]) := by
  obtain ⟨f1, f2, f3, -, -, f6⟩ := runActs_frame bits (accept s) h
  have p := runActs_samePort _ (accept s) (frameActs_straight bits)
  refine ⟨⟨f3, rfl, rfl, rfl, rfl, f2, f1, p.moves, p.cfg, p.attached⟩, p.deadline, p.deadlines, ?_⟩
  unfold Added; rw [complete_history, f6]; simp [headEvents]

theorem writeEnableBody_eq (s : State) :
    writeEnableBody s = complete .ok 0 (runActs (frameActs (ewenBits s.cfg.aw)) s) := by
  rw [ewenBits, ← ewenActs_eq]; rfl

theorem writeDisableBody_eq (s : State) :
    writeDisableBody s = complete .ok 0 (runActs (frameActs (ewdsBits s.cfg.aw)) s) := by
  rw [ewdsBits, ← ewdsActs_eq]; rfl

end Sys2Proof.Machine
end

