-- ==== Sys2Proof/Laws/Accesses.lean ====
section
/-! SUPPORT. The control register as last written: what every action, sequence and row adds to the history, said of its last
write (R52), and the first access of the rows that begin with START (R82). -/

namespace Sys2Proof.Machine

/-- A run adds events, and the control register holds the last value they write, or is as before where they write none
(R52). -/
def Wrote (s t : State) : Prop := ∃ evs, Added s t evs ∧ t.creg = (writesOf evs).getLast?.getD s.creg

theorem Wrote.refl (s : State) : Wrote s s := ⟨[], rfl, rfl⟩

theorem Wrote.trans {s t u : State} (h : Wrote s t) (k : Wrote t u) : Wrote s u := by
  obtain ⟨es, h1, h2⟩ := h
  obtain ⟨fs, k1, k2⟩ := k
  refine ⟨es ++ fs, by unfold Added at *; rw [k1, h1]; simp, ?_⟩
  rw [k2, h2, writesOf_append]
  cases e : (writesOf fs).getLast? with
  | none => simp [List.getLast?_eq_none_iff.1 e]
  | some w => simp [List.getLast?_append, e]

/-- A run that adds no write keeps the register. -/
theorem Wrote.of_quiet {s t : State} (evs : List Event) (h : Added s t evs) (hw : writesOf evs = [])
    (hc : t.creg = s.creg) : Wrote s t := ⟨evs, h, by simp [hw, hc]⟩

/-- A run whose one event is a write. -/
theorem Wrote.of_write {s t : State} (v : Word32) (h : t.history = .write v :: s.history) (hc : t.creg = v) :
    Wrote s t := ⟨[.write v], by simp [Added, h], by simp [writesOf, hc]⟩

theorem drive_wrote (sk cs di : Option Bool) (s : State) : Wrote s (drive sk cs di s) := by
  cases h : s.ctl with
  | none => rw [drive, h]; exact Wrote.refl s
  | some c => rw [drive_some sk cs di s c h]; exact Wrote.of_write (driveLines s.cfg c sk cs di) (by simp) (by simp)

theorem afterRead_wrote (s : State) : Wrote s (afterRead s) :=
  Wrote.of_quiet [.read (readValue s)] (by simp [Added]) rfl (by simp)

theorem pollStep_wrote (s : State) : Wrote s (pollStep s) := by
  have h := afterRead_wrote s
  unfold pollStep
  dsimp only
  split
  · exact h
  · split <;> exact h

/-- Every single action (R25, R52). -/
theorem runAct_wrote (a : Act) (s : State) : Wrote s (runAct a s) := by
  cases a with
  | loadCtl => exact afterRead_wrote s
  | drive p sk cs di => exact drive_wrote sk cs di s
  | hold p h next => exact Wrote.of_quiet [.delay h.micros] (by simp [runAct, Added]) rfl (by simp [runAct])
  | readMode => exact drive_wrote none none (some true) s
  | sample => exact afterRead_wrote s
  | check =>
    have h : Wrote s (framingRead s) := afterRead_wrote s
    simp only [runAct]
    split <;> exact h
  | reassert =>
    have h := drive_wrote none (some true) (some true) s
    obtain ⟨es, h1, h2⟩ := h
    refine ⟨es, ?_, ?_⟩
    · show (takeDeadline _).history = _
      rw [takeDeadline_history]; exact h1
    · show (takeDeadline _).creg = _
      rw [takeDeadline_creg]; exact h2
  | poll =>
    have h := pollStep_wrote s
    simp only [runAct]
    split <;> exact h
  | yield => exact Wrote.of_quiet [.yield] (by simp [runAct, Added]) rfl (by simp [runAct])
  | complete st => exact Wrote.of_quiet [.completed st 0] rfl rfl rfl
  | completeRead =>
    simp only [runAct]
    split
    · exact Wrote.of_quiet [.completed .ok _] rfl rfl rfl
    · exact Wrote.refl s
  | completeRet =>
    simp only [runAct]
    split
    · exact Wrote.of_quiet [.completed _ 0] rfl rfl rfl
    · exact Wrote.refl s

theorem runActs_wrote (as : List Act) (s : State) : Wrote s (runActs as s) := by
  induction as generalizing s with
  | nil => exact Wrote.refl s
  | cons a as ih => exact (runAct_wrote a s).trans (ih _)

theorem pollLoop_wrote (n : Nat) (s : State) : Wrote s (pollLoop n s) := by
  induction n generalizing s with
  | zero => exact pollStep_wrote s
  | succ n ih =>
    simp only [pollLoop]
    split
    · exact pollStep_wrote s
    · exact (pollStep_wrote s).trans ((runAct_wrote .yield _).trans (ih _))

theorem waitBody_wrote (s : State) : Wrote s (waitBody s) :=
  (runAct_wrote .reassert s).trans ((pollLoop_wrote _ _).trans (runActs_wrote _ _))

theorem sendRead_wrote (a : Word16) (s : State) : Wrote s (sendRead a s) := by
  have h : Wrote s (framingRead (runActs (readHeadActs s.cfg.aw a) s)) :=
    (runActs_wrote _ s).trans (afterRead_wrote (runActs (readHeadActs s.cfg.aw a) s))
  unfold sendRead
  dsimp only
  split
  · exact h.trans (runActs_wrote _ _)
  · exact h.trans (runActs_wrote _ _)

/-! ### START's read comes first -/

/-- A run whose first event is the read that RegRead32 makes now (R82). -/
def ReadsFirst (s t : State) : Prop := ∃ es, Added s t (.read (readValue s) :: es)

theorem ReadsFirst.trans {s t u : State} (h : ReadsFirst s t) (k : Wrote t u) : ReadsFirst s u := by
  obtain ⟨es, h⟩ := h
  obtain ⟨fs, k, -⟩ := k
  exact ⟨es ++ fs, by unfold Added at *; rw [k, h]; simp⟩

theorem runActs_start_readsFirst (as : List Act) (s : State) : ReadsFirst s (runActs (startActs ++ as) s) := by
  have h : ReadsFirst s (runAct .loadCtl s) := ⟨[], by simp [Added, runAct]⟩
  exact h.trans (runActs_wrote _ _)

theorem runActs_frame_readsFirst (bits : List Bool) (s : State) : ReadsFirst s (runActs (frameActs bits) s) := by
  rw [frameActs, List.append_assoc]
  exact runActs_start_readsFirst _ s

theorem sendRead_readsFirst (a : Word16) (s : State) : ReadsFirst s (sendRead a s) := by
  have h : ReadsFirst s (framingRead (runActs (readHeadActs s.cfg.aw a) s)) := by
    rw [readHeadActs_eq]
    exact (runActs_start_readsFirst _ s).trans (afterRead_wrote (runActs (startActs ++ _) s))
  unfold sendRead
  dsimp only
  split
  · exact h.trans (runActs_wrote _ _)
  · exact h.trans (runActs_wrote _ _)

/-! ### Rows -/

/-- Every row (R52). -/
theorem exec_wrote {i : Instr} {s t : State} (h : exec i s = .next t) : Wrote s t := by
  have ac : Wrote s (accept s) := Wrote.of_quiet [] rfl rfl rfl
  obtain ⟨-, -, h⟩ := exec_next h
  rcases h with ⟨-, st, -, rfl⟩ | ⟨-, -, -, h⟩ | ⟨-, -, h⟩ | ⟨-, -, -, h⟩
  · exact runAct_wrote (.complete st) s
  · rcases h with ⟨a, -, rfl⟩ | ⟨a, v, -, rfl⟩ | ⟨-, rfl⟩ | ⟨-, rfl⟩
    · refine ac.trans ?_
      unfold readWordBody
      dsimp only
      split <;> exact (sendRead_wrote a _).trans (runAct_wrote _ _)
    · exact ac.trans ((runActs_wrote _ _).trans ((waitBody_wrote _).trans (runAct_wrote _ _)))
    · exact ac.trans ((runActs_wrote _ _).trans (runAct_wrote _ _))
    · exact ac.trans ((runActs_wrote _ _).trans (runAct_wrote _ _))
  · rcases h with ⟨a, -, rfl⟩ | ⟨a, v, -, rfl⟩ | ⟨-, rfl⟩ | ⟨-, rfl⟩ | ⟨-, rfl⟩ | ⟨-, rfl, -⟩
    · exact sendRead_wrote a s
    all_goals first | exact runActs_wrote _ s | exact waitBody_wrote s
  · rcases h with ⟨v, n, -, rfl⟩ | ⟨n, -, rfl⟩ | ⟨-, rfl⟩ <;> exact runActs_wrote _ s

/-- The write accesses of a run are its writes, in order (R43). -/
theorem accessesOf_writes (cfg : Config) (evs : List Event) :
    (accessesOf cfg evs).filter (·.isWrite) = (writesOf evs).map fun v =>
      { space := cfg.accessMode, address := cfg.ctrlAddr, bytes := 4, isWrite := true, value := v } := by
  induction evs with
  | nil => rfl
  | cons e es ih =>
    simp only [accessesOf] at ih
    cases e <;> simp [accessesOf, List.filterMap_cons, busAccess, writesOf, ih]

end Sys2Proof.Machine
end

