-- ==== Sys2Proof/Laws/Bits.lean ====
section
/-! SUPPORT. Bit strings and numbers: a field sent most significant bit first (R45, R69) and the number read back from it. -/

namespace Sys2Proof

@[simp] theorem msbBits_length (v : Word32) (n : Nat) : (msbBits v n).length = n := by
  induction n with
  | zero => rfl
  | succ n ih => simp [msbBits, ih]

theorem foldl_bits (bits : List Bool) (acc : Nat) :
    bits.foldl (fun acc b => 2 * acc + b.toNat) acc = acc * 2 ^ bits.length + bitsToNat bits := by
  unfold bitsToNat
  induction bits generalizing acc with
  | nil => simp
  | cons b bits ih =>
    rw [List.foldl_cons, ih, List.foldl_cons, ih (2 * 0 + b.toNat), List.length_cons, Nat.pow_succ]
    ring

theorem bitsToNat_cons (b : Bool) (bits : List Bool) :
    bitsToNat (b :: bits) = b.toNat * 2 ^ bits.length + bitsToNat bits := by
  rw [bitsToNat, List.foldl_cons, foldl_bits]
  simp

theorem bitsToNat_bound (bits : List Bool) : bitsToNat bits < 2 ^ bits.length := by
  induction bits with
  | nil => simp [bitsToNat]
  | cons b bits ih =>
    rw [bitsToNat_cons, List.length_cons, Nat.pow_succ]
    cases b <;> simp <;> omega

/-- Reading back the `n` bits sent of a value gives its low `n` bits. -/
theorem bitsToNat_msbBits (v : Word32) (n : Nat) : bitsToNat (msbBits v n) = v.toNat % 2 ^ n := by
  induction n with
  | zero => simp [msbBits, bitsToNat, Nat.mod_one]
  | succ n ih =>
    rw [msbBits, bitsToNat_cons, ih, msbBits_length, BitVec.getLsbD, Nat.toNat_testBit, Nat.mod_pow_succ]
    ring

/-- The bits sent depend on the low `n` bits of the value only (R69). -/
theorem msbBits_congr {v w : Word32} {n : Nat} (h : v.toNat % 2 ^ n = w.toNat % 2 ^ n) : msbBits v n = msbBits w n := by
  induction n with
  | zero => rfl
  | succ n ih =>
    have hb : v.getLsbD n = w.getLsbD n := by
      have := congrArg (fun x => x.testBit n) h
      simpa [BitVec.getLsbD] using this
    have hm : v.toNat % 2 ^ n = w.toNat % 2 ^ n := by
      have := congrArg (· % 2 ^ n) h
      simpa [Nat.mod_mod_of_dvd _ (Nat.pow_dvd_pow 2 (Nat.le_succ n))] using this
    rw [msbBits, msbBits, hb, ih hm]

/-- Equally long bit strings of the same number are equal. -/
theorem bitsToNat_inj {as bs : List Bool} (hl : as.length = bs.length) (h : bitsToNat as = bitsToNat bs) : as = bs := by
  induction as generalizing bs with
  | nil => cases bs <;> simp_all
  | cons a as ih =>
    cases bs with
    | nil => simp at hl
    | cons b bs =>
      have hl' : as.length = bs.length := by simpa using hl
      rw [bitsToNat_cons, bitsToNat_cons, hl'] at h
      have h1 := bitsToNat_bound as
      have h2 := bitsToNat_bound bs
      rw [hl'] at h1
      have hab : a = b := by
        cases a <;> cases b <;> simp at h <;> first | rfl | omega
      subst hab
      rw [ih hl' (by omega)]

/-- Sending the number read from a bit string gives the bit string back. -/
theorem msbBits_bitsToNat (bits : List Bool) (v : Word32) (h : v.toNat = bitsToNat bits) :
    msbBits v bits.length = bits := by
  refine bitsToNat_inj (by simp) ?_
  rw [bitsToNat_msbBits, h, Nat.mod_eq_of_lt (bitsToNat_bound bits)]

end Sys2Proof
end

