-- ==== Sys2Proof/Laws/Memory.lean ====
section
/-! SUPPORT. The laws of the EEPROM's memory: a write keeps the canonical form, reads give what was written, and equal
contents are equal data. -/

namespace Sys2Proof.Machine

/-! ### The canonical form -/

theorem Memory.wfFrom_weaken {lo hi : Nat} {m : Memory} (h : Memory.wfFrom hi m = true) (hle : lo ≤ hi) :
    Memory.wfFrom lo m = true := by
  cases m with
  | nil => rfl
  | cons c m =>
    simp only [Memory.wfFrom, Bool.and_eq_true, decide_eq_true_eq] at h ⊢
    exact ⟨⟨by omega, h.1.2⟩, h.2⟩

theorem Memory.wfFrom_write {lo : Nat} {m : Memory} {a : Nat} {v : Byte} (h : Memory.wfFrom lo m = true) (ha : lo ≤ a) :
    Memory.wfFrom lo (Memory.write m a v) = true := by
  induction m generalizing lo with
  | nil =>
    unfold Memory.write
    split <;> simp_all [Memory.wfFrom]
  | cons c m ih =>
    obtain ⟨k, w⟩ := c
    simp only [Memory.wfFrom, Bool.and_eq_true, decide_eq_true_eq] at h
    obtain ⟨⟨h1, h2⟩, h3⟩ := h
    unfold Memory.write
    split
    · split
      · simp [Memory.wfFrom, h1, h2, h3]
      · rename_i hlt hv
        simp only [Memory.wfFrom, Bool.and_eq_true, decide_eq_true_eq]
        exact ⟨⟨ha, hv⟩, ⟨by omega, h2⟩, h3⟩
    · split
      · split
        · exact Memory.wfFrom_weaken h3 (by omega)
        · rename_i hn he hv
          subst he
          simp [Memory.wfFrom, ha, hv, h3]
      · simp only [Memory.wfFrom, Bool.and_eq_true, decide_eq_true_eq]
        exact ⟨⟨h1, h2⟩, ih h3 (by omega)⟩

/-- Writing a byte keeps the canonical form. -/
theorem Memory.wf_write {m : Memory} (h : Memory.wf m = true) (a : Nat) (v : Byte) :
    Memory.wf (Memory.write m a v) = true := Memory.wfFrom_write h (Nat.zero_le a)

/-- Programming a word keeps the canonical form. -/
theorem Memory.wf_writeWord {m : Memory} (h : Memory.wf m = true) (k : Nat) (v : Word16) :
    Memory.wf (Memory.writeWord m k v) = true := Memory.wf_write (Memory.wf_write h _ _) _ _

/-- The memory after reset is canonical. -/
theorem State.reset_memory_wf : Memory.wf State.reset.part.mem = true := rfl

/-! ### Reading back -/

/-- Nothing is listed below where a canonical list starts. -/
theorem Memory.read_below {lo : Nat} {m : Memory} {a : Nat} (h : Memory.wfFrom lo m = true) (ha : a < lo) :
    Memory.read m a = Memory.unlisted := by
  induction m generalizing lo with
  | nil => rfl
  | cons c m ih =>
    obtain ⟨k, w⟩ := c
    simp only [Memory.wfFrom, Bool.and_eq_true, decide_eq_true_eq] at h
    have : k ≠ a := by omega
    simp only [Memory.read, this, if_false]
    exact ih h.2 (by omega)

/-- Reading after writing one byte. -/
theorem Memory.read_write {m : Memory} (h : Memory.wf m = true) (a b : Nat) (v : Byte) :
    Memory.read (Memory.write m a v) b = if b = a then v else Memory.read m b := by
  unfold Memory.wf at h
  generalize 0 = lo at h
  induction m generalizing lo with
  | nil =>
    unfold Memory.write
    by_cases hab : b = a
    · split <;> simp_all [Memory.read]
    · split <;> simp [Memory.read, Ne.symm hab]
  | cons c m ih =>
    obtain ⟨k, w⟩ := c
    simp only [Memory.wfFrom, Bool.and_eq_true, decide_eq_true_eq] at h
    obtain ⟨⟨h1, h2⟩, h3⟩ := h
    unfold Memory.write
    split
    · rename_i hlt
      split
      · rename_i hv
        split
        · rename_i he
          subst he
          have : Memory.read m b = Memory.unlisted := Memory.read_below h3 (by omega)
          have hk : k ≠ b := by omega
          simp [Memory.read, hk, this, hv]
        · rfl
      · simp only [Memory.read]
        by_cases hab : a = b
        · simp [hab]
        · simp [hab, Ne.symm hab]
    · split
      · rename_i hn he
        subst he
        split
        · rename_i hv
          by_cases hab : b = a
          · subst hab
            simp [hv, Memory.read_below h3 (Nat.lt_succ_self _)]
          · simp [Memory.read, hab, Ne.symm hab]
        · by_cases hab : b = a
          · simp [Memory.read, hab]
          · simp [Memory.read, hab, Ne.symm hab]
      · rename_i hn hne
        simp only [Memory.read]
        by_cases hkb : k = b
        · have : b ≠ a := by omega
          simp [hkb, this]
        · simp only [hkb, if_false]
          exact ih _ h3

/-- The bytes outside the programmed word stay, whatever the form of the list. -/
theorem Memory.read_write_ne (m : Memory) (a b : Nat) (v : Byte) (hb : b ≠ a) :
    Memory.read (Memory.write m a v) b = Memory.read m b := by
  induction m with
  | nil =>
    unfold Memory.write
    split <;> simp [Memory.read, Ne.symm hb]
  | cons c m ih =>
    obtain ⟨k, w⟩ := c
    unfold Memory.write
    split
    · split <;> simp [Memory.read, Ne.symm hb]
    · split
      · rename_i hn he
        subst he
        split <;> simp [Memory.read, Ne.symm hb]
      · simp [Memory.read, ih]

theorem Memory.read_writeWord_ne (m : Memory) (k b : Nat) (v : Word16) (hb : ¬ inWord k b) :
    Memory.read (Memory.writeWord m k v) b = Memory.read m b := by
  unfold inWord at hb
  unfold Memory.writeWord
  rw [Memory.read_write_ne _ _ _ _ (by omega), Memory.read_write_ne _ _ _ _ (by omega)]

theorem word_of_bytes (v : Word16) :
    (((v >>> 8).setWidth 8 : Byte) ++ (v.setWidth 8 : Byte) : BitVec (8 + 8)) = v := by
  refine BitVec.eq_of_getLsbD_eq fun i hi => ?_
  rw [BitVec.getLsbD_append]
  by_cases h : i < 8
  · simp [h]
  · have h1 : i - 8 < 8 := by omega
    have h2 : 8 + (i - 8) = i := by omega
    simp [h, h1, h2]

/-! ### Where entries lie -/

/-- An entry after a write is an old one or the written byte's. -/
theorem Memory.mem_write {m : Memory} {a : Nat} {v : Byte} {c : Host.Cell} (h : c ∈ Memory.write m a v) :
    c ∈ m ∨ c.1 = a := by
  induction m with
  | nil =>
    unfold Memory.write at h
    split at h <;> simp_all
  | cons d m ih =>
    obtain ⟨k, w⟩ := d
    unfold Memory.write at h
    split at h
    · split at h
      · exact .inl h
      · rcases List.mem_cons.1 h with rfl | h
        · exact .inr rfl
        · exact .inl h
    · split at h
      · split at h
        · exact .inl (List.mem_cons_of_mem _ h)
        · rcases List.mem_cons.1 h with rfl | h
          · exact .inr rfl
          · exact .inl (List.mem_cons_of_mem _ h)
      · rcases List.mem_cons.1 h with rfl | h
        · exact .inl (List.mem_cons_self ..)
        · rcases ih h with h | h
          · exact .inl (List.mem_cons_of_mem _ h)
          · exact .inr h

/-- An entry after programming a word is an old one or one of the word's. -/
theorem Memory.mem_writeWord {m : Memory} {k : Nat} {v : Word16} {c : Host.Cell} (h : c ∈ Memory.writeWord m k v) :
    c ∈ m ∨ inWord k c.1 := by
  rcases Memory.mem_write h with h | h
  · rcases Memory.mem_write h with h | h
    · exact .inl h
    · exact .inr (.inl h)
  · exact .inr (.inr h)

end Sys2Proof.Machine
end

