-- ==== Sys2Proof/Laws/Oracle.lean ====
section
/-! SUPPORT. With an oracle for DO, the reads of a run are the scripted answers in order, as far as the script goes (R53). -/

namespace Sys2Proof.Machine

/-- With an oracle for DO: the script before is the reads made followed by the script after, where the script is long
enough. -/
def Follows (s t : State) : Prop :=
  ∃ evs, Added s t evs ∧ ((readsOf evs).length ≤ s.answers.length → s.answers = readsOf evs ++ t.answers)

theorem Follows.refl (s : State) : Follows s s := ⟨[], by simp [Added], by simp [readsOf]⟩

theorem Follows.trans {s t u : State} (h : Follows s t) (k : Follows t u) : Follows s u := by
  obtain ⟨es, e1, e2⟩ := h
  obtain ⟨fs, f1, f2⟩ := k
  refine ⟨es ++ fs, ?_, ?_⟩
  · unfold Added at *
    rw [f1, e1]; simp
  · intro hl
    simp only [readsOf_append, List.length_append] at hl
    have h1 := e2 (by omega)
    have h2 : (readsOf fs).length ≤ t.answers.length := by
      have := congrArg List.length h1
      simp only [List.length_append] at this
      omega
    rw [h1, readsOf_append, List.append_assoc, ← f2 h2]

theorem partDout_oracle (s : State) (h : s.attached = .oracle) : partDout s = none := by
  simp [partDout, partSelected, h]

theorem readValue_oracle (s : State) (h : s.attached = .oracle) : readValue s = nextAnswer s := by
  simp [readValue, partDout_oracle s h]

theorem afterRead_answers (s : State) : (afterRead s).answers = (takeAnswer s).answers := by
  simp only [afterRead]
  unfold takeAnswer; simp only [record_answers]; split <;> rfl

/-- A read takes the next scripted answer (R53). -/
theorem afterRead_follows (s t : State) (h : s.attached = .oracle) (h1 : t.history = .read (readValue s) :: s.history)
    (h2 : t.answers = (afterRead s).answers) : Follows s t := by
  refine ⟨[.read (readValue s)], by simp [Added, h1], ?_⟩
  intro hl
  rw [h2, afterRead_answers, readValue_oracle s h]
  simp only [readsOf, nextAnswer, takeAnswer] at *
  cases ha : s.answers with
  | nil => simp [ha] at hl
  | cons r rs => simp

/-- An action that makes no read keeps the script. -/
theorem noRead_follows (s t : State) (evs : List Event) (h1 : t.history = evs ++ s.history) (h2 : readsOf evs.reverse = [])
    (h3 : t.answers = s.answers) : Follows s t :=
  ⟨evs.reverse, by simp [Added, h1], fun _ => by simp [h2, h3]⟩

theorem drive_follows (sk cs di : Option Bool) (s : State) : Follows s (drive sk cs di s) := by
  cases hc : s.ctl with
  | none =>
    have : drive sk cs di s = s := by simp [drive, hc]
    rw [this]; exact Follows.refl s
  | some c =>
    exact noRead_follows _ _ [.write (driveLines s.cfg c sk cs di)] (by rw [drive_some (c := c) (h := hc)]; simp) rfl
      (by simp)

theorem pollStep_follows (s : State) (h : s.attached = .oracle) : Follows s (pollStep s) :=
  afterRead_follows s _ h (by simp) (by simp)

theorem runAct_follows (a : Act) (s : State) (h : s.attached = .oracle) : Follows s (runAct a s) := by
  cases a with
  | loadCtl => exact afterRead_follows s _ h (by simp [runAct]) rfl
  | drive p sk cs di => exact drive_follows sk cs di s
  | hold p k next => exact noRead_follows s _ [.delay k.micros] (by simp [runAct]) rfl (by simp [runAct])
  | readMode =>
    obtain ⟨es, h1, h2⟩ := drive_follows none none (some true) s
    exact ⟨es, h1, h2⟩
  | sample => exact afterRead_follows s _ h (by simp [runAct]) rfl
  | check =>
    refine afterRead_follows s _ h ?_ ?_ <;> simp only [runAct] <;> split <;> simp [framingRead]
  | reassert =>
    obtain ⟨es, h1, h2⟩ := drive_follows none (some true) (some true) s
    refine ⟨es, by simpa [Added, runAct, waitBegin] using h1, ?_⟩
    simpa [runAct, waitBegin] using h2
  | poll =>
    obtain ⟨es, h1, h2⟩ := pollStep_follows s h
    refine ⟨es, ?_, ?_⟩ <;> simp only [runAct, Added] at * <;> split <;> assumption
  | yield => exact noRead_follows s _ [.yield] (by simp [runAct]) rfl (by simp [runAct])
  | complete st => exact noRead_follows s _ [.completed st 0] rfl rfl rfl
  | completeRead =>
    simp only [runAct]
    split
    · exact noRead_follows s _ [.completed .ok _] rfl rfl rfl
    · exact Follows.refl s
  | completeRet =>
    simp only [runAct]
    split
    · exact noRead_follows s _ [.completed _ 0] rfl rfl rfl
    · exact Follows.refl s

theorem runActs_follows (as : List Act) (s : State) (h : s.attached = .oracle) (hs : ∀ a ∈ as, a.straight = true) :
    Follows s (runActs as s) := by
  induction as generalizing s with
  | nil => exact Follows.refl s
  | cons a as ih =>
    refine (runAct_follows a s h).trans (ih _ ?_ fun b hb => hs b (by simp [hb]))
    rw [(runAct_samePort a s (hs a (by simp))).attached, h]

theorem pollLoop_follows (n : Nat) (s : State) (h : s.attached = .oracle) : Follows s (pollLoop n s) := by
  induction n generalizing s with
  | zero => exact pollStep_follows s h
  | succ n ih =>
    unfold pollLoop
    dsimp only
    split
    · exact pollStep_follows s h
    · refine (pollStep_follows s h).trans ((runAct_follows .yield _ (by simp [h])).trans (ih _ (by simp [runAct, h])))

theorem waitBody_follows (s : State) (h : s.attached = .oracle) : Follows s (waitBody s) := by
  refine (runAct_follows .reassert s h).trans ((pollLoop_follows _ _ ?_).trans (runActs_follows endActs _ ?_ endActs_straight))
  · simp [runAct, h]
  · simp [runAct, h]

theorem sendRead_follows (a : Word16) (s : State) (h : s.attached = .oracle) : Follows s (sendRead a s) := by
  have h1 := runActs_follows _ s h (readHead_straight s.cfg.aw a)
  have h2 := (runActs_samePort _ s (readHead_straight s.cfg.aw a)).attached
  have h3 := afterRead_follows (runActs (readHeadActs s.cfg.aw a) s) (framingRead (runActs (readHeadActs s.cfg.aw a) s))
    (by rw [h2, h]) (by simp) rfl
  have h4 : (framingRead (runActs (readHeadActs s.cfg.aw a) s)).attached = .oracle := by simp [h2, h]
  unfold sendRead
  dsimp only
  split
  · exact h1.trans (h3.trans (runActs_follows _ _ h4 readTail_straight))
  · exact h1.trans (h3.trans (runActs_follows _ _ h4 endActs_straight))

/-- The poll loop on a script: it ends at the first answer with DO = 1, or at the poll whose deadline test answers true
(R95, R121). -/
theorem pollLoop_script (zeros : List Word32) (n : Nat) (s : State) (last : Word32) (rest : List Word32)
    (ho : s.attached = .oracle) (hr : s.ret = none) (hd : s.deadline = n) (ha : s.answers = zeros ++ last :: rest)
    (hz : ∀ r ∈ zeros, doBit s.cfg r = false) (hl : zeros.length ≤ n)
    (hor : doBit s.cfg last = true ∨ zeros.length = n) :
    (pollLoop n s).history = (earlierEvents zeros ++ [Event.read last]).reverse ++ s.history ∧
    (pollLoop n s).ret = some (if doBit s.cfg last then .ok else .writeTimeout) ∧
    (pollLoop n s).answers = rest := by
  induction zeros generalizing n s with
  | nil =>
    have hv : readValue s = last := by rw [readValue_oracle s ho]; simp [nextAnswer, ha]
    have hans : (afterRead s).answers = rest := by rw [afterRead_answers]; simp [takeAnswer, ha]
    have hstep : (pollStep s).ret = some (if doBit s.cfg last then .ok else .writeTimeout) := by
      rw [pollStep_ret s hr, hv]
      rcases hor with h | h
      · simp [h]
      · have : s.deadline = 0 := by simp at h; omega
        simp only [this, if_true]; split <;> rfl
    have e : pollLoop n s = pollStep s := by
      cases n with
      | zero => rfl
      | succ n => simp [pollLoop, hstep]
    rw [e]
    exact ⟨by simp [earlierEvents, hv], hstep, by simp [hans]⟩
  | cons z zs ih =>
    cases n with
    | zero => simp at hl
    | succ n =>
      have hv : readValue s = z := by rw [readValue_oracle s ho]; simp [nextAnswer, ha]
      have hb : doBit s.cfg (readValue s) = false := by rw [hv]; exact hz z (by simp)
      have hans : (afterRead s).answers = zs ++ last :: rest := by rw [afterRead_answers]; simp [takeAnswer, ha]
      have h1 : (pollStep s).ret = none := by rw [pollStep_ret s hr]; simp [hb, hd]
      have h2 : (pollStep s).deadline = n := by rw [pollStep_deadline s hb, hd]; rfl
      have e : pollLoop (n + 1) s = pollLoop n (runAct .yield (pollStep s)) := by simp [pollLoop, h1]
      obtain ⟨i1, i2, i3⟩ := ih n (runAct .yield (pollStep s)) (by simp [runAct, ho]) (by simp [runAct, h1])
        (by simp [runAct, h2]) (by simp [runAct, hans])
        (fun r hr' => by simpa [runAct] using hz r (by simp [hr'])) (by simpa using hl) (by simpa [runAct] using hor)
      rw [e]
      refine ⟨?_, by rw [i2]; simp [runAct], i3⟩
      rw [i1]; simp [runAct, earlierEvents, hv]

/-- With an oracle for DO the part is left alone (R53). -/
theorem runAct_part_oracle (a : Act) (s : State) (h : s.attached = .oracle) : (runAct a s).part = s.part := by
  have hd : ∀ sk cs di, (drive sk cs di s).part = s.part := by
    intro sk cs di
    unfold drive
    split
    · rfl
    · simp only [regWrite]
      rw [setLines_oracle _ _ (by simpa using h)]
      rfl
  cases a with
  | poll => simp only [runAct]; split <;> simp
  | check => simp only [runAct]; split <;> simp
  | reassert =>
    simp only [runAct, waitBegin]
    rw [takeDeadline_part]; exact hd _ _ _
  | completeRead => simp only [runAct]; split <;> rfl
  | completeRet => simp only [runAct]; split <;> rfl
  | loadCtl => exact afterRead_part s
  | sample => exact afterRead_part s
  | drive p sk cs di => exact hd sk cs di
  | readMode => exact hd _ _ _
  | hold p k next => simp [runAct, partStep_oracle _ (show (record (.delay k.micros) s).attached = _ from h)]
  | yield => simp [runAct, partStep_oracle _ (show (record .yield s).attached = _ from h)]
  | complete st => rfl

end Sys2Proof.Machine
end

