-- ==== Sys2Proof/Laws/Part.lean ====
section
/-! SUPPORT. The reference part along a sequence (R127 to R135): what a write of the lines does to it, and what it holds
after START, after clocked bits, after samples and after END. -/

namespace Sys2Proof.Machine

/-! ### One write of the lines -/

/-- With CS high the part sees only a rising SK edge (R131). -/
theorem setLines_selected (v : Word32) (s : State) (ha : s.attached = .reference) (hcs : level s.cfg v .cs = true) :
    setLines v s =
      { s with
        creg := v
        part := if !level s.cfg s.creg .sk && level s.cfg v .sk then Part.clock (level s.cfg v .di) s.part
          else s.part } := by
  rw [setLines_reference v s ha]
  unfold partObserve
  simp only [hcs, if_true]
  split <;> rfl

/-- What a falling CS edge does depends on the configuration, the part and the programming times alone (R129). -/
theorem partFrameEnd_congr {s t : State} (h1 : t.cfg = s.cfg) (h2 : t.part = s.part) (h3 : t.progTimes = s.progTimes)
    (h4 : t.draws = s.draws) :
    (partFrameEnd t).part = (partFrameEnd s).part ∧ (partFrameEnd t).progTimes = (partFrameEnd s).progTimes := by
  have hn : nextProgTime t = nextProgTime s := by unfold nextProgTime; rw [h3, h4]
  have ht : (takeProgTime t).progTimes = (takeProgTime s).progTimes := by
    unfold takeProgTime
    cases hp : s.progTimes <;> simp [h3, hp]
  unfold partFrameEnd
  rw [h1, h2, hn]
  cases Part.pendingWrite s.cfg.aw s.part with
  | none => exact ⟨rfl, h3⟩
  | some x => exact ⟨rfl, ht⟩

/-- With CS going low the frame ends; with CS low already nothing happens but that the part waits (R129, R131). -/
theorem setLines_deselected (v : Word32) (s : State) (ha : s.attached = .reference) (hcs : level s.cfg v .cs = false) :
    (setLines v s).part =
      { (if level s.cfg s.creg .cs then partFrameEnd s else s).part with cmd := .waiting } ∧
    (setLines v s).progTimes = (if level s.cfg s.creg .cs then partFrameEnd s else s).progTimes := by
  have k := partFrameEnd_congr (s := s) (t := { s with creg := v }) rfl rfl rfl rfl
  rw [setLines_reference v s ha]
  unfold partObserve
  simp only [hcs, Bool.false_eq_true, if_false]
  by_cases ho : level s.cfg s.creg .cs = true
  · simp [ho, k.1, k.2]
  · simp [ho]

/-! ### The part's own steps -/

/-- `n` steps of the part's own (R115 item 4, R130). -/
def Part.ticks : Nat → Part → Part
  | 0, p => p
  | n + 1, p => Part.ticks n (Part.tick p)

theorem ticks_succ (n : Nat) (p : Part) : Part.ticks (n + 1) p = Part.tick (Part.ticks n p) := by
  induction n generalizing p with
  | zero => rfl
  | succ n ih => exact ih (Part.tick p)

theorem ticks_ticks (m n : Nat) (p : Part) : Part.ticks m (Part.ticks n p) = Part.ticks (n + m) p := by
  induction m with
  | zero => rfl
  | succ m ih => rw [ticks_succ, ih, ← Nat.add_assoc, ticks_succ]

/-- A part that programs nothing is left as it is (R130). -/
theorem tick_idle (p : Part) (h : p.programming = none) : Part.tick p = p := by simp [Part.tick, h]

theorem ticks_idle (n : Nat) (p : Part) (h : p.programming = none) : Part.ticks n p = p := by
  induction n with
  | zero => rfl
  | succ n ih => rw [ticks_succ, ih, tick_idle p h]

theorem tick_cmd (p : Part) : (Part.tick p).cmd = p.cmd := by
  unfold Part.tick Part.finishProgramming
  split
  · rfl
  · split <;> rfl

theorem tick_we (p : Part) : (Part.tick p).we = p.we := by
  unfold Part.tick Part.finishProgramming
  split
  · rfl
  · split <;> rfl

theorem ticks_cmd (n : Nat) (p : Part) : (Part.ticks n p).cmd = p.cmd := by
  induction n with
  | zero => rfl
  | succ n ih => rw [ticks_succ, tick_cmd, ih]

theorem ticks_we (n : Nat) (p : Part) : (Part.ticks n p).we = p.we := by
  induction n with
  | zero => rfl
  | succ n ih => rw [ticks_succ, tick_we, ih]

/-- A step of the part's own does not depend on the command shifted in. -/
theorem tick_withCmd (c : PartCmd) (p : Part) : Part.tick { p with cmd := c } = { Part.tick p with cmd := c } := by
  unfold Part.tick Part.finishProgramming
  dsimp only
  split
  · rfl
  · split <;> rfl

/-- Outside the start bit a clock edge and a step of the part's own may come in either order (R131). -/
theorem clock_tick (b : Bool) (p : Part) (h : p.cmd ≠ .waiting) :
    Part.clock b (Part.tick p) = Part.tick (Part.clock b p) := by
  have hc := tick_cmd p
  unfold Part.clock
  rw [hc]
  cases hp : p.cmd with
  | waiting => exact absurd hp h
  | shifting bits => exact (tick_withCmd _ p).symm
  | lost => rfl

/-- A part that programs for `time` more steps before the last one holds the word after `time + 1` of them (R129, R130). -/
theorem ticks_program (a : Nat) (v : Word16) (time n : Nat) (p : Part) (h : p.programming = none) :
    Part.ticks n (Part.program a v time p) =
      if n ≤ time then Part.program a v (time - n) p else { p with mem := Memory.writeWord p.mem a v } := by
  induction n with
  | zero => simp [Part.ticks]
  | succ n ih =>
    rw [ticks_succ, ih]
    by_cases h1 : n + 1 ≤ time
    · have h2 : n ≤ time := by omega
      have h3 : ¬ time - n = 0 := by omega
      rw [if_pos h1, if_pos h2]
      simp only [Part.tick, Part.program, h3, if_false]
      rfl
    · rw [if_neg h1]
      by_cases h2 : n ≤ time
      · have h3 : time - n = 0 := by omega
        rw [if_pos h2]
        simp [Part.tick, Part.program, Part.finishProgramming, h3, h]
      · rw [if_neg h2]
        exact tick_idle _ h

/-- A step of the part's own keeps every byte but those of the word being programmed (R129). -/
theorem tick_read (p : Part) (x : Nat) (h : ¬ inPendingWord p x) :
    Memory.read (Part.tick p).mem x = Memory.read p.mem x := by
  unfold Part.tick
  split
  · rfl
  · rename_i g hg
    split
    · exact Memory.read_writeWord_ne _ _ _ _ fun k => h ⟨g, hg, k⟩
    · rfl

/-- The word being programmed stays the same one until it is done (R129). -/
theorem tick_pending (p : Part) (x : Nat) (h : inPendingWord (Part.tick p) x) : inPendingWord p x := by
  obtain ⟨g, hg, hx⟩ := h
  unfold Part.tick at hg
  split at hg
  · exact ⟨g, hg, hx⟩
  · rename_i g' hg'
    split at hg
    · cases hg
    · simp only [Option.some.injEq] at hg
      subst hg
      exact ⟨g', hg', hx⟩

theorem ticks_read (n : Nat) (p : Part) (x : Nat) (h : ¬ inPendingWord p x) :
    Memory.read (Part.ticks n p).mem x = Memory.read p.mem x := by
  induction n generalizing p with
  | zero => rfl
  | succ n ih => exact (ih (Part.tick p) fun k => h (tick_pending p x k)).trans (tick_read p x h)

theorem partStep_part (s : State) (ha : s.attached = .reference) : (partStep s).part = Part.tick s.part := by
  rw [partStep_reference s ha]

/-! ### The drive action -/

theorem drive_part_selected (sk cs di : Option Bool) (s : State) (c : Word32) (hc : s.ctl = some c)
    (ha : s.attached = .reference) (hcs : level s.cfg (driveLines s.cfg c sk cs di) .cs = true) :
    (drive sk cs di s).part =
      (if !level s.cfg s.creg .sk && level s.cfg (driveLines s.cfg c sk cs di) .sk
       then Part.clock (level s.cfg (driveLines s.cfg c sk cs di) .di) s.part else s.part) ∧
    (drive sk cs di s).progTimes = s.progTimes ∧ (drive sk cs di s).draws = s.draws := by
  have e : drive sk cs di s =
      regWrite (driveLines s.cfg c sk cs di) { s with ctl := some (driveLines s.cfg c sk cs di) } := by
    unfold drive; rw [hc]
  rw [e, regWrite, setLines_selected _ _ (by simpa using ha) (by simpa using hcs)]
  simp

theorem drive_part_deselected (sk cs di : Option Bool) (s : State) (c : Word32) (hc : s.ctl = some c)
    (ha : s.attached = .reference) (hcs : level s.cfg (driveLines s.cfg c sk cs di) .cs = false) :
    (drive sk cs di s).part =
      { (if level s.cfg s.creg .cs then partFrameEnd s else s).part with cmd := .waiting } ∧
    (drive sk cs di s).progTimes = (if level s.cfg s.creg .cs then partFrameEnd s else s).progTimes := by
  have e : drive sk cs di s =
      regWrite (driveLines s.cfg c sk cs di) { s with ctl := some (driveLines s.cfg c sk cs di) } := by
    unfold drive; rw [hc]
  have k := setLines_deselected (driveLines s.cfg c sk cs di)
    (record (.write (driveLines s.cfg c sk cs di)) { s with ctl := some (driveLines s.cfg c sk cs di) })
    (by simpa using ha) (by simpa using hcs)
  have f := partFrameEnd_congr (s := s)
    (t := record (.write (driveLines s.cfg c sk cs di)) { s with ctl := some (driveLines s.cfg c sk cs di) })
    rfl rfl rfl rfl
  rw [e, regWrite, k.1, k.2]
  by_cases hl : level s.cfg s.creg .cs = true
  · simp [hl, f.1, f.2]
  · simp [hl]

/-! ### START, bits, samples, END -/

/-- One SK pulse with CS high: the part is clocked once with the DI level of the falling write, between the steps of its own
that the two holds give it time for (R63, R130, R131). -/
theorem runActs_pulse_part (cs di : Option Bool) (q1 q2 q3 q4 : Phase) (h1 h2 : Hold) (n1 n2 : Option Phase) (s : State)
    (h : s.cfg.ok = true) (ha : s.attached = .reference) (c : Word32) (hc : s.ctl = some c)
    (hcs : level s.cfg (driveLines s.cfg c (some false) cs di) .cs = true) :
    (runActs [.drive q1 (some false) cs di, .hold q2 h1 n1, .drive q3 (some true) none none, .hold q4 h2 n2] s).part =
      Part.tick (Part.clock (level s.cfg (driveLines s.cfg c (some false) cs di) .di) (Part.tick s.part)) ∧
    (runActs [.drive q1 (some false) cs di, .hold q2 h1 n1, .drive q3 (some true) none none, .hold q4 h2 n2]
      s).progTimes = s.progTimes ∧
    (runActs [.drive q1 (some false) cs di, .hold q2 h1 n1, .drive q3 (some true) none none, .hold q4 h2 n2] s).draws =
      s.draws := by
  have l2 : level s.cfg (driveLines s.cfg c (some false) cs di) .sk = false := by rw [level_driveLines_sk h]; rfl
  obtain ⟨u, hu⟩ : ∃ u, u = runAct (.hold q2 h1 n1) (drive (some false) cs di s) := ⟨_, rfl⟩
  have d1 := drive_part_selected (some false) cs di s c hc ha hcs
  have x1 := drive_some (some false) cs di s c hc
  have u1 : u.part = Part.tick s.part := by
    rw [hu]
    simp only [runAct, delay_eq]
    rw [partStep_part _ (by simpa using ha), record_part, d1.1]
    simp [l2]
  have u2 : u.progTimes = s.progTimes := by rw [hu]; simpa [runAct] using d1.2.1
  have u3 : u.draws = s.draws := by rw [hu]; simpa [runAct] using d1.2.2
  have u4 : u.cfg = s.cfg := by rw [hu]; simp [runAct]
  have u5 : u.attached = .reference := by rw [hu]; simp [runAct, ha]
  have u6 : u.ctl = some (driveLines s.cfg c (some false) cs di) := by rw [hu, x1]; simp [runAct]
  have u7 : u.creg = driveLines s.cfg c (some false) cs di := by rw [hu, x1]; simp [runAct]
  have d2 := drive_part_selected (some true) none none u _ u6 u5 (by rw [u4, level_driveLines_cs h]; exact hcs)
  have m2 : level s.cfg (driveLines s.cfg (driveLines s.cfg c (some false) cs di) (some true) none none) .sk = true := by
    rw [level_driveLines_sk h]; rfl
  have m3 : level s.cfg (driveLines s.cfg (driveLines s.cfg c (some false) cs di) (some true) none none) .di =
      level s.cfg (driveLines s.cfg c (some false) cs di) .di := by rw [level_driveLines_di h]; rfl
  rw [u1, u2, u3, u4, u7, l2, m2, m3] at d2
  have e : runActs [.drive q1 (some false) cs di, .hold q2 h1 n1, .drive q3 (some true) none none, .hold q4 h2 n2] s =
      runAct (.hold q4 h2 n2) (drive (some true) none none u) := by rw [hu]; rfl
  rw [e]
  simp only [runAct, delay_eq]
  refine ⟨?_, by simpa using d2.2.1, by simpa using d2.2.2⟩
  rw [partStep_part _ (by simpa using u5), record_part, d2.1]
  rfl

/-- START clocks a 1 into the part (R82, R131). -/
theorem runActs_start_part (s : State) (h : s.cfg.ok = true) (ha : s.attached = .reference) :
    (runActs startActs s).part = Part.tick (Part.clock true (Part.tick s.part)) ∧
    (runActs startActs s).progTimes = s.progTimes := by
  obtain ⟨u, hu⟩ : ∃ u, u = runAct .loadCtl s := ⟨_, rfl⟩
  have u1 : u.cfg = s.cfg := by rw [hu]; simp [runAct]
  have u2 : u.ctl = some (readValue s) := by rw [hu]; rfl
  have u3 : u.attached = .reference := by rw [hu]; simp [runAct, ha]
  have p := runActs_pulse_part (some true) (some true) .idle .idle .idle .idle .settle .settle none
    (some .commandActive) u (by rw [u1]; exact h) u3 _ u2 (by rw [u1, level_driveLines_cs h]; rfl)
  rw [u1, level_driveLines_di h] at p
  have e : runActs startActs s = runActs [.drive .idle (some false) (some true) (some true), .hold .idle .settle none,
      .drive .idle (some true) none none, .hold .idle .settle (some .commandActive)] u := by rw [hu]; rfl
  rw [e, p.1, p.2.1, hu]
  exact ⟨by simp [runAct], by simp [runAct]⟩

/-- One clocked bit with CS high reaches the part (R63, R131). -/
theorem runActs_bit_part (b : Bool) (s : State) (h : s.cfg.ok = true) (ha : s.attached = .reference) (c : Word32)
    (hc : s.ctl = some c) (hcs : level s.cfg c .cs = true) :
    (runActs (bitActs b) s).part = Part.tick (Part.clock b (Part.tick s.part)) ∧
    (runActs (bitActs b) s).progTimes = s.progTimes ∧ (runActs (bitActs b) s).draws = s.draws := by
  have p := runActs_pulse_part none (some b) .commandActive .commandActive .commandActive .commandActive .plain .plain
    none none s h ha c hc (by rw [level_driveLines_cs h]; exact hcs)
  rw [level_driveLines_di h] at p
  exact p

/-- Clocking keeps a part past its start bit there. -/
theorem clock_notWaiting (b : Bool) (p : Part) (h : p.cmd ≠ .waiting) : (Part.clock b p).cmd ≠ .waiting := by
  unfold Part.clock
  cases hp : p.cmd with
  | waiting => exact absurd hp h
  | shifting bits => simp
  | lost => simp [hp]

theorem clock_ticks (b : Bool) (n : Nat) (p : Part) (h : p.cmd ≠ .waiting) :
    Part.clock b (Part.ticks n p) = Part.ticks n (Part.clock b p) := by
  induction n with
  | zero => rfl
  | succ n ih => rw [ticks_succ, clock_tick _ _ (by rw [ticks_cmd]; exact h), ih, ticks_succ]

theorem foldl_clock_ticks (bits : List Bool) (n : Nat) (p : Part) (h : p.cmd ≠ .waiting) :
    bits.foldl (fun p b => Part.clock b p) (Part.ticks n p) = Part.ticks n (bits.foldl (fun p b => Part.clock b p) p) := by
  induction bits generalizing p with
  | nil => rfl
  | cons b bits ih =>
    rw [List.foldl_cons, clock_ticks b n p h, ih _ (clock_notWaiting b p h)]
    rfl

/-- Clocked bits with CS high reach a part that is past its start bit one by one, with two steps of its own a bit (R63,
R130, R131). -/
theorem runActs_clock_part (bits : List Bool) (s : State) (h : s.cfg.ok = true) (ha : s.attached = .reference)
    (c : Word32) (hc : s.ctl = some c) (hcs : level s.cfg c .cs = true) (hw : s.part.cmd ≠ .waiting) :
    (runActs (clockActs bits) s).part = Part.ticks (2 * bits.length) (bits.foldl (fun p b => Part.clock b p) s.part) ∧
    (runActs (clockActs bits) s).progTimes = s.progTimes ∧ (runActs (clockActs bits) s).draws = s.draws := by
  induction bits generalizing s c with
  | nil => exact ⟨rfl, rfl, rfl⟩
  | cons b bits ih =>
    obtain ⟨p1, p2, p3⟩ := runActs_bit_part b s h ha c hc hcs
    rw [clock_tick b _ hw] at p1
    have p1 : (runActs (bitActs b) s).part = Part.ticks 2 (Part.clock b s.part) := p1
    have hw' := clock_notWaiting b _ hw
    obtain ⟨h1, -, -, h4⟩ := runActs_bit s h c hc b
    have hat := (runActs_samePort (bitActs b) s (by simp [bitActs, Act.straight])).attached
    obtain ⟨i1, i2, i3⟩ := ih (runActs (bitActs b) s) (by rw [h4]; exact h) (by rw [hat]; exact ha) _ h1
      (by rw [h4, level_driveLines_cs h]; simpa using hcs) (by rw [p1, ticks_cmd]; exact hw')
    have e : runActs (clockActs (b :: bits)) s = runActs (clockActs bits) (runActs (bitActs b) s) := by
      simp [clockActs, runActs_append]
    rw [e, i1, i2, i3, p1, p2, p3, foldl_clock_ticks _ _ _ hw', ticks_ticks, List.length_cons, List.foldl_cons]
    exact ⟨by rw [Nat.mul_add, Nat.add_comm], rfl, rfl⟩

/-- END from a selected part: the frame ends, and the hold gives the part a step of its own (R85, R129). -/
theorem runActs_end_part (s : State) (h : s.cfg.ok = true) (ha : s.attached = .reference) (c : Word32)
    (hc : s.ctl = some c) :
    (runActs endActs s).part =
      { Part.tick (if level s.cfg s.creg .cs then partFrameEnd s else s).part with cmd := .waiting } ∧
    (runActs endActs s).progTimes = (if level s.cfg s.creg .cs then partFrameEnd s else s).progTimes := by
  have l1 := level_driveLines_cs h c (some false) (some false) (some false)
  have d := drive_part_deselected (some false) (some false) (some false) s c hc ha l1
  simp only [endActs, runActs_cons, runActs_nil, runAct, delay_eq]
  refine ⟨?_, by simpa using d.2⟩
  rw [partStep_part _ (by simpa using ha), record_part, d.1, tick_withCmd]

/-! ### The part's own state machine -/

/-- Bits clocked into a part that shifts are shifted in (R131). -/
theorem foldl_clock_shifting (bits taken : List Bool) (p : Part) (hp : p.cmd = .shifting taken) :
    bits.foldl (fun p b => Part.clock b p) p = { p with cmd := .shifting (taken ++ bits) } := by
  induction bits generalizing taken p with
  | nil => cases p; simp_all
  | cons b bits ih =>
    rw [List.foldl_cons, ih (taken ++ [b]) (Part.clock b p) (by simp [Part.clock, hp])]
    simp [Part.clock, hp]

/-- Bits clocked into a part that missed its start bit are lost (log entry 11). -/
theorem foldl_clock_lost (bits : List Bool) (p : Part) (hp : p.cmd = .lost) :
    bits.foldl (fun p b => Part.clock b p) p = p := by
  induction bits generalizing p with
  | nil => rfl
  | cons b bits ih =>
    have e : Part.clock b p = p := by simp [Part.clock, hp]
    rw [List.foldl_cons, e, ih p hp]

theorem partCommand_read (aw : Nat) (a : Word16) (more : List Bool) (h : a.toNat < 2 ^ aw) :
    partCommand aw (readBits aw a ++ more) = .read a.toNat more.length := by
  have e : bitsToNat (msbBits (addrField a) aw) = a.toNat := by
    rw [bitsToNat_msbBits]
    have : (addrField a).toNat = a.toNat := by simp [addrField]; omega
    rw [this, Nat.mod_eq_of_lt h]
  simp [readBits, partCommand, e]

theorem partCommand_write (aw : Nat) (a v : Word16) (h : a.toNat < 2 ^ aw) :
    partCommand aw (writeBits aw a v) = .write a.toNat v := by
  have e : bitsToNat (msbBits (addrField a) aw) = a.toNat := by
    rw [bitsToNat_msbBits]
    have : (addrField a).toNat = a.toNat := by simp [addrField]; omega
    rw [this, Nat.mod_eq_of_lt h]
  have e2 : bitsToNat (msbBits (dataField v) 16) = v.toNat := by
    rw [bitsToNat_msbBits]
    have : (dataField v).toNat = v.toNat := by simp [dataField]; omega
    rw [this, Nat.mod_eq_of_lt v.isLt]
  have e3 : (msbBits (dataField v) 16).take 16 = msbBits (dataField v) 16 := List.take_of_length_le (by simp)
  simp [writeBits, partCommand, e, e3, e2]

theorem partCommand_ewen (aw : Nat) (h : 2 ≤ aw) : partCommand aw (ewenBits aw) = .ewen := by
  have : aw ≤ aw - 2 + 2 := by omega
  simp [ewenBits, partCommand, this]

theorem partCommand_ewds (aw : Nat) : partCommand aw (ewdsBits aw) = .ewds := by
  have : aw ≤ aw + 2 + 2 := by omega
  simp [ewdsBits, partCommand, this]

/-! ### Whole frames from a part that waits -/

/-- The part once the bits after a start bit are in (R131); a programming part loses them (log entry 11). -/
def Part.taken (bits : List Bool) (p : Part) : Part :=
  { p with cmd := if p.programming.isSome then .lost else .shifting bits }

theorem clock_start (p : Part) (hp : p.cmd = .waiting) : Part.clock true p = Part.taken [] p := by
  simp [Part.clock, hp, Part.taken]

theorem foldl_clock_taken (bits more : List Bool) (p : Part) :
    more.foldl (fun p b => Part.clock b p) (Part.taken bits p) = Part.taken (bits ++ more) p := by
  by_cases hp : p.programming.isSome = true
  · rw [foldl_clock_lost _ _ (by simp [Part.taken, hp])]
    simp [Part.taken, hp]
  · rw [foldl_clock_shifting more bits _ (by simp [Part.taken, hp])]
    simp [Part.taken, hp]

theorem taken_notWaiting (bits : List Bool) (p : Part) : (Part.taken bits p).cmd ≠ .waiting := by
  unfold Part.taken; dsimp only; split <;> simp

/-- The head of a frame from a part that waits (R131); programming that the first hold ends does not lose the frame. -/
theorem runActs_head_part (bits : List Bool) (s : State) (h : s.cfg.ok = true) (ha : s.attached = .reference)
    (hw : s.part.cmd = .waiting) :
    (runActs (startActs ++ clockActs bits) s).part =
      Part.ticks (2 * bits.length + 1) (Part.taken bits (Part.tick s.part)) ∧
    (runActs (startActs ++ clockActs bits) s).progTimes = s.progTimes := by
  obtain ⟨p1, p2⟩ := runActs_start_part s h ha
  rw [clock_start _ (by rw [tick_cmd]; exact hw)] at p1
  have p1 : (runActs startActs s).part = Part.ticks 1 (Part.taken [] (Part.tick s.part)) := p1
  obtain ⟨h1, -⟩ := runActs_start s h
  have sp := runActs_samePort startActs s startActs_straight
  obtain ⟨q1, q2, -⟩ := runActs_clock_part bits (runActs startActs s) (by rw [sp.cfg]; exact h)
    (by rw [sp.attached]; exact ha) _ h1 (by rw [sp.cfg, startHigh, level_driveLines_cs h]; rfl)
    (by rw [p1, ticks_cmd]; exact taken_notWaiting _ _)
  rw [runActs_append, q1, q2, p1, p2, foldl_clock_ticks _ _ _ (taken_notWaiting _ _), ticks_ticks, foldl_clock_taken]
  exact ⟨by rw [Nat.add_comm]; rfl, rfl⟩

/-- The head of a frame from a part that waits and programs nothing. -/
theorem runActs_head_part_idle (bits : List Bool) (s : State) (h : s.cfg.ok = true) (ha : s.attached = .reference)
    (hw : s.part.cmd = .waiting) (hp : s.part.programming = none) :
    (runActs (startActs ++ clockActs bits) s).part = { s.part with cmd := .shifting bits } := by
  rw [(runActs_head_part bits s h ha hw).1, tick_idle _ hp, ticks_idle _ _ (by simpa [Part.taken] using hp)]
  simp [Part.taken, hp]

/-- The lines are high on CS once the head of a frame is out. -/
theorem runActs_head_cs (bits : List Bool) (s : State) (h : s.cfg.ok = true) :
    level s.cfg (runActs (startActs ++ clockActs bits) s).creg .cs = true := by
  rw [(runActs_head bits s h).2.1]
  exact (clockedValue_lines h (readValue s) bits).2.1

/-- A whole frame that only writes, from a part that waits (R66 to R68, R129): the frame ends on the part with the bits
taken in, and the part waits again. -/
theorem runActs_frame_part (bits : List Bool) (s : State) (h : s.cfg.ok = true) (ha : s.attached = .reference)
    (hw : s.part.cmd = .waiting) :
    ∃ u : State, u.cfg = s.cfg ∧ u.part = Part.ticks (2 * bits.length + 1) (Part.taken bits (Part.tick s.part)) ∧
      u.progTimes = s.progTimes ∧
      (runActs (frameActs bits) s).part = { Part.tick (partFrameEnd u).part with cmd := .waiting } ∧
      (runActs (frameActs bits) s).progTimes = (partFrameEnd u).progTimes := by
  obtain ⟨p1, p2⟩ := runActs_head_part bits s h ha hw
  have hcs := runActs_head_cs bits s h
  have hs : ∀ a ∈ startActs ++ clockActs bits, a.straight = true := by
    intro a hm
    rcases List.mem_append.1 hm with hm | hm
    · exact startActs_straight a hm
    · exact (clockActs_kinds bits a hm).1
  have sp := runActs_samePort _ s hs
  have e := runActs_end_part (runActs (startActs ++ clockActs bits) s) (by rw [sp.cfg]; exact h)
    (by rw [sp.attached]; exact ha) _ (runActs_head bits s h).1
  rw [sp.cfg, hcs] at e
  refine ⟨_, sp.cfg, p1, p2, ?_, ?_⟩
  · rw [frameActs, runActs_append]; exact e.1
  · rw [frameActs, runActs_append]; exact e.2

/-! ### Frame ends -/

/-- A frame that is no complete WRITE to an enabled part moves at most the latch (R129). -/
theorem partFrameEnd_quiet (u : State) (h : Part.pendingWrite u.cfg.aw u.part = none) :
    (partFrameEnd u).part = { u.part with we := Part.latchAfter u.cfg.aw u.part } ∧
    (partFrameEnd u).progTimes = u.progTimes := by
  unfold partFrameEnd; rw [h]; exact ⟨rfl, rfl⟩

/-- The end of a complete WRITE to an enabled part (R129). -/
theorem partFrameEnd_write (u : State) (a : Nat) (v : Word16) (h : Part.pendingWrite u.cfg.aw u.part = some (a, v)) :
    (partFrameEnd u).part =
      Part.program a v (nextProgTime u) { u.part with we := Part.latchAfter u.cfg.aw u.part } ∧
    (partFrameEnd u).progTimes = u.progTimes.tail := by
  unfold partFrameEnd; rw [h]
  refine ⟨rfl, ?_⟩
  show (takeProgTime u).progTimes = _
  unfold takeProgTime
  cases u.progTimes <;> rfl

/-! ### Reading a word back -/

/-- A selected part that shifts answers with its own bit (R53, R132). -/
theorem doBit_readValue (s : State) (h : s.cfg.ok = true) (ha : s.attached = .reference)
    (hcs : level s.cfg s.creg .cs = true) (b : Bool) (hb : Part.dout s.cfg.aw s.part = some b) :
    doBit s.cfg (readValue s) = b := by
  have : readValue s = setBit (nextAnswer s) s.cfg.posDO b := by
    simp [readValue, partDout, partSelected, ha, hcs, hb]
  rw [this, doBit, setBit_getLsbD _ _ _ _ (Config.admitted h).lt_do, if_pos rfl]

/-- One sample from a part that shifts a READ out: one clock, then its next bit (R84, R132). -/
theorem runActs_sample_part (s : State) (h : s.cfg.ok = true) (ha : s.attached = .reference) (c acc : Word32)
    (hc : s.ctl = some c) (hcs : level s.cfg c .cs = true) (hacc : s.acc = some acc) (p : Part) (a : Word16)
    (more : List Bool) (haddr : a.toNat < 2 ^ s.cfg.aw) (hprog : p.programming = none)
    (hpart : s.part = { p with cmd := .shifting (readBits s.cfg.aw a ++ more) }) :
    (runActs sampleActs s).part =
      { p with cmd := .shifting (readBits s.cfg.aw a ++ (more ++ [level s.cfg c .di])) } ∧
    ∃ r, doBit s.cfg r = Part.readBit s.cfg.aw p a.toNat (more.length + 1) ∧
      (runActs sampleActs s).acc = some (accumulate acc (doBit s.cfg r)) := by
  have q := (runActs_pulse_part none none .commandActive .commandActive .commandActive .commandActive .plain .readHold
    none none s h ha c hc (by rw [level_driveLines_cs h]; exact hcs)).1
  rw [level_driveLines_di h] at q
  have e : runActs sampleActs s = runAct .sample (sampleState s) := rfl
  change (sampleState s).part = Part.tick (Part.clock (level s.cfg c .di) (Part.tick s.part)) at q
  have hst := runActs_samePort
    [.drive .commandActive (some false) none none, .hold .commandActive .plain none,
     .drive .commandActive (some true) none none, .hold .commandActive .readHold none] s (by simp [Act.straight])
  have hcreg : (sampleState s).creg = driveLines s.cfg c (some true) none none := by
    simp only [sampleState, runActs_cons, runActs_nil, runAct]
    rw [drive_some (c := c) (h := hc)]
    rw [drive_some (c := driveLines s.cfg c (some false) none none) (h := by simp)]
    simp [driveLines_driveLines h]
  have hcfg : (sampleState s).cfg = s.cfg := hst.cfg
  have hat : (sampleState s).attached = .reference := hst.attached.trans ha
  have hkeep : (sampleState s).acc = s.acc := by simp [sampleState, runAct]
  have hp : (sampleState s).part =
      { p with cmd := .shifting (readBits s.cfg.aw a ++ (more ++ [level s.cfg c .di])) } := by
    rw [q, tick_idle s.part (by rw [hpart]; exact hprog), hpart, tick_idle _ (by simpa [Part.clock] using hprog)]
    simp [Part.clock]
  have hdo : doBit s.cfg (readValue (sampleState s)) = Part.readBit s.cfg.aw p a.toNat (more.length + 1) := by
    rw [← hcfg]
    refine doBit_readValue _ (by rw [hcfg]; exact h) hat
      (by rw [hcfg, hcreg, level_driveLines_cs h]; exact hcs) _ ?_
    rw [hcfg, hp]
    simp only [Part.dout]
    rw [partCommand_read _ _ _ haddr]
    simp [Part.readBit]
  rw [e]
  refine ⟨?_, readValue (sampleState s), hdo, ?_⟩
  · show (afterRead (sampleState s)).part = _
    rw [afterRead_part, hp]
  · simp [runAct, hkeep, hacc, hcfg]

/-- Samples from a part that shifts a READ out are its bits in order (R84, R132). -/
theorem runActs_samples_part (n : Nat) (s : State) (h : s.cfg.ok = true) (ha : s.attached = .reference) (c acc : Word32)
    (hc : s.ctl = some c) (hcs : level s.cfg c .cs = true) (hacc : s.acc = some acc) (p : Part) (a : Word16)
    (more : List Bool) (haddr : a.toNat < 2 ^ s.cfg.aw) (hprog : p.programming = none)
    (hpart : s.part = { p with cmd := .shifting (readBits s.cfg.aw a ++ more) }) :
    (∃ bits, (runActs (samplesActs n) s).part =
      { p with cmd := .shifting (readBits s.cfg.aw a ++ (more ++ bits)) }) ∧
    ∃ rs, rs.length = n ∧
      rs.map (doBit s.cfg) = (List.range' (more.length + 1) n).map (Part.readBit s.cfg.aw p a.toNat) ∧
      (runActs (samplesActs n) s).acc = some (accAfter s.cfg acc rs) := by
  induction n generalizing s c acc more with
  | zero => exact ⟨⟨[], by simp [samplesActs, hpart]⟩, [], rfl, rfl, by simp [samplesActs, accAfter, hacc]⟩
  | succ n ih =>
    obtain ⟨p1, r, p2, p3⟩ := runActs_sample_part s h ha c acc hc hcs hacc p a more haddr hprog hpart
    obtain ⟨h1, -, -, -, h5⟩ := runActs_sample s h c acc hc hacc
    have hat := (runActs_samePort sampleActs s (by simp [sampleActs, Act.straight])).attached
    have e : runActs (samplesActs (n + 1)) s = runActs (samplesActs n) (runActs sampleActs s) := by
      rw [samplesActs, runActs_append]
    obtain ⟨⟨bits, i1⟩, rs, i2, i3, i4⟩ := ih (runActs sampleActs s) (by rw [h5]; exact h) (by rw [hat]; exact ha) _ _ h1
      (by rw [h5, level_driveLines_cs h]; exact hcs) p3 (more ++ [level s.cfg c .di]) (by rw [h5]; exact haddr)
      (by rw [h5]; exact p1)
    rw [h5] at i1 i3 i4
    rw [e]
    refine ⟨⟨level s.cfg c .di :: bits, by rw [i1]; simp⟩, r :: rs, by simp [i2], ?_, i4⟩
    rw [List.map_cons, i3, p2, List.range'_succ, List.map_cons, List.length_append, List.length_singleton]

/-- The 16 bits after the dummy bit are the word, D15 first (R45, R132). -/
theorem readBit_word (aw : Nat) (p : Part) (a : Nat) (ha : a < 2 ^ aw) :
    (List.range' 1 16).map (Part.readBit aw p a) = msbBits ((Memory.readWord p.mem a).setWidth 32) 16 := by
  have e : ∀ i, 1 ≤ i → i ≤ 16 → Part.readBit aw p a i = (Memory.readWord p.mem a).getLsbD (16 - i) := by
    intro i h1 h2
    have e1 : (i - 1) / 16 = 0 := by omega
    have e2 : (i - 1) % 16 = i - 1 := by omega
    have e3 : 15 - (i - 1) = 16 - i := by omega
    have e4 : i ≠ 0 := by omega
    simp only [Part.readBit, e4, if_false, e1, e2, e3, Nat.add_zero, Nat.mod_eq_of_lt ha]
  simp [List.range', msbBits, e]

/-! ### Polling the part (R95, R130) -/

/-- A part that will have programmed word `a` with `v` after `k` steps of its own; it is ready where `k = 0` (R129,
R130). -/
def Part.busyFor (a : Nat) (v : Word16) (k : Nat) (p : Part) : Part :=
  match k with
  | 0 => { p with mem := Memory.writeWord p.mem a v }
  | k + 1 => Part.program a v k p

theorem busyFor_cmd (a : Nat) (v : Word16) (k : Nat) (p : Part) : (Part.busyFor a v k p).cmd = p.cmd := by
  cases k <;> rfl

/-- A step of its own brings the end of programming one step nearer. -/
theorem tick_busyFor (a : Nat) (v : Word16) (k : Nat) (p : Part) (h : p.programming = none) :
    Part.tick (Part.busyFor a v (k + 1) p) = Part.busyFor a v k p := by
  cases k with
  | zero => simp [Part.busyFor, Part.tick, Part.program, Part.finishProgramming, h]
  | succ k => simp [Part.busyFor, Part.tick, Part.program]

/-- A selected part that waits for a start bit shows on DO whether it is ready (R130). -/
theorem dout_ready (s : State) (h : s.cfg.ok = true) (ha : s.attached = .reference)
    (hcs : level s.cfg s.creg .cs = true) (hcmd : s.part.cmd = .waiting) :
    doBit s.cfg (readValue s) = s.part.programming.isNone :=
  doBit_readValue s h ha hcs _ (by simp [Part.dout, hcmd])

/-- One poll that ends the loop: a selected part that is ready (R95, R130). -/
theorem pollLoop_ready (n : Nat) (t : State) (h : t.cfg.ok = true) (ha : t.attached = .reference)
    (hcs : level t.cfg t.creg .cs = true) (hcmd : t.part.cmd = .waiting) (hprog : t.part.programming = none)
    (hr : t.ret = none) :
    (pollLoop n t).part = t.part ∧ (pollLoop n t).ret = some .ok ∧
    (pollLoop n t).history = .read (readValue t) :: t.history := by
  have hok : (pollStep t).ret = some .ok := by rw [pollStep_ret t hr, dout_ready t h ha hcs hcmd, hprog]; rfl
  have e : pollLoop n t = pollStep t := by cases n <;> simp [pollLoop, hok]
  rw [e]
  exact ⟨by simp, hok, by simp⟩

/-- The poll loop on a selected part that programs for `k` more steps of its own, no more than the deadline: `k` polls read
0, the next one reads 1 (R95, R97, R130). -/
theorem pollLoop_part (k n a : Nat) (v : Word16) (p : Part) (t : State) (h : t.cfg.ok = true)
    (ha : t.attached = .reference) (hcs : level t.cfg t.creg .cs = true) (hcmd : p.cmd = .waiting)
    (hprog : p.programming = none) (hpart : t.part = Part.busyFor a v k p) (hr : t.ret = none) (hd : t.deadline = n)
    (hkn : k ≤ n) :
    (pollLoop n t).part = { p with mem := Memory.writeWord p.mem a v } ∧
    (pollLoop n t).ret = some .ok ∧
    ∃ earlier last, earlier.length = k ∧
      (pollLoop n t).history = (earlierEvents earlier ++ [Event.read last]).reverse ++ t.history := by
  induction k generalizing n t with
  | zero =>
    obtain ⟨e1, e2, e3⟩ := pollLoop_ready n t h ha hcs (by rw [hpart]; exact hcmd) (by rw [hpart]; exact hprog) hr
    exact ⟨by rw [e1, hpart]; rfl, e2, [], readValue t, rfl, by simp [e3, earlierEvents]⟩
  | succ k ih =>
    have hb : doBit t.cfg (readValue t) = false := by
      rw [dout_ready t h ha hcs (by rw [hpart, busyFor_cmd]; exact hcmd), hpart]; rfl
    obtain ⟨m, rfl⟩ : ∃ m, n = m + 1 := ⟨n - 1, by omega⟩
    have hn : (pollStep t).ret = none := by rw [pollStep_ret t hr, hb]; simp [hd]
    have hdl : (pollStep t).deadline = m := by rw [pollStep_deadline t hb, hd]; rfl
    have e : pollLoop (m + 1) t = pollLoop m (runAct .yield (pollStep t)) := by simp [pollLoop, hn]
    have hpart' : (runAct .yield (pollStep t)).part = Part.busyFor a v k p := by
      simp only [runAct, yieldPoll_eq]
      rw [partStep_part _ (by simpa using ha), record_part, pollStep_part, afterRead_part, hpart, tick_busyFor _ _ _ _ hprog]
    obtain ⟨i1, i2, earlier, last, i3, i4⟩ := ih m (runAct .yield (pollStep t))
      (by simpa [runAct] using h) (by simpa [runAct] using ha) (by simpa [runAct] using hcs) hpart'
      (by simpa [runAct] using hn) (by simpa [runAct] using hdl) (by omega)
    rw [e]
    exact ⟨i1, i2, readValue t :: earlier, last, by simp [i3], by rw [i4]; simp [runAct, earlierEvents]⟩

/-- What a poll loop does with a part, a WAIT does that ends the loop: END leaves a waiting part alone but for a step of its
own (R95, R129). -/
theorem waitBody_part_of_loop (p : Part) (s : State) (earlier : List Word32) (last : Word32) (h : s.cfg.ok = true)
    (ha : s.attached = .reference) (hctl : s.ctl = some s.creg) (hcmd : p.cmd = .waiting) (hprog : p.programming = none)
    (q1 : (pollLoop (waitBegin s).deadline (waitBegin s)).part = p)
    (q2 : (pollLoop (waitBegin s).deadline (waitBegin s)).ret = some .ok)
    (q4 : (pollLoop (waitBegin s).deadline (waitBegin s)).history =
      (earlierEvents earlier ++ [Event.read last]).reverse ++ (waitBegin s).history) :
    (waitBody s).part = p ∧ (waitBody s).ret = some .ok ∧
    (waitBody s).history = (.write (reassertValue s.cfg s.creg) :: (earlierEvents earlier ++
      [Event.read last, Event.write (endValue s.cfg s.creg), Event.delay 2])).reverse ++ s.history := by
  obtain ⟨w1, w2, w3⟩ := waitBegin_spec s s.creg hctl
  have l1 : level s.cfg (reassertValue s.cfg s.creg) .cs = true := by rw [reassertValue, level_driveLines_cs h]; rfl
  have e : waitBody s = runActs endActs (pollLoop (waitBegin s).deadline (waitBegin s)) := rfl
  have uctl : (pollLoop (waitBegin s).deadline (waitBegin s)).ctl = some (reassertValue s.cfg s.creg) := by simp [w1]
  have ucfg : (pollLoop (waitBegin s).deadline (waitBegin s)).cfg = s.cfg := by simp
  have uat : (pollLoop (waitBegin s).deadline (waitBegin s)).attached = .reference := by simpa using ha
  have ucs : level s.cfg (pollLoop (waitBegin s).deadline (waitBegin s)).creg .cs = true := by simpa [w2] using l1
  generalize pollLoop (waitBegin s).deadline (waitBegin s) = u at *
  obtain ⟨-, -, -, -, -, e6⟩ := runActs_end u _ uctl
  have ep := runActs_end_part u (by rw [ucfg]; exact h) uat _ uctl
  have hs := runActs_samePort endActs u endActs_straight
  have hq := partFrameEnd_quiet u (by rw [q1]; simp [Part.pendingWrite, hcmd])
  have hl : Part.latchAfter u.cfg.aw u.part = u.part.we := by rw [q1]; simp [Part.latchAfter, hcmd]
  rw [e]
  refine ⟨?_, by rw [hs.ret, q2], ?_⟩
  · rw [ep.1, ucfg, if_pos ucs, hq.1, hl, q1, tick_idle _ (by exact hprog)]
    cases p; cases hcmd; rfl
  · rw [e6, q4, w3, ucfg]
    simp [endValue_reassertValue h]

/-- What WAIT's re-assert leaves of the part and where it sets the deadline (R95, R121). -/
theorem waitBegin_part (s : State) (h : s.cfg.ok = true) (ha : s.attached = .reference) (hctl : s.ctl = some s.creg) :
    (waitBegin s).part = s.part ∧ (waitBegin s).deadline = nextDeadline s ∧
    level s.cfg (waitBegin s).creg .cs = true := by
  obtain ⟨w1, w2, w3⟩ := waitBegin_spec s s.creg hctl
  have l1 : level s.cfg (reassertValue s.cfg s.creg) .cs = true := by rw [reassertValue, level_driveLines_cs h]; rfl
  have d := drive_part_selected none (some true) (some true) s s.creg hctl ha l1
  have l2 : level s.cfg (reassertValue s.cfg s.creg) .sk = level s.cfg s.creg .sk := by
    rw [reassertValue, level_driveLines_sk h]; rfl
  refine ⟨?_, ?_, by rw [w2]; exact l1⟩
  · unfold waitBegin
    simp only [takeDeadline_part]
    rw [d.1]
    change (if !level s.cfg s.creg .sk && level s.cfg (reassertValue s.cfg s.creg) .sk then _ else _) = _
    rw [l2, if_neg (by simp)]
  · unfold waitBegin
    simp only [takeDeadline_deadline]
    unfold nextDeadline
    rw [drive_deadlines, d.2.2]

/-- WAIT on a part that programs for `k` more steps of its own, no more than the deadline (R95, R130). -/
theorem waitBody_part (k a : Nat) (v : Word16) (p : Part) (s : State) (h : s.cfg.ok = true)
    (ha : s.attached = .reference) (hctl : s.ctl = some s.creg)
    (hcmd : p.cmd = .waiting) (hprog : p.programming = none) (hpart : s.part = Part.busyFor a v k p)
    (hk : k ≤ nextDeadline s) :
    (waitBody s).part = { p with mem := Memory.writeWord p.mem a v } ∧
    (waitBody s).ret = some .ok ∧
    ∃ earlier last, earlier.length = k ∧ (waitBody s).history =
      (.write (reassertValue s.cfg s.creg) :: (earlierEvents earlier ++
        [Event.read last, Event.write (endValue s.cfg s.creg), Event.delay 2])).reverse ++ s.history := by
  obtain ⟨b1, b2, b3⟩ := waitBegin_part s h ha hctl
  obtain ⟨q1, q2, earlier, last, q3, q4⟩ := pollLoop_part k (waitBegin s).deadline a v p (waitBegin s)
    (by simpa using h) (by simpa using ha) (by simpa using b3) hcmd hprog (b1.trans hpart) (by simp) rfl
    (by rw [b2]; exact hk)
  obtain ⟨r1, r2, r3⟩ := waitBody_part_of_loop { p with mem := Memory.writeWord p.mem a v } s earlier last h ha hctl hcmd
    hprog q1 q2 q4
  exact ⟨r1, r2, earlier, last, q3, r3⟩

/-- WAIT on a part that is ready ends at its first poll and leaves the part as it was (R95, R130). -/
theorem waitBody_part_ready (s : State) (h : s.cfg.ok = true) (ha : s.attached = .reference) (hctl : s.ctl = some s.creg)
    (hcmd : s.part.cmd = .waiting) (hprog : s.part.programming = none) :
    (waitBody s).part = s.part ∧ (waitBody s).ret = some .ok ∧
    ∃ last, (waitBody s).history = (.write (reassertValue s.cfg s.creg) ::
      [Event.read last, Event.write (endValue s.cfg s.creg), Event.delay 2]).reverse ++ s.history := by
  obtain ⟨b1, -, b3⟩ := waitBegin_part s h ha hctl
  obtain ⟨q1, q2, q3⟩ := pollLoop_ready (waitBegin s).deadline (waitBegin s) (by simpa using h) (by simpa using ha)
    (by simpa using b3) (by rw [b1]; exact hcmd) (by rw [b1]; exact hprog) (by simp)
  obtain ⟨r1, r2, r3⟩ := waitBody_part_of_loop s.part s [] _ h ha hctl hcmd hprog (q1.trans b1) q2
    (by rw [q3]; rfl)
  exact ⟨r1, r2, _, r3⟩

/-! ### The READ frame from a part that waits -/

/-- With a part that waits and does not program, the READ frame reads its word and leaves the part as it was (R65, R132). -/
theorem sendRead_part (addr : Word16) (s : State) (h : s.cfg.ok = true) (ha : s.attached = .reference)
    (hw : s.part.cmd = .waiting) (hprog : s.part.programming = none) (haddr : addr.toNat < 2 ^ s.cfg.aw) :
    (sendRead addr s).part = s.part ∧ (sendRead addr s).ret = some .ok ∧
    ∃ rs, rs.length = 16 ∧
      rs.map (doBit s.cfg) = msbBits ((Memory.readWord s.part.mem addr.toNat).setWidth 32) 16 ∧
      (sendRead addr s).acc = some (accAfter s.cfg 0 rs) := by
  obtain ⟨h1, h2, h3, h4, -, h6⟩ := runActs_head (readBits s.cfg.aw addr) s h
  have p1 := runActs_head_part_idle (readBits s.cfg.aw addr) s h ha hw hprog
  have hcs := runActs_head_cs (readBits s.cfg.aw addr) s h
  have hp := runActs_samePort _ s (readHead_straight s.cfg.aw addr)
  rw [readHeadActs_eq] at hp
  have hu : sendRead addr s =
      (let t := framingRead (runActs (startActs ++ clockActs (readBits s.cfg.aw addr)) s)
       if t.ret = some .ok then runActs readTailActs t else runActs endActs t) := by
    unfold sendRead; rw [readHeadActs_eq]; rfl
  obtain ⟨l1, l2, l3, l4⟩ := clockedValue_lines h (readValue s) (readBits s.cfg.aw addr)
  generalize clockedValue s.cfg (startHigh s.cfg (readValue s)) (readBits s.cfg.aw addr) = c at *
  change SamePort s (runActs (startActs ++ clockActs (readBits s.cfg.aw addr)) s) at hp
  generalize runActs (startActs ++ clockActs (readBits s.cfg.aw addr)) s = u at *
  have ucfg : u.cfg = s.cfg := hp.cfg
  have uat : u.attached = .reference := hp.attached.trans ha
  set p := s.part with hpd
  have up : u.part = { p with cmd := .shifting (readBits s.cfg.aw addr) } := p1
  have hd : doBit s.cfg (readValue u) = false := by
    rw [← ucfg]
    refine doBit_readValue u (by rw [ucfg]; exact h) uat (by rw [ucfg]; exact hcs) _ ?_
    rw [ucfg, up]
    have := partCommand_read s.cfg.aw addr [] haddr
    rw [List.append_nil] at this
    simp [Part.dout, this, Part.readBit]
  have hr : (framingRead u).ret = some .ok := by simp [ucfg, hd]
  have hs : sendRead addr s = runActs endActs (runActs (getActs 16) (framingRead u)) := by
    rw [hu]; dsimp only; rw [if_pos hr, readTailActs, runActs_append]
  set v := framingRead u with hv
  have vcfg : v.cfg = s.cfg := by rw [hv]; simp [ucfg]
  have vat : v.attached = .reference := by rw [hv]; simp [uat]
  have vctl : v.ctl = some c := by rw [hv]; simp [h1]
  have vcreg : v.creg = u.creg := by rw [hv]; simp
  have vpart : v.part = { p with cmd := .shifting (readBits s.cfg.aw addr) } := by
    rw [hv, framingRead_part, afterRead_part, up]
  have lrm : level s.cfg (readModeValue s.cfg c) .cs = true := by rw [readModeValue, level_driveLines_cs h]; exact l2
  have d := drive_part_selected none none (some true) v c vctl vat (by rw [vcfg]; exact lrm)
  set w := runAct .readMode v with hw'
  have wcfg : w.cfg = s.cfg := by rw [hw']; simp [runAct, vcfg]
  have wat : w.attached = .reference := by rw [hw']; simp [runAct, vat]
  have wctl : w.ctl = some (readModeValue s.cfg c) := by
    rw [hw']; simp only [runAct]; rw [drive_some (c := c) (h := vctl)]; simp [vcfg, readModeValue]
  have wpart : w.part = { p with cmd := .shifting (readBits s.cfg.aw addr ++ []) } := by
    have : w.part = (drive none none (some true) v).part := rfl
    rw [this, d.1, vpart, vcfg, vcreg, h2]
    rw [level_driveLines_sk h]; simp
  obtain ⟨⟨bits, b1⟩, rs, r1, r2, r3⟩ := runActs_samples_part 16 w (by rw [wcfg]; exact h) wat
    (readModeValue s.cfg c) 0 wctl (by rw [wcfg]; exact lrm) (by rw [hw']; simp [runAct]) p addr []
    (by rw [wcfg]; exact haddr) hprog (by rw [wcfg]; exact wpart)
  rw [wcfg] at b1 r2 r3
  obtain ⟨-, -, s1, s2, -, -⟩ := runActs_samples 16 w (by rw [wcfg]; exact h) (readModeValue s.cfg c) 0 wctl
    (by rw [hw']; simp [runAct])
  have hg : runActs (getActs 16) v = runActs (samplesActs 16) w := rfl
  have gp := runActs_samePort (getActs 16) v (getActs_straight 16)
  rw [hs]
  rw [hg] at gp ⊢
  set g := runActs (samplesActs 16) w with hgd
  have gcs : level s.cfg g.creg .cs = true := by
    rw [s2]; simp only [Nat.reduceEqDiff, if_false, wcfg]; rw [level_driveLines_cs h]; exact lrm
  have ge := runActs_end_part g (by rw [gp.cfg, vcfg]; exact h) (by rw [gp.attached]; exact vat) _ s1
  rw [gp.cfg, vcfg, gcs, if_pos rfl] at ge
  have cmdg := partCommand_read s.cfg.aw addr bits haddr
  have q1 := partFrameEnd_quiet g (by rw [gp.cfg, vcfg, b1]; simp [Part.pendingWrite, cmdg])
  have eg := runActs_end g _ s1
  refine ⟨?_, ?_, rs, r1, ?_, ?_⟩
  · rw [ge.1, q1.1, gp.cfg, vcfg, b1, tick_idle _ (by exact hprog)]
    simp [Part.latchAfter, cmdg, ← hw]
  · rw [(runActs_samePort endActs g endActs_straight).ret, gp.ret, hr]
  · rw [r2]; exact readBit_word _ _ _ haddr
  · rw [eg.2.2.2.1, r3]

end Sys2Proof.Machine
end

