-- ==== Sys2Proof/Laws/PerInstr.lean ====
section
/-! SUPPORT. The two encodings, row by row: a host operation has a descriptor (R70, R71, R73) and no frame of its own, a
serial frame has bits for the EEPROM (R65 to R68) and no descriptor, a micro-operation has neither (R78). -/

namespace Sys2Proof.Laws.Encoding

/-- A descriptor exactly for the rows the host can issue, and never both a descriptor and a frame. -/
def Statement (i : Instr) : Prop :=
  (encodeDescriptor i).isSome = i.isHostOp ∧
    ∀ aw, (encodeFrame aw i).isSome = true → encodeDescriptor i = none

theorem readWord (addr : Word16) : Statement (.readWord addr) := ⟨rfl, fun _ h => nomatch h⟩

theorem writeWord (addr value : Word16) : Statement (.writeWord addr value) := ⟨rfl, fun _ h => nomatch h⟩

theorem writeEnable : Statement .writeEnable := ⟨rfl, fun _ h => nomatch h⟩

theorem writeDisable : Statement .writeDisable := ⟨rfl, fun _ h => nomatch h⟩

theorem reserved (op : BitVec 4) : Statement (.reserved op) := ⟨rfl, fun _ h => nomatch h⟩

theorem readFrame (addr : Word16) : Statement (.readFrame addr) := ⟨rfl, fun _ _ => rfl⟩

theorem writeFrame (addr value : Word16) : Statement (.writeFrame addr value) := ⟨rfl, fun _ _ => rfl⟩

theorem ewenFrame : Statement .ewenFrame := ⟨rfl, fun _ _ => rfl⟩

theorem ewdsFrame : Statement .ewdsFrame := ⟨rfl, fun _ _ => rfl⟩

theorem start : Statement .start := ⟨rfl, fun _ _ => rfl⟩

theorem putBits (value : Word32) (n : Nat) : Statement (.putBits value n) := ⟨rfl, fun _ _ => rfl⟩

theorem getBits (n : Nat) : Statement (.getBits n) := ⟨rfl, fun _ _ => rfl⟩

theorem endOp : Statement .endOp := ⟨rfl, fun _ _ => rfl⟩

theorem wait : Statement .wait := ⟨rfl, fun _ _ => rfl⟩

end Sys2Proof.Laws.Encoding
end

