-- ==== Sys2Proof/Laws/Sound.lean ====
section
/-! SUPPORT. The sequencer's position: what is known after each action, that more knowledge keeps a sequence sound, and
that the sequences of the accepted operations are sound (R20, R37, R86, R98). -/

namespace Sys2Proof.Machine

/-- `q` knows at least what `p` knows, in the same phase. -/
structure Pos.Le (p q : Pos) : Prop where
  phase : q.phase = p.phase
  ctl : p.ctl = true → q.ctl = true
  acc : p.acc = true → q.acc = true
  ret : p.ret = true → q.ret = true
  low : p.low = true → q.low = true

theorem Pos.Le.refl (p : Pos) : p.Le p := ⟨rfl, id, id, id, id⟩

/-- An action is taken in its phase, with the values it needs (R20, R86). -/
theorem Pos.after_eq_some {p q : Pos} {a : Act} : p.after a = some q ↔ p.phase = a.phase ∧ p.effect a = some q := by
  unfold Pos.after
  split <;> simp_all

/-- More knowledge before an action gives more after it. -/
theorem Pos.effect_le {p q r : Pos} {a : Act} (h : p.Le q) (hr : p.effect a = some r) :
    ∃ r', q.effect a = some r' ∧ r.Le r' := by
  obtain ⟨h1, h2, h3, h4, h5⟩ := h
  cases a <;> simp only [Pos.effect, reduceCtorEq, Option.ite_none_right_eq_some, Option.some.injEq] at hr ⊢
  case loadCtl => subst hr; exact ⟨_, rfl, h1, fun _ => rfl, h3, h4, id⟩
  case drive => obtain ⟨hc, rfl⟩ := hr; exact ⟨_, ⟨h2 hc, rfl⟩, h1, h2, h3, h4, id⟩
  case hold => subst hr; exact ⟨_, rfl, by simp [h1], h2, h3, h4, h5⟩
  case readMode => obtain ⟨hc, rfl⟩ := hr; exact ⟨_, ⟨h2 hc, rfl⟩, h1, h2, fun _ => rfl, h4, id⟩
  case sample => obtain ⟨hc, rfl⟩ := hr; exact ⟨_, ⟨h3 hc, rfl⟩, h1, h2, h3, h4, h5⟩
  case check => obtain ⟨hc, rfl⟩ := hr; exact ⟨_, ⟨h2 hc, rfl⟩, h1, h2, h3, fun _ => rfl, h5⟩
  case reassert => obtain ⟨hc, rfl⟩ := hr; exact ⟨_, ⟨h2 hc, rfl⟩, rfl, h2, h3, id, id⟩
  case poll => obtain ⟨hc, rfl⟩ := hr; exact ⟨_, ⟨h2 hc, rfl⟩, h1, h2, h3, fun _ => rfl, h5⟩
  case yield => subst hr; exact ⟨_, rfl, h1, h2, h3, h4, h5⟩

theorem Pos.after_le {p q r : Pos} {a : Act} (h : p.Le q) (hr : p.after a = some r) :
    ∃ r', q.after a = some r' ∧ r.Le r' := by
  obtain ⟨hp, he⟩ := Pos.after_eq_some.1 hr
  obtain ⟨r', he', hle⟩ := Pos.effect_le h he
  exact ⟨r', Pos.after_eq_some.2 ⟨h.phase.trans hp, he'⟩, hle⟩

/-- Soundness goes past an action whose knowledge is known. -/
theorem sound_after {a : Act} {rest : List Act} {p q : Pos} (h : p.after a = some q) :
    sound (a :: rest) p = sound rest q := by
  obtain ⟨-, he⟩ := Pos.after_eq_some.1 h
  cases a <;> simp only [Pos.effect, reduceCtorEq] at he <;> simp only [sound, h]

/-- A sound sequence is a completion in Idle with low lines, or an action whose knowledge leaves a sound rest. -/
theorem sound_cons {a : Act} {rest : List Act} {p : Pos} (h : sound (a :: rest) p = true) :
    (rest = [] ∧ p.phase = .idle ∧ p.low = true ∧ p.ctl = true ∧
      ((∃ st, a = .complete st) ∨ (a = .completeRead ∧ p.acc = true) ∨ (a = .completeRet ∧ p.ret = true))) ∨
    ∃ q, p.after a = some q ∧ sound rest q = true := by
  unfold sound at h
  split at h
  · cases ‹_ = [] › 
  · rename_i e; cases e
    left
    simp only [Bool.and_eq_true, decide_eq_true_eq] at h
    exact ⟨rfl, h.1.1, h.1.2, h.2, .inl ⟨_, rfl⟩⟩
  · rename_i e; cases e
    left
    simp only [Bool.and_eq_true, decide_eq_true_eq] at h
    exact ⟨rfl, h.1.1.1, h.1.1.2, h.1.2, .inr (.inl ⟨rfl, h.2⟩)⟩
  · rename_i e; cases e
    left
    simp only [Bool.and_eq_true, decide_eq_true_eq] at h
    exact ⟨rfl, h.1.1.1, h.1.1.2, h.1.2, .inr (.inr ⟨rfl, h.2⟩)⟩
  · rename_i e; cases e
    right
    split at h
    · rename_i q hq; exact ⟨q, hq, h⟩
    · cases h

/-- More knowledge keeps a sequence sound. -/
theorem sound_le {as : List Act} {p q : Pos} (h : p.Le q) (hs : sound as p = true) : sound as q = true := by
  induction as generalizing p q with
  | nil => cases hs
  | cons a rest ih =>
    obtain ⟨h1, h2, h3, h4, h5⟩ := h
    rcases sound_cons hs with ⟨rfl, k1, k2, k3, ⟨st, rfl⟩ | ⟨rfl, k4⟩ | ⟨rfl, k4⟩⟩ | ⟨r, hr, hrest⟩
    · simp [sound, h1, k1, h5 k2, h2 k3]
    · simp [sound, h1, k1, h5 k2, h2 k3, h3 k4]
    · simp [sound, h1, k1, h5 k2, h2 k3, h4 k4]
    · obtain ⟨r', e, hle⟩ := Pos.after_le (q := q) ⟨h1, h2, h3, h4, h5⟩ hr
      rw [sound_after e]
      exact ih hle hrest

/-- What is known after a sequence without a completion. -/
def Pos.afterAll (p : Pos) : List Act → Option Pos
  | [] => some p
  | a :: as =>
    match p.after a with
    | some q => q.afterAll as
    | none => none

theorem Pos.afterAll_append (p : Pos) (as bs : List Act) :
    p.afterAll (as ++ bs) = (p.afterAll as).bind fun q => q.afterAll bs := by
  induction as generalizing p with
  | nil => rfl
  | cons a as ih =>
    simp only [List.cons_append, Pos.afterAll]
    cases p.after a with
    | none => rfl
    | some q => exact ih q

/-- Soundness goes past a sequence whose knowledge is known. -/
theorem sound_append {as rest : List Act} {p q : Pos} (h : p.afterAll as = some q) :
    sound (as ++ rest) p = sound rest q := by
  induction as generalizing p with
  | nil => cases h; rfl
  | cons a as ih =>
    simp only [Pos.afterAll] at h
    cases hr : p.after a with
    | none => rw [hr] at h; cases h
    | some r =>
      rw [hr] at h
      rw [List.cons_append, sound_after hr, ih h]

theorem afterAll_start (p : Pos) (hp : p.phase = .idle) :
    p.afterAll startActs = some { p with phase := .commandActive, ctl := true, low := false } := by
  cases p; cases hp; rfl

theorem afterAll_clock (bits : List Bool) (p : Pos) (hp : p.phase = .commandActive) (hc : p.ctl = true)
    (hl : p.low = false) : p.afterAll (clockActs bits) = some p := by
  induction bits with
  | nil => rfl
  | cons b bits ih =>
    have e : p.afterAll (bitActs b) = some p := by
      cases p; simp_all [bitActs, Pos.afterAll, Pos.after, Act.phase, Pos.effect]
    have : clockActs (b :: bits) = bitActs b ++ clockActs bits := by simp [clockActs]
    rw [this, Pos.afterAll_append, e]
    exact ih

theorem afterAll_end (p : Pos) (hp : p.phase = .commandActive) (hc : p.ctl = true) :
    p.afterAll endActs = some { p with phase := .idle, low := true } := by
  cases p; simp_all [endActs, Pos.afterAll, Pos.after, Act.phase, Pos.effect]

theorem afterAll_get (p : Pos) (hp : p.phase = .commandActive) (hc : p.ctl = true) (n : Nat) :
    p.afterAll (getActs n) = some { p with acc := true, low := false } := by
  have e : ∀ (n : Nat) (q : Pos), q.phase = .commandActive → q.ctl = true → q.acc = true → q.low = false →
      q.afterAll (samplesActs n) = some q := by
    intro n q h0 h1 h2 h3
    induction n with
    | zero => rfl
    | succ n ih =>
      have e : q.afterAll sampleActs = some q := by
        cases q; simp_all [sampleActs, Pos.afterAll, Pos.after, Act.phase, Pos.effect]
      rw [samplesActs, Pos.afterAll_append, e]
      exact ih
  have e1 : p.after .readMode = some { p with acc := true, low := false } :=
    Pos.after_eq_some.2 ⟨hp, by simp [Pos.effect, hc]⟩
  rw [getActs, Pos.afterAll, e1]
  exact e n _ hp hc rfl rfl

theorem afterAll_frame (bits : List Bool) (p : Pos) (hp : p.phase = .idle) :
    p.afterAll (frameActs bits) = some { p with phase := .idle, ctl := true, low := true } := by
  rw [frameActs, Pos.afterAll_append, Pos.afterAll_append, afterAll_start p hp]
  simp only [Option.bind_some]
  rw [afterAll_clock _ _ rfl rfl rfl]
  simp only [Option.bind_some]
  rw [afterAll_end _ rfl rfl]

/-- The sequence of every accepted host operation is sound from Idle (R86, R98). -/
theorem sound_opActs (aw : Nat) (i : Instr) (p : Pos) (hp : p.phase = .idle) (hi : frameOf i ≠ none) :
    sound (opActs aw i) p = true := by
  cases i <;> simp only [frameOf, ne_eq, not_true_eq_false] at hi
  · rename_i a
    have e : opActs aw (.readWord a) =
        startActs ++ (clockActs (readBits aw a) ++ ([.check] ++ (getActs 16 ++ (endActs ++ [.completeRead])))) := by
      simp [opActs, readHeadActs_eq, readTailActs, readBits]
    rw [e, sound_append (afterAll_start p hp), sound_append (afterAll_clock _ _ rfl rfl rfl),
      sound_append (q := { p with phase := .commandActive, ctl := true, low := false, ret := true }) rfl,
      sound_append (afterAll_get _ rfl rfl 16), sound_append (afterAll_end _ rfl rfl)]
    rfl
  · rename_i a v
    have e : opActs aw (.writeWord a v) =
        frameActs (writeBits aw a v) ++ ([.reassert, .poll] ++ (endActs ++ [.completeRet])) := by
      simp [opActs, writeActs_eq, writeBits]
    rw [e, sound_append (afterAll_frame _ p hp),
      sound_append (q := { p with phase := .commandActive, ctl := true, low := false, ret := true }) rfl,
      sound_append (afterAll_end _ rfl rfl)]
    rfl
  · have e : opActs aw .writeEnable = frameActs (ewenBits aw) ++ [.complete .ok] := by
      simp [opActs, ewenActs_eq, ewenBits]
    rw [e, sound_append (afterAll_frame _ p hp)]
    rfl
  · have e : opActs aw .writeDisable = frameActs (ewdsBits aw) ++ [.complete .ok] := by
      simp [opActs, ewdsActs_eq, ewdsBits]
    rw [e, sound_append (afterAll_frame _ p hp)]
    rfl

theorem Pos.afterAll_le {p q r : Pos} {as : List Act} (h : p.Le q) (hr : p.afterAll as = some r) :
    ∃ r', q.afterAll as = some r' ∧ r.Le r' := by
  induction as generalizing p q with
  | nil => cases hr; exact ⟨q, rfl, h⟩
  | cons a as ih =>
    simp only [Pos.afterAll] at hr ⊢
    cases e : p.after a with
    | none => rw [e] at hr; cases hr
    | some x =>
      rw [e] at hr
      obtain ⟨y, e', hle⟩ := Pos.after_le h e
      rw [e']
      exact ih hle hr

/-- An action whose knowledge is known stands in its phase (R86). -/
theorem phase_of_after {a : Act} {s : State} {q : Pos} (h : (posOf s).after a = some q) : s.phase = a.phase :=
  (Pos.after_eq_some.1 h).1

/-- An action whose knowledge is known finds the values it needs (R20, R24). -/
theorem ready_of_after {a : Act} {s : State} {q : Pos} (h : (posOf s).after a = some q) : a.ready s = true := by
  have he := (Pos.after_eq_some.1 h).2
  cases a <;> simp only [Pos.effect, reduceCtorEq, Option.ite_none_right_eq_some] at he <;>
    first | rfl | exact he.1

/-- What is known before an action without a branch holds after it. -/
theorem posOf_runAct {a : Act} {s : State} {q : Pos} (hok : s.cfg.ok = true) (h : (posOf s).after a = some q)
    (h1 : a ≠ .check) (h2 : a ≠ .poll) : q.Le (posOf (runAct a s)) := by
  have h := (Pos.after_eq_some.1 h).2
  cases a <;> simp only [Pos.effect, reduceCtorEq, ne_eq, not_true_eq_false] at h h1 h2
  · cases h
    constructor <;> simp [posOf, runAct]
  · rename_i p sk cs di
    split at h
    · rename_i hc
      cases h
      obtain ⟨c, hc⟩ : ∃ c, s.ctl = some c := Option.isSome_iff_exists.1 hc
      refine ⟨by simp [posOf, runAct], by simp [posOf, runAct], by simp [posOf, runAct], by simp [posOf, runAct], ?_⟩
      intro hl
      simp only [Bool.and_eq_true, decide_eq_true_eq] at hl
      obtain ⟨⟨rfl, rfl⟩, rfl⟩ := hl
      have e : (drive (some false) (some false) (some false) s).ctl =
          some (driveLines s.cfg c (some false) (some false) (some false)) := by
        rw [drive_some (c := c) (h := hc)]; simp
      simp only [posOf, runAct, e, drive_cfg]
      exact linesLow_driveLines hok c
    · cases h
  · cases h
    constructor <;> simp [posOf, runAct]
  · split at h
    · cases h
      constructor <;> simp [posOf, runAct]
    · cases h
  · split at h
    · cases h
      constructor <;> simp [posOf, runAct]
    · cases h
  · split at h
    · rename_i hc
      cases h
      obtain ⟨c, hc⟩ : ∃ c, s.ctl = some c := Option.isSome_iff_exists.1 hc
      refine ⟨by simp [posOf, runAct], ?_, by simp [posOf, runAct], by simp [posOf, runAct], by simp [posOf, runAct]⟩
      intro _
      simp [posOf, runAct, (waitBegin_spec s c hc).1]
    · cases h
  · cases h
    constructor <;> simp [posOf, runAct]

end Sys2Proof.Machine
end

