-- ==== Sys2Proof/Laws/Stale.lean ====
section
/-! SUPPORT. The host port's values and the internal values an operation finds play no part in its accesses: every
operation over the lines, the oracles and the part commutes with replacing them (R19, R20, R88, R138). -/

namespace Sys2Proof.Machine

/-- The state with other values of status, data, acc, the running position and the returned status. -/
def stale (st : Status) (d : Word32) (acc : Option Word32) (pos : List Act) (ret : Option Status) (s : State) : State :=
  { s with status := st, data := d, acc := acc, stepPos := pos, ret := ret }

variable (st : Status) (d : Word32) (acc : Option Word32) (pos : List Act) (ret : Option Status) (s : State)

theorem record_stale (e : Event) : record e (stale st d acc pos ret s) = stale st d acc pos ret (record e s) := rfl

theorem takeProgTime_stale : takeProgTime (stale st d acc pos ret s) = stale st d acc pos ret (takeProgTime s) := by
  unfold takeProgTime stale
  dsimp only
  split <;> rfl

theorem partFrameEnd_stale : partFrameEnd (stale st d acc pos ret s) = stale st d acc pos ret (partFrameEnd s) := by
  unfold partFrameEnd
  rw [takeProgTime_stale]
  show (match Part.pendingWrite s.cfg.aw s.part with | none => _ | some (a, v) => _) = _
  cases Part.pendingWrite s.cfg.aw s.part <;> rfl

theorem partObserve_stale (o n : Word32) :
    partObserve o n (stale st d acc pos ret s) = stale st d acc pos ret (partObserve o n s) := by
  have hc : (stale st d acc pos ret s).cfg = s.cfg := rfl
  unfold partObserve
  rw [hc, partFrameEnd_stale]
  by_cases h1 : level s.cfg n .cs = true
  · simp only [h1, if_true]
    by_cases h2 : (!level s.cfg o .sk && level s.cfg n .sk) = true
    · simp only [h2, if_true]; rfl
    · simp only [h2]; rfl
  · simp only [h1]
    by_cases h2 : level s.cfg o .cs = true
    · simp only [h2, if_true]; rfl
    · simp only [h2]; rfl

theorem setLines_stale (v : Word32) : setLines v (stale st d acc pos ret s) = stale st d acc pos ret (setLines v s) := by
  cases h : s.attached with
  | oracle => rw [setLines_oracle v _ h, setLines_oracle v _ (by exact h)]; rfl
  | reference =>
    rw [setLines_reference v _ h, setLines_reference v _ (by exact h)]
    exact partObserve_stale st d acc pos ret { s with creg := v } s.creg v

theorem readValue_stale : readValue (stale st d acc pos ret s) = readValue s := rfl

theorem takeAnswer_stale : takeAnswer (stale st d acc pos ret s) = stale st d acc pos ret (takeAnswer s) := by
  unfold takeAnswer stale
  dsimp only
  split <;> rfl

theorem partStep_stale : partStep (stale st d acc pos ret s) = stale st d acc pos ret (partStep s) := by
  cases h : s.attached with
  | oracle => rw [partStep_oracle _ h, partStep_oracle _ (by exact h)]
  | reference => rw [partStep_reference _ h, partStep_reference _ (by exact h)]; rfl

theorem afterRead_stale : afterRead (stale st d acc pos ret s) = stale st d acc pos ret (afterRead s) := by
  unfold afterRead
  rw [readValue_stale, record_stale, takeAnswer_stale]

theorem drive_stale (sk cs di : Option Bool) :
    drive sk cs di (stale st d acc pos ret s) = stale st d acc pos ret (drive sk cs di s) := by
  cases h : s.ctl with
  | none =>
    have h' : (stale st d acc pos ret s).ctl = none := h
    simp only [drive, h, h']
  | some c =>
    have h' : (stale st d acc pos ret s).ctl = some c := h
    simp only [drive, h, h', regWrite]
    exact setLines_stale st d acc pos ret (record (.write (driveLines s.cfg c sk cs di))
      { s with ctl := some (driveLines s.cfg c sk cs di) }) (driveLines s.cfg c sk cs di)

/-- Writing and holding are blind to these values. -/
theorem runActs_stale (as : List Act) (h : ∀ a ∈ as, a.writesOnly = true) :
    runActs as (stale st d acc pos ret s) = stale st d acc pos ret (runActs as s) := by
  induction as generalizing s with
  | nil => rfl
  | cons a as ih =>
    have e : runAct a (stale st d acc pos ret s) = stale st d acc pos ret (runAct a s) := by
      have ha := h a (by simp)
      cases a <;> simp [Act.writesOnly] at ha
      · exact drive_stale st d acc pos ret s _ _ _
      · simp only [runAct, delay_eq, record_stale, partStep_stale]; rfl
    rw [runActs_cons, runActs_cons, e]
    exact ih _ fun b hb => h b (by simp [hb])

/-- A read is blind to the shadow value. -/
theorem afterRead_ctl_blind (c : Option Word32) : afterRead { s with ctl := c } = { afterRead s with ctl := c } := by
  have hv : readValue { s with ctl := c } = readValue s := rfl
  unfold afterRead
  rw [hv]
  unfold takeAnswer record
  dsimp only
  split <;> rfl

/-- START's read makes a sequence blind to the shadow value that an earlier operation left (R20). -/
theorem runActs_load_stale (as : List Act) (h : ∀ a ∈ as, a.writesOnly = true) (c : Option Word32) :
    runActs (.loadCtl :: as) (stale st d acc pos ret { s with ctl := c }) =
      stale st d acc pos ret (runActs (.loadCtl :: as) s) := by
  have e : runAct .loadCtl (stale st d acc pos ret { s with ctl := c }) =
      stale st d acc pos ret (runAct .loadCtl s) := by
    simp only [runAct]
    rw [afterRead_stale, afterRead_ctl_blind]
    rfl
  rw [runActs_cons, runActs_cons, e, runActs_stale _ _ _ _ _ _ _ h]

end Sys2Proof.Machine
end

