-- ==== Sys2Proof/Laws/Steps.lean ====
section
/-! SUPPORT. Steps of a running operation with nothing scheduled: one action a step (R25), and whole sequences of them. -/

namespace Sys2Proof.Machine

/-! ### Actions and the running position -/

theorem setLines_stepPos' (v : Word32) (s : State) (l : List Act) :
    setLines v { s with stepPos := l } = { setLines v s with stepPos := l } := by
  have e := setLines_stale s.status s.data s.acc l s.ret s v
  have e1 : stale s.status s.data s.acc l s.ret s = { s with stepPos := l } := rfl
  rw [e1] at e
  rw [e]
  simp [stale]

theorem afterRead_stepPos' (s : State) (l : List Act) :
    afterRead { s with stepPos := l } = { afterRead s with stepPos := l } := by
  have e := afterRead_stale s.status s.data s.acc l s.ret s
  have e1 : stale s.status s.data s.acc l s.ret s = { s with stepPos := l } := rfl
  rw [e1] at e
  rw [e]
  simp [stale]

theorem record_stepPos' (e : Event) (s : State) (l : List Act) :
    record e { s with stepPos := l } = { record e s with stepPos := l } := rfl

theorem partStep_stepPos' (s : State) (l : List Act) :
    partStep { s with stepPos := l } = { partStep s with stepPos := l } := by
  have e := partStep_stale s.status s.data s.acc l s.ret s
  have e1 : stale s.status s.data s.acc l s.ret s = { s with stepPos := l } := rfl
  rw [e1] at e
  rw [e]
  simp [stale]

theorem drive_stepPos' (sk cs di : Option Bool) (s : State) (l : List Act) :
    drive sk cs di { s with stepPos := l } = { drive sk cs di s with stepPos := l } := by
  have e := drive_stale s.status s.data s.acc l s.ret s sk cs di
  have e1 : stale s.status s.data s.acc l s.ret s = { s with stepPos := l } := rfl
  rw [e1] at e
  rw [e]
  simp [stale]

/-- A straight action is blind to the running position. -/
theorem runAct_atPos (a : Act) (s : State) (l : List Act) (h : a.straight = true) :
    runAct a { s with stepPos := l } = { runAct a s with stepPos := l } := by
  cases a <;> simp only [Act.straight, Bool.false_eq_true] at h <;> simp only [runAct]
  · rw [afterRead_stepPos']; rfl
  · rw [drive_stepPos']
  · simp only [delay_eq, record_stepPos', partStep_stepPos']
  · rw [drive_stepPos']
  · rw [afterRead_stepPos']; rfl

theorem runActs_atPos (as : List Act) (s : State) (l : List Act) (h : ∀ a ∈ as, a.straight = true) :
    runActs as { s with stepPos := l } = { runActs as s with stepPos := l } := by
  induction as generalizing s with
  | nil => rfl
  | cons a as ih =>
    rw [runActs_cons, runActs_cons, runAct_atPos a s l (h a (by simp))]
    exact ih _ fun b hb => h b (by simp [hb])

/-! ### Steps -/

/-- One step of a running operation with nothing scheduled (R25). -/
theorem step_act (s : State) (a : Act) (rest : List Act) (hok : s.cfg.ok = true) (hb : s.busy = true)
    (hm : s.moves = []) (hp : s.phase = a.phase) (hr : a.ready s = true) :
    step { s with stepPos := a :: rest } = .next (runAct a { s with stepPos := rest }) := by
  have hr' : a.ready { s with stepPos := rest } = true := by cases a <;> exact hr
  have e : actStep { s with stepPos := a :: rest } = .next (runAct a { s with stepPos := rest }) := by
    unfold actStep
    rw [if_pos (by exact hb)]
    exact (if_neg (by simpa using hp)).trans (if_pos hr')
  unfold step
  rw [if_neg (by simp [hok])]
  split
  · exact (if_pos hb).trans e
  · rename_i m ms hms
    have : s.moves = m :: ms := hms
    rw [hm] at this
    cases this

theorem run_succ (n : Nat) (s t : State) (h : step s = .next t) :
    Host.Core.run core (n + 1) s = Host.Core.run core n t := by
  have e : core.step s = .next t := h
  simp only [Host.Core.run, e]

/-- Steps through a straight sequence: the sequence's effect, at the position after it (R25). -/
theorem run_straight (as : List Act) (n : Nat) (s : State) (rest : List Act) (q : Pos) (hok : s.cfg.ok = true)
    (hb : s.busy = true) (hm : s.moves = []) (ha : ∀ a ∈ as, a.straight = true)
    (hq : (posOf s).afterAll as = some q) :
    Host.Core.run core (as.length + n) { s with stepPos := as ++ rest } =
      Host.Core.run core n { runActs as s with stepPos := rest } := by
  induction as generalizing s q with
  | nil => simp
  | cons a as ih =>
    have hst := ha a (by simp)
    simp only [Pos.afterAll] at hq
    cases e : (posOf s).after a with
    | none => rw [e] at hq; cases hq
    | some x =>
      rw [e] at hq
      have hstep := step_act s a (as ++ rest) hok hb hm (phase_of_after e) (ready_of_after e)
      rw [runAct_atPos a s _ hst] at hstep
      have hle := posOf_runAct hok e (by rintro rfl; cases hst) (by rintro rfl; cases hst)
      obtain ⟨y, hy, -⟩ := Pos.afterAll_le hle hq
      have sp := runAct_samePort a s hst
      have hl : (a :: as).length + n = (as.length + n) + 1 := by simp; omega
      rw [hl, List.cons_append, run_succ _ _ _ hstep,
        ih (runAct a s) y (by rw [sp.cfg]; exact hok) (by rw [sp.busy]; exact hb) (by rw [sp.moves]; exact hm)
          (fun b hb => ha b (by simp [hb])) hy]
      rfl

theorem pollStep_atPos (s : State) (l : List Act) :
    pollStep { s with stepPos := l } = { pollStep s with stepPos := l } := by
  have hv : readValue { s with stepPos := l } = readValue s := rfl
  have ha := afterRead_stepPos' s l
  unfold pollStep
  rw [ha, hv]
  dsimp only
  split
  · rfl
  · split <;> rfl

/-- One poll, from where it leaves the position (R95). -/
theorem runAct_poll_atPos (s : State) (rest : List Act) :
    runAct .poll { s with stepPos := rest } =
      if (pollStep s).ret.isSome then { pollStep s with stepPos := rest }
      else { pollStep s with stepPos := .yield :: .poll :: rest } := by
  show (if (pollStep { s with stepPos := rest }).ret.isSome then _ else _) = _
  rw [pollStep_atPos]

/-- Steps through the poll loop: the loop's effect, at the position after it (R95). -/
theorem run_poll (d : Nat) (s : State) (rest : List Act) (hok : s.cfg.ok = true) (hb : s.busy = true)
    (hm : s.moves = []) (hp : s.phase = .commandActive) (hr : s.ret = none) (hd : s.deadline = d) :
    ∃ k, 1 ≤ k ∧ ∀ n, Host.Core.run core (k + n) { s with stepPos := .poll :: rest } =
      Host.Core.run core n { pollLoop d s with stepPos := rest } := by
  induction d generalizing s with
  | zero =>
    refine ⟨1, Nat.le_refl 1, fun n => ?_⟩
    have hs : (pollStep s).ret.isSome = true := by
      rw [pollStep_ret s hr, hd]
      simp only [if_true]
      split <;> rfl
    have e := step_act s .poll rest hok hb hm hp rfl
    have e1 : runAct .poll { s with stepPos := rest } = { pollStep s with stepPos := rest } := by
      rw [runAct_poll_atPos, if_pos hs]
    rw [e1] at e
    rw [Nat.add_comm, run_succ _ _ _ e]
    rfl
  | succ d ih =>
    have e := step_act s .poll rest hok hb hm hp rfl
    by_cases hs : (pollStep s).ret.isSome = true
    · refine ⟨1, Nat.le_refl 1, fun n => ?_⟩
      have e1 : runAct .poll { s with stepPos := rest } = { pollStep s with stepPos := rest } := by
        rw [runAct_poll_atPos, if_pos hs]
      rw [e1] at e
      rw [Nat.add_comm, run_succ _ _ _ e]
      simp only [pollLoop, hs, if_true]
    · have hdo : doBit s.cfg (readValue s) = false := by
        cases hx : doBit s.cfg (readValue s) with
        | false => rfl
        | true => rw [pollStep_ret s hr, hx] at hs; simp at hs
      have hn : (pollStep s).ret = none := by simpa using hs
      have hdl : (pollStep s).deadline = d := by rw [pollStep_deadline s hdo, hd]; rfl
      have e1 : runAct .poll { s with stepPos := rest } = { pollStep s with stepPos := .yield :: .poll :: rest } := by
        rw [runAct_poll_atPos, if_neg hs]
      rw [e1] at e
      have e2 := step_act (pollStep s) .yield (.poll :: rest) (by simpa using hok) (by simpa using hb)
        (by simpa using hm) (by simpa [Act.phase] using hp) rfl
      obtain ⟨k, k1, k2⟩ := ih (runAct .yield (pollStep s)) (by simpa [runAct] using hok) (by simpa [runAct] using hb)
        (by simpa [runAct] using hm) (by simpa [runAct] using hp) (by simpa [runAct] using hn)
        (by simpa [runAct] using hdl)
      refine ⟨k + 2, by omega, fun n => ?_⟩
      have hl : k + 2 + n = (k + n) + 1 + 1 := by omega
      rw [hl, run_succ _ _ _ e, run_succ _ _ _ e2]
      have e3 : runAct .yield { pollStep s with stepPos := .poll :: rest } =
          { runAct .yield (pollStep s) with stepPos := .poll :: rest } := by
        simp only [runAct, yieldPoll_eq, record_stepPos', partStep_stepPos']
      rw [e3, k2 n]
      have e4 : pollLoop (d + 1) s = pollLoop d (runAct .yield (pollStep s)) := by
        simp only [pollLoop, hs]; rfl
      rw [e4]

end Sys2Proof.Machine
end

