-- ==== Sys2Proof/Tests/Slice0.lean ====
section
/-! SUPPORT. The model's own tests. Expected values come from spec/95_test_vectors.md (V and W numbers) and from the rules
named; each row test is one step of a small state. The witnesses at the end show that the hypotheses of each statement can
be met together, clause by clause. -/

namespace Sys2Proof.Tests

open Sys2Proof.Machine

/-! ### Helpers -/

/-- Whether an outcome is a next state with a property. -/
def after (o : Host.Outcome State Fault Refusal) (p : State → Bool) : Bool :=
  match o with
  | .next t => p t
  | .fault _ => false
  | .refused _ => false

/-- Whether an outcome is this refusal. -/
def refusedBy (o : Host.Outcome State Fault Refusal) (r : Refusal) : Bool :=
  match o with
  | .next _ => false
  | .fault _ => false
  | .refused q => decide (q = r)

/-- Whether an outcome is this fault. -/
def faultedBy (o : Host.Outcome State Fault Refusal) (f : Fault) : Bool :=
  match o with
  | .next _ => false
  | .fault q => decide (q = f)
  | .refused _ => false

theorem next_of_after {o : Host.Outcome State Fault Refusal} {p : State → Bool} (h : after o p = true) :
    ∃ t, o = .next t ∧ p t = true := by
  cases o with
  | next t => exact ⟨t, rfl, h⟩
  | fault _ => cases h
  | refused _ => cases h

theorem runs_of_after {o : Host.Outcome State Fault Refusal} {p : State → Bool} (h : after o p = true) :
    ∃ t, o = .next t := (next_of_after h).imp fun _ h => h.1

/-- After reset, with these oracle answers to come. -/
def answering (rs : List Word32) : State := { State.reset with answers := rs }

/-- DO = 1 alone (95_test_vectors.md section 0). -/
def hi : Word32 := 0x08000000

/-- The answers that carry these data bits. -/
def samples (bits : List Bool) : List Word32 := bits.map fun b => if b then hi else 0

/-- The bits of 0xBEEF, D15 first. -/
def beef : List Bool :=
  [true, false, true, true, true, true, true, false, true, true, true, false, true, true, true, true]

/-- Between START and END, with this shadow value. -/
def active (c : Word32) (rs : List Word32) : State :=
  { State.reset with phase := .commandActive, ctl := some c, creg := c, answers := rs }

/-- In Idle, with this shadow value. -/
def resting (c : Word32) (rs : List Word32) (ns : List Nat) : State :=
  { State.reset with ctl := some c, creg := c, answers := rs, deadlines := ns }

/-- The test configuration without DOE. -/
def noDoe : Config := { Config.test with wired := { Config.test.wired with doe := false } }

/-- The test configuration at another address width. -/
def width (aw : Nat) : Config := { Config.test with aw := aw, capacity := 2 ^ (aw + 1) }

/-- The reference part attached, words all 0xFFFF, DO undriven reading 0 (95_test_vectors.md section 3). -/
def partState (we : Bool) (times ns : List Nat) : State :=
  { State.reset with attached := .reference, part := { State.reset.part with we := we }, progTimes := times,
                     deadlines := ns, answers := List.replicate 48 0 }

/-- The history of a state, oldest first. -/
def trace (s : State) : List Event := s.history.reverse

/-- Reads, writes, busy-wait microseconds and yields of a run. -/
def counts (s : State) : List Nat :=
  [(readsOf (trace s)).length, (writesOf (trace s)).length, busyWait (trace s), yieldsOf (trace s)]

/-- The bits a run from low lines clocked into the EEPROM. -/
def clocked (s : State) : List Bool := clockedBits s.cfg 0 (writesOf (trace s))

/-! ### Well-formed terms: an ill-formed one for each check, and it is refused -/

/-- R73: code 2 is no reserved code; 0 and 5 are. -/
theorem test_wf_reserved :
    Instr.wf 6 (.reserved 2) = false ∧ Instr.wf 6 (.reserved 0) = true ∧ Instr.wf 6 (.reserved 5) = true ∧
    refusedBy (exec (.reserved 2) State.reset) .notWellFormed = true := by decide

/-- R69: at AW = 6 a frame's address is below 64. -/
theorem test_wf_readFrame :
    Instr.wf 6 (.readFrame 64) = false ∧ Instr.wf 6 (.readFrame 63) = true ∧
    refusedBy (exec (.readFrame 64) State.reset) .notWellFormed = true := by decide

/-- R69. -/
theorem test_wf_writeFrame :
    Instr.wf 6 (.writeFrame 64 1) = false ∧ Instr.wf 6 (.writeFrame 63 1) = true ∧
    refusedBy (exec (.writeFrame 64 1) State.reset) .notWellFormed = true := by decide

/-- R83: a count is at most 32. -/
theorem test_wf_putBits :
    Instr.wf 6 (.putBits 0 33) = false ∧ Instr.wf 6 (.putBits 0 32) = true ∧
    refusedBy (exec (.putBits 0 33) (active 0 [])) .notWellFormed = true := by decide

/-- R84. -/
theorem test_wf_getBits :
    Instr.wf 6 (.getBits 33) = false ∧ Instr.wf 6 (.getBits 32) = true ∧
    refusedBy (exec (.getBits 33) (active 0 [])) .notWellFormed = true := by decide

/-! ### Decoding: words written out from the spec -/

/-- V1 to V4, and V9 with its ignored fields. -/
theorem test_decode_operations :
    decodeDescriptor 0x0000000000050001 = .readWord 5 ∧
    decodeDescriptor 0x0000BEEF00030002 = .writeWord 3 0xBEEF ∧
    decodeDescriptor 0x0000000000000003 = .writeEnable ∧
    decodeDescriptor 0x0000000000000004 = .writeDisable ∧
    decodeDescriptor 0xFFFF0000FFFF0003 = .writeEnable := by decide

/-- V5, V6, V7, V10. -/
theorem test_decode_reserved :
    decodeDescriptor 0x0000000000000000 = .reserved 0 ∧ decodeDescriptor 0x000000000000000F = .reserved 15 ∧
    decodeDescriptor 0x0000BEEF00030006 = .reserved 6 ∧ decodeDescriptor 0x0000000000030005 = .reserved 5 := by decide

/-- V8: the ignored bits [15:4] and [63:48]. -/
theorem test_decode_ignores : decodeDescriptor 0x123456789ABC0011 = .readWord 0x9ABC := by decide

/-- V1, V2, V3, V4 the other way round. -/
theorem test_encode_operations :
    encodeDescriptor (.readWord 5) = some 0x0000000000050001 ∧
    encodeDescriptor (.writeWord 3 0xBEEF) = some 0x0000BEEF00030002 ∧
    encodeDescriptor .writeEnable = some 0x0000000000000003 ∧
    encodeDescriptor .writeDisable = some 0x0000000000000004 := by decide

/-- W8: READ of word 5, `1 10 000101`. -/
theorem test_decode_readFrame :
    decodeFrame 6 [true, true, false, false, false, false, true, false, true] = .ok (.readFrame 5) := by decide

/-- W8: WRITE of 0xBEEF at word 3, `1 01 000011 1011111011101111`. -/
theorem test_decode_writeFrame :
    decodeFrame 6 ([true, false, true, false, false, false, false, true, true] ++
      [true, false, true, true, true, true, true, false, true, true, true, false, true, true, true, true]) =
    .ok (.writeFrame 3 0xBEEF) := by decide

/-- W8: EWEN, `1 0011 0000`. -/
theorem test_decode_ewenFrame :
    decodeFrame 6 [true, false, false, true, true, false, false, false, false] = .ok .ewenFrame := by decide

/-- W8: EWDS, `1 0000 00000000`. -/
theorem test_decode_ewdsFrame :
    decodeFrame 6 [true, false, false, false, false, false, false, false, false, false, false, false, false] =
    .ok .ewdsFrame := by decide

/-- R74, R75: what is no frame, by name. -/
theorem test_decode_noFrame :
    decodeFrame 6 [false] = .error .noStartBit ∧ decodeFrame 6 [true, true, true] = .error .neverSent ∧
    decodeFrame 6 [true, true, false, true] = .error .truncated ∧
    decodeFrame 2 [true, true, false, true, false, true] = .error .overlong ∧
    decodeFrame 3 [true, false, false, true, true, true] = .error .badPadding := by decide

/-- The same words as the opcode table numbers their bits (log entry 26). -/
theorem test_decode_table :
    decodeTableWord 64 0x0000000000050001 = some (.readWord 5) ∧
    decodeTableWord 9 0b110000101 = some (.readFrame 5) ∧ decodeTableWord 9 0b100110000 = some .ewenFrame ∧
    decodeTableWord 13 0b1000000000000 = some .ewdsFrame := by decide

/-- R77: the syntax, an alias, a comment, and operands out of 16 bits. -/
theorem test_assemble :
    assembleLine "WRITE_WORD 3, 0xBEEF ; P1".toList = .ok (some (.writeWord 3 0xBEEF)) ∧
    assembleLine "EWEN".toList = .ok (some .writeEnable) ∧ assembleLine "; only a comment".toList = .ok none ∧
    assembleLine "READ_WORD 65536".toList = .error .outOfRange := by decide

/-! ### Configuration and reset -/

/-- W1, R140: the test configuration is built, AW = 6 with 256 bytes is refused. -/
theorem test_create :
    State.create Config.test = some State.reset ∧
    State.create { Config.test with capacity := 256 } = none := by decide

/-- Log entry 16: the word placed is the next step's instruction, a frame's word its host operation (log entry 26). -/
theorem test_withFetchWord :
    after (step (State.withFetchWord (answering [0]) 64 3)) (fun t => t.status == .ok && counts t == [1, 19, 38, 0]) =
      true ∧
    after (step (State.withFetchWord (answering [0]) 13 0b1000000000000)) (fun t => counts t == [1, 27, 54, 0]) = true ∧
    after (step (State.withFetchWord State.reset 64 0x0000BEEF00030002)) (fun _ => true) = true ∧
    after (step (State.withFetchWord State.reset 64 6)) (fun t => t.status == .illegalOp) = true := by
  decide +kernel

/-! ### The host operations -/

/-- V12. -/
theorem test_readWord_ok :
    after (exec (.readWord 5) (answering (0 :: 0 :: samples beef))) (fun t =>
      t.status == .ok && t.data == 0x0000BEEF && t.phase == .idle && !t.busy && t.creg == 0 &&
      counts t == [18, 52, 118, 0] &&
      clocked t == [true, true, false, false, false, false, true, false, true] ++ List.replicate 16 true) = true := by
  decide +kernel

/-- V13, its whole trace. -/
theorem test_readWord_framing :
    after (exec (.readWord 5) (answering [0, hi])) (fun t =>
      t.status == .protocolFraming && t.data == 0 && t.phase == .idle && counts t == [2, 19, 38, 0] &&
      writesOf (trace t) == [0x86000000, 0x87000000, 0x86000000, 0x87000000, 0x02000000, 0x03000000, 0x02000000,
        0x03000000, 0x02000000, 0x03000000, 0x02000000, 0x03000000, 0x86000000, 0x87000000, 0x02000000, 0x03000000,
        0x86000000, 0x87000000, 0]) = true := by
  decide

/-- V16: polls 0, 0, 1. -/
theorem test_writeWord_ok :
    after (exec (.writeWord 3 0xBEEF) { answering [0, 0, 0, hi] with deadlines := [5] }) (fun t =>
      t.status == .ok && t.data == 0 && t.phase == .idle && counts t == [4, 53, 104, 2] &&
      (trace t).drop 103 == [.write 0x86000000, .read 0, .yield, .read 0, .yield, .read hi, .write 0, .delay 2,
        .completed .ok 0]) = true := by
  decide +kernel

/-- V18: the deadline is past at the first test. -/
theorem test_writeWord_timeout :
    after (exec (.writeWord 3 0xBEEF) { answering [0, 0] with deadlines := [0] }) (fun t =>
      t.status == .writeTimeout && t.data == 0 && t.phase == .idle && t.creg == 0 && counts t == [2, 53, 104, 0]) =
    true := by
  decide +kernel

/-- V21, its whole list of writes. -/
theorem test_writeEnable :
    after (exec .writeEnable (answering [0])) (fun t =>
      t.status == .ok && t.data == 0 && counts t == [1, 19, 38, 0] &&
      writesOf (trace t) == [0x86000000, 0x87000000, 0x02000000, 0x03000000, 0x02000000, 0x03000000, 0x86000000,
        0x87000000, 0x86000000, 0x87000000, 0x02000000, 0x03000000, 0x02000000, 0x03000000, 0x02000000, 0x03000000,
        0x02000000, 0x03000000, 0]) = true := by
  decide

/-- V24: DOE not wired, bit 31 read as 1 stays 1. -/
theorem test_writeEnable_noDoe :
    after (exec .writeEnable { State.fresh noDoe with answers := [0x80000000] }) (fun t =>
      (writesOf (trace t)).take 4 == [0x86000000, 0x87000000, 0x82000000, 0x83000000] && t.creg == 0x80000000) =
    true := by
  decide

/-- V22. -/
theorem test_writeDisable :
    after (exec .writeDisable (answering [0])) (fun t =>
      t.status == .ok && counts t == [1, 27, 54, 0] && clocked t == true :: List.replicate 12 false) = true := by
  decide

/-- R135: the part's latch is cleared. -/
theorem test_writeDisable_part :
    after (exec .writeDisable (partState true [] [])) (fun t => t.status == .ok && !t.part.we) = true := by decide

/-- V5 and V7: no access, whatever ADDR and DATA hold. -/
theorem test_reserved :
    after (exec (.reserved 6) (answering [])) (fun t =>
      t.status == .illegalOp && t.data == 0 && trace t == [.completed .illegalOp 0]) = true := by decide

/-! ### The frames -/

/-- R65: the READ frame's samples are left in `acc`. -/
theorem test_readFrame :
    after (exec (.readFrame 5) (answering (0 :: 0 :: samples beef))) (fun t =>
      t.acc == some 0xBEEF && t.phase == .idle && t.ret == some .ok) = true := by decide +kernel

/-- R129: the frame's word is stored at CS falling in a part that is enabled, its low byte at the even offset (R46). -/
theorem test_writeFrame :
    after (exec (.writeFrame 3 0xBEEF) (partState true [0] [])) (fun t =>
      Memory.readWord t.part.mem 3 == 0xBEEF && Memory.read t.part.mem 6 == 0xEF && Memory.read t.part.mem 7 == 0xBE &&
      Memory.readWord t.part.mem 2 == 0xFFFF) = true := by decide +kernel

/-- R67, R129. -/
theorem test_ewenFrame :
    after (exec .ewenFrame (partState false [] [])) (fun t => t.part.we && t.part.cmd == .waiting) = true := by decide

/-- R68, R134: the four extra zeros change nothing. -/
theorem test_ewdsFrame :
    after (exec .ewdsFrame (partState true [] [])) (fun t => !t.part.we && (clocked t).length == 13) = true := by decide

/-! ### The micro-operations -/

/-- V-S2. -/
theorem test_start :
    after (exec .start (answering [0x00004321])) (fun t =>
      trace t == [.read 0x00004321, .write 0x86004321, .delay 2, .write 0x87004321, .delay 2] &&
      t.ctl == some 0x87004321 && t.phase == .commandActive) = true := by decide

/-- V-S5: DOE not wired. -/
theorem test_start_noDoe :
    after (exec .start { State.fresh noDoe with answers := [0x80000000] }) (fun t =>
      trace t == [.read 0x80000000, .write 0x86000000, .delay 2, .write 0x87000000, .delay 2]) = true := by decide

/-- V-P1. -/
theorem test_putBits :
    after (exec (.putBits 0b10 2) (active 0x87000000 [])) (fun t =>
      trace t == [.write 0x86000000, .delay 2, .write 0x87000000, .delay 2, .write 0x02000000, .delay 2,
        .write 0x03000000, .delay 2] && t.ctl == some 0x03000000) = true := by decide

/-- V-P4: the high bits of the value are not sent. -/
theorem test_putBits_high :
    after (exec (.putBits 0xFFFFFFC5 6) (active 0x87000000 [])) (fun t =>
      clockedBits t.cfg 0x87000000 (writesOf (trace t)) == [false, false, false, true, false, true]) = true := by decide

/-- V-G1. -/
theorem test_getBits :
    after (exec (.getBits 16) (active 0x03000000 (samples beef))) (fun t =>
      t.acc == some 0xBEEF && t.ctl == some 0x87000000 && counts t == [16, 33, 80, 0] &&
      (writesOf (trace t)).take 3 == [0x87000000, 0x86000000, 0x87000000]) = true := by decide +kernel

/-- V-G4: only POS_DO is sampled. -/
theorem test_getBits_onlyDo :
    after (exec (.getBits 16) (active 0x03000000 (List.replicate 16 0xF7FFFFFF))) (fun t => t.acc == some 0) = true := by
  decide +kernel

/-- V-E2. -/
theorem test_endOp :
    after (exec .endOp (active 0x87004321 [])) (fun t =>
      trace t == [.write 0x00004321, .delay 2] && t.ctl == some 0x00004321 && t.phase == .idle) = true := by decide

/-- V-E4: DO written back as 1. -/
theorem test_endOp_do :
    after (exec .endOp (active 0x8F000000 [])) (fun t => trace t == [.write 0x08000000, .delay 2]) = true := by decide

/-- V17's wait: 0, 0, 0 with the deadline true at the third test. -/
theorem test_wait_timeout :
    after (exec .wait (resting 0 [0, 0, 0] [2])) (fun t =>
      t.ret == some .writeTimeout && trace t == [.write 0x86000000, .read 0, .yield, .read 0, .yield, .read 0, .write 0,
        .delay 2]) = true := by decide

/-- V20: a poll that reads 1 wins over an expired deadline. -/
theorem test_wait_ready :
    after (exec .wait (resting 0 [hi] [0])) (fun t =>
      t.ret == some .ok && trace t == [.write 0x86000000, .read hi, .write 0, .delay 2]) = true := by decide

/-! ### Witnesses: the hypotheses of each statement, met together -/

/-- InstanceIsBuiltForAdmittedConfigurationsOnly, first clause: the narrowest and the widest address, an instance each. -/
theorem test_witness_InstanceIsBuilt_admitted :
    State.create (width 2) = some (State.fresh (width 2)) ∧ State.create (width 16) = some (State.fresh (width 16)) ∧
    State.create noDoe = some (State.fresh noDoe) := by decide

/-- InstanceIsBuiltForAdmittedConfigurationsOnly, second clause: one excluded configuration for each item of R140. -/
theorem test_witness_InstanceIsBuilt_excluded :
    State.create (width 1) = none ∧ State.create (width 17) = none ∧
    State.create { Config.test with posSK := 32 } = none ∧ State.create { Config.test with posDO := 25 } = none ∧
    State.create { Config.test with posDOE := 24 } = none ∧ State.create { Config.test with ctrlOffset := 2 } = none ∧
    State.create { Config.test with wired := { Config.test.wired with dout := false } } = none := by decide

/-- ResetAbandonsTheOperationAndKeepsTheLines. -/
theorem test_witness_ResetAbandons :
    Config.test.ok = true ∧
    (({ active 0x87000000 [] with busy := true, stepPos := endActs, moves := [.reset] } : State).moves = .reset :: []) :=
  by decide

/-- ConfigurationNeverChanges, both clauses. -/
theorem test_witness_ConfigurationNeverChanges :
    (∃ t, step State.reset = .next t) ∧ (∃ t, exec (.reserved 0) State.reset = .next t) :=
  ⟨⟨_, rfl⟩, ⟨_, rfl⟩⟩

/-- EveryDescriptorSelectsOneOutcome, each clause; codes 0, 5 and 15 for the last. -/
theorem test_witness_EveryDescriptorSelectsOneOutcome :
    (1 : Descriptor).extractLsb 3 0 = 1 ∧ (2 : Descriptor).extractLsb 3 0 = 2 ∧ (3 : Descriptor).extractLsb 3 0 = 3 ∧
    (4 : Descriptor).extractLsb 3 0 = 4 ∧ ((0 : Descriptor).extractLsb 3 0).toNat = 0 ∧
    5 ≤ ((5 : Descriptor).extractLsb 3 0).toNat ∧ 5 ≤ ((15 : Descriptor).extractLsb 3 0).toNat := by decide

/-- IgnoredFieldsNeverChangeAStep: an operation of each kind against the same one with every ignored bit set (V3, V9). -/
theorem test_witness_IgnoredFieldsNeverChangeAStep :
    (3 : Descriptor).extractLsb 3 0 = (0xFFFF0000FFFF0003 : Descriptor).extractLsb 3 0 ∧
    (0x00050001 : Descriptor).extractLsb 3 0 = (0xFFFFFFFF0005FFF1 : Descriptor).extractLsb 3 0 ∧
    (0x00050001 : Descriptor).extractLsb 31 16 = (0xFFFFFFFF0005FFF1 : Descriptor).extractLsb 31 16 ∧
    (0x0000BEEF00030002 : Descriptor).extractLsb 3 0 = (0xFFFFBEEF0003FFF2 : Descriptor).extractLsb 3 0 ∧
    (0x0000BEEF00030002 : Descriptor).extractLsb 31 16 = (0xFFFFBEEF0003FFF2 : Descriptor).extractLsb 31 16 ∧
    (0x0000BEEF00030002 : Descriptor).extractLsb 47 32 = (0xFFFFBEEF0003FFF2 : Descriptor).extractLsb 47 32 := by decide

/-- DescriptorRoundTrip: a well-formed row with a descriptor and one without. -/
theorem test_witness_DescriptorRoundTrip :
    Instr.wf 6 (.reserved 15) = true ∧ Instr.isHostOp (.reserved 15) = true ∧
    Instr.wf 6 (.putBits 0 32) = true ∧ Instr.isHostOp (.putBits 0 32) = false := by decide

/-- FrameRoundTrip and FrameLengths: the last address at the widest and the narrowest width. -/
theorem test_witness_FrameRoundTrip :
    Instr.wf 16 (.writeFrame 0xFFFF 0) = true ∧ (encodeFrame 16 (.writeFrame 0xFFFF 0)).isSome = true ∧
    Instr.wf 2 (.readFrame 3) = true ∧ encodeFrame 2 (.readFrame 3) = some [true, true, false, true, true] ∧
    encodeFrame 2 .ewenFrame = some [true, false, false, true, true] ∧
    encodeFrame 2 .ewdsFrame = some [true, false, false, false, false, false, false, false, false] := by decide

/-- FrameDecodingIsExact. -/
theorem test_witness_FrameDecodingIsExact :
    decodeFrame 2 [true, false, false, true, true] = .ok .ewenFrame ∧
    decodeFrame 2 [true, true, false, true, true] = .ok (.readFrame 3) := by decide

/-- AssembledLinesAreTheFourOperations: numerals in both bases, the last operand admitted and the first refused. -/
theorem test_witness_AssembledLines_numerals :
    Numeral "65535".toList 65535 ∧ Numeral "0xffff".toList 65535 ∧ Numeral "65536".toList 65536 ∧
    Numeral "0x10000".toList 65536 ∧ Numeral "0".toList 0 :=
  ⟨Or.inl ⟨[6, 5, 5, 3, 5], by decide, by decide, by simp [WritesDigit, Nat.digitChar], by decide⟩,
   Or.inr ⟨[15, 15, 15, 15], "ffff".toList, by decide, by decide, by decide, by simp [WritesDigit, Nat.digitChar],
     by decide⟩,
   Or.inl ⟨[6, 5, 5, 3, 6], by decide, by decide, by simp [WritesDigit, Nat.digitChar], by decide⟩,
   Or.inr ⟨[1, 0, 0, 0, 0], "10000".toList, by decide, by decide, by decide, by simp [WritesDigit, Nat.digitChar],
     by decide⟩,
   Or.inl ⟨[0], by decide, by decide, by simp [WritesDigit, Nat.digitChar], by decide⟩⟩

/-- AssembledLinesAreTheFourOperations: the hexadecimal letters of P1 and P4, upper case, and mixed; and blanks. -/
theorem test_witness_AssembledLines_upperCase :
    Numeral "0xBEEF".toList 0xBEEF ∧ Numeral "0xCCBB".toList 0xCCBB ∧ Numeral "0xbEeF".toList 0xBEEF ∧
    Blanks [] ∧ Blanks "    ".toList ∧ Blanks [' ', '\t'] :=
  ⟨Or.inr ⟨[11, 14, 14, 15], "BEEF".toList, by decide, by decide, by decide, by simp [WritesDigit, Nat.digitChar],
     by decide⟩,
   Or.inr ⟨[12, 12, 11, 11], "CCBB".toList, by decide, by decide, by decide, by simp [WritesDigit, Nat.digitChar],
     by decide⟩,
   Or.inr ⟨[11, 14, 14, 15], "bEeF".toList, by decide, by decide, by decide, by simp [WritesDigit, Nat.digitChar],
     by decide⟩, by simp [Blanks], by simp [Blanks], by simp [Blanks]⟩

/-- AssembledLinesAreTheFourOperations: a line of each clause. -/
theorem test_witness_AssembledLines :
    assembleLine "READ_WORD 0xffff".toList = .ok (some (.readWord 65535)) ∧
    assembleLine "WRITE_WORD 0, 0xAA22     ; new high byte".toList = .ok (some (.writeWord 0 0xAA22)) ∧
    assembleLine " \tREAD_WORD\t3 ".toList = .ok (some (.readWord 3)) ∧ assembleLine "  ".toList = .ok none ∧
    assembleLine "READ_WORD 0x10000".toList = .error .outOfRange ∧
    assembleLine "WRITE_WORD 65535, 0".toList = .ok (some (.writeWord 65535 0)) ∧
    assembleLine "WRITE_WORD 65536, 0".toList = .error .outOfRange ∧
    assembleLine "WRITE_WORD 0, 0x10000".toList = .error .outOfRange ∧
    assembleLine "WRITE_ENABLE".toList = .ok (some .writeEnable) ∧
    assembleLine "EWDS; off".toList = .ok (some .writeDisable) := by decide +kernel

/-- SetlReplacesOnlyItsLine: a wired line at its own position and at bit 31, and DOE where it is not wired. -/
theorem test_witness_SetlReplacesOnlyItsLine :
    24 < 32 ∧ Config.test.isWired .sk = true ∧ 24 = Config.test.pos .sk ∧ noDoe.isWired .doe = false ∧
    setl noDoe 0 .doe true = 0 ∧ setl Config.test 0 .doe true = 0x80000000 := by decide

/-- StartRaisesChipSelectAndClocksTheStartBit. -/
theorem test_witness_Start : State.reset.cfg.ok = true ∧ State.reset.phase = .idle := by decide

/-- PutBitsClocksItsBitsOut, GetBitsAccumulatesItsSamples, EndLowersTheLinesInOneWrite: counts 0 and 32. -/
theorem test_witness_ActivePhase :
    (active 0x87000000 []).cfg.ok = true ∧ (active 0x87000000 []).phase = .commandActive ∧
    (active 0x87000000 []).ctl = some 0x87000000 ∧ 0 ≤ 32 ∧ 32 ≤ 32 := by decide

/-- WaitPollsAndEnds. -/
theorem test_witness_WaitPollsAndEnds :
    (resting 0 [] []).cfg.ok = true ∧ (resting 0 [] []).phase = .idle ∧ (resting 0 [] []).ctl = some 0 := by decide

/-- The hypotheses of WaitEndsAtReadyOrDeadline, of the state that scripts them. -/
def waitHypotheses (zeros : List Word32) (last : Word32) (n : Nat) : Bool :=
  let s := resting 0 (zeros ++ last :: [7]) [n]
  s.cfg.ok && s.phase == .idle && s.ctl == some 0 && s.attached == .oracle && s.deadlines == [n] &&
  s.answers == zeros ++ last :: [7] && (zeros.all fun r => !doBit s.cfg r) && decide (zeros.length ≤ n) &&
  (doBit s.cfg last || zeros.length == n)

/-- WaitEndsAtReadyOrDeadline: ready at once, ready at the last poll the deadline allows, the deadline without ready, and
ready long before the deadline. -/
theorem test_witness_WaitEnds :
    waitHypotheses [] hi 0 = true ∧ waitHypotheses [0, 0] hi 2 = true ∧ waitHypotheses [0, 0] 0 2 = true ∧
    waitHypotheses [0] hi 5 = true := by decide

/-- After reset with an operation of these actions running in this phase. -/
def running (p : Phase) (as : List Act) : State :=
  { resting 0 [] [] with phase := p, busy := true, stepPos := as }

/-- EngineRowsFaultOutsideTheirPhase, the single actions: each primitive's first action in the other phase, a later one, and
WAIT's re-assert (R86). -/
theorem test_witness_EngineActionsFault :
    (running .commandActive startActs).stepPos = .loadCtl :: startActs.tail ∧
    faultedBy (step (running .commandActive startActs)) .phaseViolation = true ∧
    faultedBy (step (running .commandActive startActs.tail)) .phaseViolation = true ∧
    faultedBy (step (running .idle (bitActs true))) .phaseViolation = true ∧
    faultedBy (step (running .idle (getActs 1))) .phaseViolation = true ∧
    faultedBy (step (running .idle endActs)) .phaseViolation = true ∧
    faultedBy (step { running .idle endActs with moves := [.act] }) .phaseViolation = true ∧
    faultedBy (step (running .commandActive [.reassert])) .phaseViolation = true := by decide

/-- EngineRowsFaultOutsideTheirPhase, both clauses, and the fault itself (R86). -/
theorem test_witness_EngineRowsFault :
    State.reset.phase = .idle ∧ Instr.wf State.reset.cfg.aw (.putBits 0 32) = true ∧
    faultedBy (exec (.putBits 0 32) State.reset) .phaseViolation = true ∧
    (active 0 []).phase = .commandActive ∧ Instr.wf (active 0 []).cfg.aw .start = true ∧
    faultedBy (exec .start (active 0 [])) .phaseViolation = true := by decide

/-- IllFormedRowsAreRefused. -/
theorem test_witness_IllFormedRowsAreRefused :
    State.reset.cfg.ok = true ∧ State.reset.busy = false ∧ Instr.wf State.reset.cfg.aw (.readFrame 64) = false := by
  decide

/-- FramesClockTheirEncoding: one frame of each kind. -/
theorem test_witness_FramesClockTheirEncoding :
    State.reset.cfg.ok = true ∧ State.reset.phase = .idle ∧
    (∀ i ∈ [Instr.writeFrame 63 0xFFFF, .ewenFrame, .ewdsFrame],
      i.wf State.reset.cfg.aw = true ∧ (encodeFrame State.reset.cfg.aw i).isSome = true) := by decide

/-- ReadFrameChecksThenSamples: the last word of the array. -/
theorem test_witness_ReadFrame :
    (63#16).toNat < State.reset.cfg.words ∧ (encodeFrame State.reset.cfg.aw (.readFrame 63)).isSome = true := by decide

/-- ReadFrameChecksThenSamples and ReadWordCompletes: both dummy bits occur. -/
theorem test_witness_ReadFrame_dummy :
    after (exec (.readFrame 63) (answering [0, hi])) (fun t => t.ret == some .protocolFraming) = true ∧
    after (exec (.readFrame 63) (answering (List.replicate 18 0))) (fun t => t.ret == some .ok) = true := by
  decide +kernel

/-- The host-operation statements' `Ready`: after reset, and between operations. -/
theorem test_witness_Ready : Ready State.reset ∧ Ready (resting 0 [] []) := ⟨⟨rfl, rfl, rfl⟩, ⟨rfl, rfl, rfl⟩⟩

/-- ReadWordReturnsTheSampledWord, both clauses. -/
theorem test_witness_ReadWordReturns :
    Ready (answering (0 :: 0 :: (samples beef ++ []))) ∧ Ready (answering (0 :: hi :: (samples beef ++ []))) ∧
    (5#16).toNat < State.reset.cfg.words ∧ (samples beef).length = 16 ∧
    doBit Config.test 0 = false ∧ doBit Config.test hi = true :=
  ⟨⟨rfl, rfl, rfl⟩, ⟨rfl, rfl, rfl⟩, by decide⟩

/-- WriteWordCompletes: the last word of the array. -/
theorem test_witness_WriteWordCompletes : Ready State.reset ∧ (63#16).toNat < State.reset.cfg.words :=
  ⟨⟨rfl, rfl, rfl⟩, by decide⟩

/-- WriteEnableAndDisableComplete. -/
theorem test_witness_WriteEnableAndDisable :
    Ready State.reset ∧ (Instr.writeEnable = .writeEnable ∨ Instr.writeEnable = .writeDisable) :=
  ⟨⟨rfl, rfl, rfl⟩, by decide⟩

/-- ReservedCodeCompletesWithIllegalOp: codes 0, 5 and 15. -/
theorem test_witness_ReservedCode :
    State.reset.cfg.ok = true ∧ State.reset.busy = false ∧ ((0xFFF0 : Descriptor).extractLsb 3 0).toNat = 0 ∧
    5 ≤ ((0x00030005 : Descriptor).extractLsb 3 0).toNat ∧ 5 ≤ ((15 : Descriptor).extractLsb 3 0).toNat := by decide

/-- AddressOutOfRangeMakesNoAccess: the first address outside (W4) and the last that can be named. -/
theorem test_witness_AddressOutOfRange :
    State.reset.cfg.ok = true ∧ State.reset.busy = false ∧ 2 ^ State.reset.cfg.aw ≤ (64#16).toNat ∧
    2 ^ State.reset.cfg.aw ≤ (0xFFFF#16).toNat ∧ State.reset.cfg.capacity / 2 = 64 := by decide

/-- DescriptorWhileBusyIsRefused, both moves. -/
theorem test_witness_DescriptorWhileBusy :
    refusedBy (step { State.reset with busy := true, moves := [.run 3] }) .hostBusy = true ∧
    refusedBy (step { State.reset with busy := true, moves := [.issue 3] }) .hostBusy = true := by decide

/-- HostOperationsEndIdleWithLinesLow, StatusAndDataOfHostOperations, FrameOfHostOperations: an operation that runs its
sequence and operations that do not. -/
theorem test_witness_HostOperations :
    (∃ t, exec .writeEnable State.reset = .next t) ∧ earlyStatus State.reset.cfg .writeEnable = none ∧
    (∃ t, exec (.readWord 64) State.reset = .next t) ∧
    earlyStatus State.reset.cfg (.readWord 64) = some .addressOutOfRange ∧
    (∃ t, exec (.writeWord 3 0) { answering [0, hi] with deadlines := [0] } = .next t) ∧
    (∃ t, exec (.reserved 0) State.reset = .next t) ∧ (∃ t, exec .writeDisable State.reset = .next t) :=
  ⟨runs_of_after (p := fun _ => true) (by decide +kernel), by decide,
   runs_of_after (p := fun _ => true) (by decide +kernel), by decide,
   runs_of_after (p := fun _ => true) (by decide +kernel), runs_of_after (p := fun _ => true) (by decide +kernel),
   runs_of_after (p := fun _ => true) (by decide +kernel)⟩

/-- EveryWriteKeepsOutputEnableWithDataIn: each micro-operation, from a shadow value whose DOE and DI differ, writes only
values in which they agree. -/
theorem test_witness_EveryWrite_lockstep :
    lockstep Config.test 0x80000000 = false ∧
    (∀ i ∈ [Instr.putBits 1 2, .getBits 1, .endOp], after (exec i (active 0x80000000 [])) (fun t =>
      decide ((writesOf (trace t)).length ≥ 1) && (writesOf (trace t)).all (lockstep t.cfg)) = true) ∧
    after (exec .wait (resting 0x80000000 [hi] [0])) (fun t =>
      decide ((writesOf (trace t)).length ≥ 1) && (writesOf (trace t)).all (lockstep t.cfg)) = true := by
  decide +kernel

/-- EveryWriteKeepsOutputEnableWithDataIn and EveryWriteKeepsTheOtherBitsAsStartReadThem: rows that write. -/
theorem test_witness_EveryWrite :
    State.reset.phase = .idle ∧ (∃ t, exec .ewenFrame State.reset = .next t) ∧ Instr.ewenFrame ≠ .wait :=
  ⟨rfl, runs_of_after (p := fun _ => true) (by decide +kernel), by decide⟩

/-- HostOperationsClockExactlyOneFrame: each of the four. -/
theorem test_witness_ClockExactlyOneFrame :
    (∀ i ∈ [Instr.readWord 63, .writeWord 63 1, .writeEnable, .writeDisable],
      earlyStatus State.reset.cfg i = none ∧
      ((frameOf i).bind (encodeFrame State.reset.cfg.aw)).isSome = true) := by decide

/-- AccessCountsOfHostOperations: V21, V22, V12, V13 and V18 give the numbers of each clause at AW = 6; V15 at AW = 2. -/
theorem test_witness_AccessCounts :
    after (exec (.readWord 3) { State.fresh (width 2) with answers := List.replicate 18 0 }) (fun t =>
      t.status == .ok && counts t == [18, 44, 102, 0]) = true ∧
    after (exec .writeDisable { State.fresh (width 16) with answers := [0] }) (fun t => counts t == [1, 47, 94, 0]) =
      true := by
  decide +kernel

/-- AcceptedOperationsUseNoStaleState. -/
theorem test_witness_AcceptedOperations :
    Ready (resting 0x1234 [] []) ∧ Instr.isHostOp .writeEnable = true ∧
    earlyStatus (resting 0x1234 [] []).cfg .writeEnable = none := ⟨⟨rfl, rfl, rfl⟩, rfl, rfl⟩

/-- FrameOfMicroOperations and MicroOperationsKeepOtherBytes: each micro-operation runs, the later four with `ctl` the value
last written, with the oracle and with the part. -/
theorem test_witness_MicroOperations :
    (∃ t, exec .start State.reset = .next t) ∧ (∃ t, exec (.putBits 5 3) (active 0x87000000 []) = .next t) ∧
    (∃ t, exec (.getBits 2) (active 0x87000000 []) = .next t) ∧ (∃ t, exec .endOp (active 0x87000000 []) = .next t) ∧
    (∃ t, exec .wait (resting 0 [hi] [0]) = .next t) ∧ (active 0x87000000 []).ctl = some (active 0x87000000 []).creg ∧
    (resting 0 [hi] [0]).ctl = some (resting 0 [hi] [0]).creg ∧ State.reset.attached = .oracle ∧
    (∃ t, exec .endOp { active 0x87000000 [0] with attached := .reference } = .next t) :=
  ⟨runs_of_after (p := fun _ => true) (by decide +kernel), runs_of_after (p := fun _ => true) (by decide +kernel),
   runs_of_after (p := fun _ => true) (by decide +kernel), runs_of_after (p := fun _ => true) (by decide +kernel),
   runs_of_after (p := fun _ => true) (by decide +kernel), rfl, rfl, rfl,
   runs_of_after (p := fun _ => true) (by decide +kernel)⟩

/-- MicroOperationsKeepOtherBytes: END after a complete WRITE of word 3 changes that word's bytes and leaves byte 0. -/
theorem test_witness_MicroOperationsKeepOtherBytes :
    Part.pendingWrite 6 ⟨[], true, none, .shifting ([false, true, false, false, false, false, true, true] ++ beef)⟩ =
      some (3, 0xBEEF) ∧
    ¬ inWord 3 0 ∧ inWord 3 6 ∧ inWord 3 7 := by
  refine ⟨by decide, ?_, Or.inl rfl, Or.inr rfl⟩
  rintro (h | h) <;> omega

/-- FrameOfSerialFrames: each frame runs. -/
theorem test_witness_FrameOfSerialFrames :
    (∃ t, exec (.readFrame 63) State.reset = .next t) ∧ (∃ t, exec (.writeFrame 63 1) State.reset = .next t) ∧
    (∃ t, exec .ewenFrame State.reset = .next t) ∧ (∃ t, exec .ewdsFrame State.reset = .next t) :=
  ⟨runs_of_after (p := fun _ => true) (by decide +kernel), runs_of_after (p := fun _ => true) (by decide +kernel),
   runs_of_after (p := fun _ => true) (by decide +kernel), runs_of_after (p := fun _ => true) (by decide +kernel)⟩

/-- RowsStoreOnlyTheirWord and OnlyEnableAndDisableMoveTheLatch: a WRITE row on a part that waits, a byte outside its word,
and a part that programs another word. -/
theorem test_witness_RowsStoreOnlyTheirWord :
    (partState true [0] []).part.cmd = .waiting ∧ (∃ t, exec (.writeFrame 3 7) (partState true [0] []) = .next t) ∧
    (encodeFrame (partState true [0] []).cfg.aw (.writeFrame 3 7)).isSome = true ∧
    storedWord (.writeFrame 3 7) = some 3 ∧ ¬ inWord 3 5 ∧ ¬ inPendingWord (partState true [0] []).part 5 ∧
    inPendingWord { (partState true [0] []).part with programming := some { addr := 2, value := 1, left := 3 } } 5 := by
  refine ⟨rfl, runs_of_after (p := fun _ => true) (by decide +kernel), by decide, rfl, ?_, ?_, _, rfl, Or.inr rfl⟩
  · rintro (h | h) <;> omega
  · rintro ⟨g, h, -⟩; cases h

/-- WordReadsAsWritten, both branches, and CanonicalMemoryIsUnique: a memory that is not empty. -/
theorem test_witness_Memory :
    Memory.wf (Memory.writeWord [] 63 0xFF00) = true ∧ Memory.writeWord [] 63 0xFF00 = [(126, 0)] ∧
    Memory.readWord (Memory.writeWord [] 63 0xFF00) 63 = 0xFF00 ∧
    Memory.readWord (Memory.writeWord [] 63 0xFF00) 62 = 0xFFFF := by decide

/-- StepKeepsMemoryCanonical: a part that holds the last word and programs it again. -/
theorem test_witness_StepKeepsMemoryCanonical :
    MemInv { State.reset with
      part := { mem := [(126, 0)], we := true, cmd := .waiting, programming := some ⟨63, 1, 1⟩ } } ∧
    ∃ t, step State.reset = .next t := by
  refine ⟨⟨by decide, by decide, by decide, ?_⟩, _, rfl⟩
  intro g h
  cases h
  decide

/-- StepRunsTheDecodedInstruction and ActionsOfAnOperationAddUpToExec: a descriptor scheduled on an admitted configuration. -/
theorem test_witness_Step :
    State.reset.cfg.ok = true ∧ ({ State.reset with moves := [.run 3] } : State).moves = .run 3 :: [] ∧
    State.reset.busy = false ∧ State.reset.moves = [] := by decide

/-- ExcludedConfigurationIsRefused. -/
theorem test_witness_ExcludedConfiguration : (State.fresh (width 1)).cfg.ok = false := by decide

/-- NewInstanceMeetsTheSequencerInvariant. -/
theorem test_witness_NewInstance : State.create (width 7) = some (State.fresh (width 7)) := by decide

/-- StepKeepsTheSequencerInvariant and NoStepFaultsUnderTheInvariant: between operations, and inside one with a single action
next and with a descriptor offered while busy. -/
theorem test_witness_SequencerInvariant :
    SeqInv State.reset ∧
    SeqInv { active 0x87000000 [] with busy := true, stepPos := endActs ++ [.complete .ok] } ∧
    (∃ t, step { active 0x87000000 [] with busy := true, stepPos := endActs ++ [.complete .ok] } = .next t) ∧
    SeqInv { active 0x87000000 [] with busy := true, stepPos := endActs ++ [.complete .ok], moves := [.run 1] } ∧
    refusedBy (step { active 0x87000000 [] with
      busy := true, stepPos := endActs ++ [.complete .ok], moves := [.run 1] }) .hostBusy = true := by
  refine ⟨⟨by decide, fun _ => ⟨rfl, rfl, rfl, rfl, ?_⟩, ?_⟩, ⟨by decide, ?_, fun _ => by decide⟩,
    runs_of_after (p := fun _ => true) (by decide +kernel), ⟨by decide, ?_, fun _ => by decide⟩, by decide +kernel⟩
  · intro c h; cases h
  · intro h; cases h
  · intro h; cases h
  · intro h; cases h

/-- NextWriteUndoesAForeignWrite: inside PUT_BITS of V-P1, before GET_BITS' read-mode write, and before WAIT's re-assert. -/
theorem test_witness_NextWriteUndoes :
    let s := { running .commandActive (bitActs true ++ endActs) with moves := [.foreign 0] }
    let g := { running .commandActive (getActs 1) with moves := [.foreign 0] }
    let w := { running .idle [.reassert, .poll] with moves := [.foreign 0] }
    (∀ u ∈ [s, g, w], u.cfg.ok = true ∧ u.busy = true ∧ u.ctl = some 0 ∧ u.moves = [.foreign 0]) ∧
    s.stepPos = .drive s.phase (some false) none (some true) :: (bitActs true).tail ++ endActs ∧
    g.stepPos = .readMode :: samplesActs 1 ∧ g.phase = .commandActive ∧
    w.stepPos = .reassert :: [.poll] ∧ w.phase = .idle := by decide

/-- EveryAccessIsTheControlRegister: a row that writes, one that only reads and writes the read mode, one with no write at
all, one that makes no access, and a single read of each kind. -/
theorem test_witness_EveryAccess :
    (∃ t, exec .writeEnable State.reset = .next t) ∧ earlyStatus State.reset.cfg .writeEnable = none ∧
    (∃ t, exec (.getBits 0) (active 0x87000000 []) = .next t) ∧
    (∃ t, exec (.putBits 0 0) (active 0x87000000 []) = .next t) ∧
    (∃ t, exec (.readWord 64) State.reset = .next t) ∧ earlyStatus State.reset.cfg (.readWord 64) ≠ none ∧
    after (step (running .idle startActs)) (fun _ => true) = true ∧
    after (step { running .commandActive [.sample] with acc := some 0 }) (fun _ => true) = true ∧
    after (step (running .commandActive [.check])) (fun _ => true) = true ∧
    after (step (running .commandActive [.poll])) (fun _ => true) = true :=
  ⟨runs_of_after (p := fun _ => true) (by decide +kernel), by decide,
   runs_of_after (p := fun _ => true) (by decide +kernel), runs_of_after (p := fun _ => true) (by decide +kernel),
   runs_of_after (p := fun _ => true) (by decide +kernel), by decide, by decide, by decide, by decide, by decide⟩

/-- A reference part that programs word 3, `left` steps of its own before the last. -/
def programming (left : Nat) : State :=
  { partState true [] [] with
    part := { State.reset.part with we := true, programming := some { addr := 3, value := 0xBEEF, left := left } } }

/-- R54: a poll of a part that is busy changes nothing of the part. -/
theorem test_read_leaves_part :
    after (step { programming 1 with busy := true, phase := .commandActive, ctl := some 0x86000000, creg := 0x86000000,
                                     stepPos := [.poll] })
      (fun t => t.part == (programming 1).part && trace t == [.read 0]) = true := by decide

/-- R115, R129: a part that nobody polls ends its programming by itself. -/
theorem test_part_goes_on :
    after (step (programming 1)) (fun t => t == programming 0) = true ∧
    after (step (programming 0)) (fun t => t.part.programming == none && Memory.readWord t.part.mem 3 == 0xBEEF &&
      trace t == []) = true := by decide

/-- IdleSequencerWaits: idle, and in a step of the part's own while an operation runs; a word in its last unit of time and
one before it; and with the oracle. -/
theorem test_witness_IdleSequencerWaits :
    (programming 0).cfg.ok = true ∧ (programming 0).busy = false ∧ (programming 0).moves = [] ∧
    (programming 0).attached = .reference ∧
    (programming 2).part.programming = some { addr := 3, value := 0xBEEF, left := 2 } ∧
    ({ running .idle startActs with moves := [.part] } : State).moves = .part :: [] ∧
    State.reset.attached = .oracle ∧ State.reset.part.programming = none := by decide

/-- The statements about the reference part: it is at rest, enabled and not, at the last word, its programming time equal to
the deadline; with the program of the round trip. -/
theorem test_witness_ReferencePart :
    Ready (partState true [2] [2]) ∧ PartAtRest (partState true [2] [2]) ∧ (partState true [2] [2]).part.we = true ∧
    Ready (partState false [2] [2]) ∧ PartAtRest (partState false [2] [2]) ∧ (partState false [2] [2]).part.we = false ∧
    (63#16).toNat < (partState true [2] [2]).cfg.words ∧ (partState true [2] [2]).progTimes = 2 :: [] ∧
    (partState true [2] [2]).deadlines = 2 :: [] ∧ 2 ≤ 2 ∧ Memory.wf (partState true [2] [2]).part.mem = true ∧
    encodeDescriptor .writeEnable = some 3 ∧ encodeDescriptor (.writeWord 3 0xBEEF) = some 0x0000BEEF00030002 ∧
    encodeDescriptor .writeDisable = some 4 ∧ encodeDescriptor (.readWord 3) = some 0x0000000000030001 :=
  ⟨⟨rfl, rfl, rfl⟩, ⟨rfl, by decide, rfl, rfl⟩, rfl, ⟨rfl, rfl, rfl⟩, ⟨rfl, by decide, rfl, rfl⟩, rfl, by decide, rfl,
   rfl, by decide, rfl, by decide, by decide, by decide, by decide⟩

end Sys2Proof.Tests
end

/-! SUPPORT. The scope statements: `setl` bit by bit (R14, R29), and the accesses of every row and of every action that
reads the register (R43, R52, R54, R82). -/

namespace Sys2Proof.Machine

/-! ### Single lines -/

/-- Each bit of `setl` (R14, R29). -/
theorem setl_getLsbD (cfg : Config) (c : Word32) (l : Line) (b : Bool) (k : Nat) (hk : k < 32) :
    (setl cfg c l b).getLsbD k = if cfg.isWired l = true ∧ k = cfg.pos l then b else c.getLsbD k := by
  unfold setl
  by_cases hw : cfg.isWired l = true
  · rw [if_pos hw, setBit_getLsbD c _ b k hk]
    simp only [hw, true_and]
  · rw [if_neg hw, if_neg fun h => hw h.1]

/-- Settles O13: an unwired line leaves the value alone, and a wired one has its own bit replaced. -/
theorem setlReplacesOnlyItsLine : Obligations.SetlReplacesOnlyItsLine := setl_getLsbD

/-! ### The accesses of a row -/

/-- An early completion adds its completion event and nothing else (R89, R107). -/
theorem exec_early {i : Instr} {s t : State} (h : exec i s = .next t) (he : earlyStatus s.cfg i ≠ none) :
    ∃ st, Added s t [.completed st 0] := by
  obtain ⟨-, -, ⟨-, st, -, rfl⟩ | ⟨-, -, hn, -⟩ | ⟨-, hn, -⟩ | ⟨-, -, hn, -⟩⟩ := exec_next h
  · exact ⟨st, rfl⟩
  all_goals exact absurd hn he

/-- READ_WORD begins with its READ frame, so with START's read (R90). -/
theorem readWordBody_readsFirst (a : Word16) (s : State) : ReadsFirst s (readWordBody a s) := by
  unfold readWordBody
  dsimp only
  split <;> exact (sendRead_readsFirst a s).trans (runAct_wrote _ _)

/-- WRITE_WORD begins with its WRITE frame (R92). -/
theorem writeWordBody_readsFirst (a v : Word16) (s : State) : ReadsFirst s (writeWordBody a v s) := by
  unfold writeWordBody
  rw [writeActs_eq]
  exact (runActs_frame_readsFirst _ s).trans ((waitBody_wrote _).trans (runAct_wrote _ _))

/-- WRITE_ENABLE begins with its EWEN frame (R93). -/
theorem writeEnableBody_readsFirst (s : State) : ReadsFirst s (writeEnableBody s) := by
  unfold writeEnableBody
  rw [ewenActs_eq]
  exact (runActs_frame_readsFirst _ s).trans (runAct_wrote _ _)

/-- WRITE_DISABLE begins with its EWDS frame (R94). -/
theorem writeDisableBody_readsFirst (s : State) : ReadsFirst s (writeDisableBody s) := by
  unfold writeDisableBody
  rw [ewdsActs_eq]
  exact (runActs_frame_readsFirst _ s).trans (runAct_wrote _ _)

/-- Acceptance touches neither the history nor what RegRead32 returns (R88). -/
theorem readsFirst_of_accept {s t : State} (h : ReadsFirst (accept s) t) : ReadsFirst s t := h

/-- An accepted host operation, a frame and START begin with START's read (R79, R82). -/
theorem exec_readsFirst {i : Instr} {s t : State} (h : exec i s = .next t) (he : earlyStatus s.cfg i = none)
    (hi : i.isHostOp = true ∨ (encodeFrame s.cfg.aw i).isSome = true ∨ i = .start) : ReadsFirst s t := by
  obtain ⟨-, -, ⟨-, st, hst, -⟩ | ⟨-, -, -, hop⟩ | ⟨-, -, hrow⟩ | ⟨-, -, -, hrow⟩⟩ := exec_next h
  · rw [he] at hst; cases hst
  · apply readsFirst_of_accept
    obtain ⟨a, -, rfl⟩ | ⟨a, v, -, rfl⟩ | ⟨-, rfl⟩ | ⟨-, rfl⟩ := hop
    · exact readWordBody_readsFirst a _
    · exact writeWordBody_readsFirst a v _
    · exact writeEnableBody_readsFirst _
    · exact writeDisableBody_readsFirst _
  · obtain ⟨a, -, rfl⟩ | ⟨a, v, -, rfl⟩ | ⟨-, rfl⟩ | ⟨-, rfl⟩ | ⟨-, rfl⟩ | ⟨rfl, -, -⟩ := hrow
    · exact sendRead_readsFirst a s
    · rw [writeActs_eq]; exact runActs_frame_readsFirst _ s
    · rw [ewenActs_eq]; exact runActs_frame_readsFirst _ s
    · rw [ewdsActs_eq]; exact runActs_frame_readsFirst _ s
    · exact runActs_start_readsFirst [] s
    · simp [Instr.isHostOp, encodeFrame] at hi
  · obtain ⟨v, n, rfl, -⟩ | ⟨n, rfl, -⟩ | ⟨rfl, -⟩ := hrow <;> simp [Instr.isHostOp, encodeFrame] at hi

/-- The last write access of a run carries the last value written, at CTRL_ADDR (R43, R55). -/
theorem accessesOf_lastWrite (cfg : Config) (evs : List Event) :
    ((accessesOf cfg evs).filter (·.isWrite)).getLast? = (writesOf evs).getLast?.map fun v =>
      { space := cfg.accessMode, address := cfg.ctrlAddr, bytes := 4, isWrite := true, value := v } := by
  rw [accessesOf_writes, List.getLast?_map]

/-! ### Single reads -/

/-- The actions that read the register (R82, R84, R91, R95). -/
def Act.reads : Act → Bool
  | .loadCtl => true
  | .sample => true
  | .check => true
  | .poll => true
  | _ => false

/-- An action that reads adds its read and leaves the register and the part as they are (R54). -/
theorem runAct_reads {a : Act} (s : State) (h : a.reads = true) :
    (runAct a s).history = .read (readValue s) :: s.history ∧ (runAct a s).creg = s.creg ∧
      (runAct a s).part = s.part := by
  cases a with
  | loadCtl => simp [runAct]
  | sample => simp [runAct]
  | check => simp only [runAct]; split <;> simp
  | poll => simp only [runAct]; split <;> simp
  | _ => cases h

/-- A step that takes a reading action: its read is all it does to the history, the register and the part (R54). -/
theorem step_reads {s : State} {a : Act} {rest : List Act} (hok : s.cfg.ok = true) (hb : s.busy = true)
    (hm : s.moves = []) (hpos : s.stepPos = a :: rest) (ha : a.reads = true) (hp : s.phase = a.phase)
    (hr : a.ready s = true) :
    ∃ t, step s = .next t ∧ t.history = .read (readValue s) :: s.history ∧ t.creg = s.creg ∧ t.part = s.part := by
  have hstep := step_act s a rest hok hb hm hp hr
  rw [← hpos] at hstep
  exact ⟨_, hstep, runAct_reads { s with stepPos := rest } ha⟩

/-- Settles O56: a row's events are those of `exec_wrote`, its first access is that of `exec_readsFirst`, and an early
completion is that of `exec_early`; the single reads are `step_reads`. -/
theorem everyAccessIsTheControlRegister : Obligations.EveryAccessIsTheControlRegister := by
  refine ⟨fun s t i h => ?_, fun s a rest hok hb hm hpos ha => ?_⟩
  · obtain ⟨evs, hadd, hcreg⟩ := exec_wrote h
    refine ⟨evs, hadd, fun e _ => by cases e <;> rfl, fun he => ?_, fun he hi => ?_, ?_⟩
    · obtain ⟨st, hst⟩ := exec_early h he
      rw [hadd.unique hst]
      rfl
    · obtain ⟨es, hes⟩ := exec_readsFirst h he hi
      rw [hadd.unique hes]
      rfl
    · rw [accessesOf_lastWrite, hcreg]
      cases (writesOf evs).getLast? with
      | none => exact ⟨fun _ => rfl, fun a ha => nomatch ha⟩
      | some v => exact ⟨fun hv => (nomatch hv), fun a ha => (Option.some.inj ha).symm⟩
  · obtain ⟨hp, rfl⟩ | ⟨hp, ⟨rfl, hacc⟩ | rfl | rfl⟩ := ha
    · exact step_reads hok hb hm hpos rfl hp rfl
    · exact step_reads hok hb hm hpos rfl hp hacc
    · exact step_reads hok hb hm hpos rfl hp rfl
    · exact step_reads hok hb hm hpos rfl hp rfl

end Sys2Proof.Machine

/-! SUPPORT. The state statements: what a step of the machine can be, and what every row and every step keeps. -/

namespace Sys2Proof.Machine

/-! ### What a step can be -/

/-- Every descriptor selects a host operation (R73, R78). -/
theorem decodeDescriptor_isHostOp (d : Descriptor) : (decodeDescriptor d).isHostOp = true := by
  unfold decodeDescriptor
  split <;> rfl

/-- Every descriptor decodes to a well-formed row: what is no code of an operation is reserved (R73). -/
theorem decodeDescriptor_wf (aw : Nat) (d : Descriptor) : (decodeDescriptor d).wf aw = true := by
  unfold decodeDescriptor
  split
  case h_5 =>
    rename_i h1 h2 h3 h4
    rw [imp_false] at h1 h2 h3 h4
    have hcode : (Descriptor.op d).toNat = 0 ∨ 5 ≤ (Descriptor.op d).toNat := by omega
    simpa [Instr.wf, isReservedOp] using hcode
  all_goals rfl

/-- The state once its next move, if any, is off the schedule. -/
def State.popped (s : State) : State := { s with moves := s.moves.tail }

theorem State.popped_of_nil {s : State} (hm : s.moves = []) : s.popped = s := by
  cases s
  cases hm
  rfl

/-- With nothing scheduled the machine goes on by itself (R126). -/
theorem step_nil {s : State} (hok : s.cfg.ok = true) (hm : s.moves = []) : step s = runNoMove s := by
  simp [step, hok, hm]

/-- A scheduled move is the step (R115). -/
theorem step_cons {s : State} {m : Move} {ms : List Move} (hok : s.cfg.ok = true) (hm : s.moves = m :: ms) :
    step s = runMove m { s with moves := ms } := by
  simp [step, hok, hm]

/-- A single action is asked for by the schedule, or comes by itself while an operation runs (R25, R126). -/
theorem step_actStep {s : State} (hok : s.cfg.ok = true) (hb : s.busy = true)
    (hm : s.moves = [] ∨ ∃ ms, s.moves = .act :: ms) : step s = actStep s.popped := by
  obtain hm | ⟨ms, hm⟩ := hm
  · rw [step_nil hok hm, State.popped_of_nil hm]
    exact if_pos hb
  · rw [step_cons hok hm, State.popped, hm]
    rfl

/-- All that a step can be: a move of one of the agents, taken off the schedule (R115, R116). -/
theorem step_cases {s t : State} (h : step s = .next t) :
    s.cfg.ok = true ∧
    ((∃ d, exec (decodeDescriptor d) s.popped = .next t) ∨ (∃ d, beginOp (decodeDescriptor d) s.popped = .next t) ∨
     actStep s.popped = .next t ∨ t = partStep s.popped ∨ t = resetSequencer s.popped ∨
     ∃ v, t = foreignWrite v s.popped) := by
  have hok : s.cfg.ok = true := by
    cases hc : s.cfg.ok with
    | true => rfl
    | false => simp [step, hc] at h
  refine ⟨hok, ?_⟩
  cases hm : s.moves with
  | nil =>
    rw [step_nil hok hm, runNoMove] at h
    rw [State.popped_of_nil hm]
    split at h
    · exact .inr (.inr (.inl h))
    · cases h
      exact .inr (.inr (.inr (.inl rfl)))
  | cons m ms =>
    have hs : s.popped = { s with moves := ms } := by simp [State.popped, hm]
    rw [step_cons hok hm] at h
    rw [hs]
    cases m with
    | run d => exact .inl ⟨d, h⟩
    | issue d => exact .inr (.inl ⟨d, h⟩)
    | act => exact .inr (.inr (.inl h))
    | part => cases h; exact .inr (.inr (.inr (.inl rfl)))
    | reset => cases h; exact .inr (.inr (.inr (.inr (.inl rfl))))
    | foreign v => cases h; exact .inr (.inr (.inr (.inr (.inr ⟨v, rfl⟩))))

/-- All that a single action can answer as a next state (R25, R86). -/
theorem actStep_next {s t : State} (h : actStep s = .next t) :
    (s.busy = false ∧ t = s) ∨
    ∃ a rest, s.busy = true ∧ s.stepPos = a :: rest ∧ t = runAct a { s with stepPos := rest } := by
  unfold actStep at h
  split at h
  · rename_i hb
    split at h
    · cases h
    · rename_i a rest hpos
      dsimp only at h
      split at h
      · cases h
      · split at h
        · cases h
          exact .inr ⟨a, rest, hb, hpos, rfl⟩
        · cases h
  · rename_i hb
    cases h
    exact .inl ⟨by simpa using hb, rfl⟩

/-- All that beginning a host operation can answer as a next state (R88, R109). -/
theorem beginOp_next {i : Instr} {s t : State} (h : beginOp i s = .next t) :
    s.cfg.ok = true ∧ s.busy = false ∧ i.isHostOp = true ∧
    ((∃ st, earlyStatus s.cfg i = some st ∧ t = raiseStatus st s) ∨
     (earlyStatus s.cfg i = none ∧ s.phase = .idle ∧ t = { accept s with stepPos := opActs s.cfg.aw i })) := by
  unfold beginOp at h
  split at h
  · rename_i hi
    obtain ⟨hok, hb, -, hs⟩ := hostOp_next h
    exact ⟨hok, hb, hi, hs⟩
  · cases h

/-- An operation that is accepted sends a frame (R79). -/
theorem frameOf_of_accepted {cfg : Config} {i : Instr} (hi : i.isHostOp = true) (he : earlyStatus cfg i = none) :
    frameOf i ≠ none := by
  cases i <;> simp_all [Instr.isHostOp, frameOf, earlyStatus]

/-- Every term of an operation that is accepted is well-formed (R72). -/
theorem wf_of_accepted {cfg : Config} {i : Instr} (aw : Nat) (hi : i.isHostOp = true)
    (he : earlyStatus cfg i = none) : i.wf aw = true := by
  cases i with
  | readWord | writeWord | writeEnable | writeDisable => rfl
  | reserved op => cases he
  | _ => cases hi

/-- All that a host operation can answer as a next state: its early completion, or one of the four bodies (R79, R88,
R109). -/
theorem exec_hostOp_cases {i : Instr} {s t : State} (hi : i.isHostOp = true) (h : exec i s = .next t) :
    s.cfg.ok = true ∧ s.busy = false ∧
    ((∃ st, earlyStatus s.cfg i = some st ∧ t = raiseStatus st s) ∨
     (earlyStatus s.cfg i = none ∧
       ((∃ a, i = .readWord a ∧ t = readWordBody a (accept s)) ∨
        (∃ a v, i = .writeWord a v ∧ t = writeWordBody a v (accept s)) ∨
        (i = .writeEnable ∧ t = complete .ok 0 (runActs (frameActs (ewenBits s.cfg.aw)) (accept s))) ∨
        (i = .writeDisable ∧ t = complete .ok 0 (runActs (frameActs (ewdsBits s.cfg.aw)) (accept s)))))) := by
  obtain ⟨hok, -, ⟨hb, he⟩ | ⟨hb, -, he, hop⟩ | ⟨-, -, hrow⟩ | ⟨-, -, -, hrow⟩⟩ := exec_next h
  · exact ⟨hok, hb, .inl he⟩
  · rw [writeEnableBody_eq, writeDisableBody_eq] at hop
    exact ⟨hok, hb, .inr ⟨he, hop⟩⟩
  · obtain ⟨a, rfl, -⟩ | ⟨a, v, rfl, -⟩ | ⟨rfl, -⟩ | ⟨rfl, -⟩ | ⟨rfl, -⟩ | ⟨rfl, -⟩ := hrow <;> cases hi
  · obtain ⟨v, n, rfl, -⟩ | ⟨n, rfl, -⟩ | ⟨rfl, -⟩ := hrow <;> cases hi

/-- A host operation completes early, or it is done with all that R37 and R98 say. -/
theorem exec_hostOp_next {i : Instr} {s t : State} (hi : i.isHostOp = true) (h : exec i s = .next t) :
    s.cfg.ok = true ∧ s.busy = false ∧
    ((∃ st, earlyStatus s.cfg i = some st ∧ t = raiseStatus st s) ∨ (earlyStatus s.cfg i = none ∧ Done s t)) := by
  obtain ⟨hok, hb, he | ⟨he, hop⟩⟩ := exec_hostOp_cases hi h
  · exact ⟨hok, hb, .inl he⟩
  · refine ⟨hok, hb, .inr ⟨he, ?_⟩⟩
    obtain ⟨a, -, rfl⟩ | ⟨a, v, -, rfl⟩ | ⟨-, rfl⟩ | ⟨-, rfl⟩ := hop
    · exact (readWordBody_events a s hok).1
    · exact (writeWordBody_events a v s hok).1
    · exact (frameBody_events _ s hok).1
    · exact (frameBody_events _ s hok).1

/-! ### The sequencer's invariant (R17, R18, R37, R86, R98) -/

/-- The invariant rests on the sequencer's own fields. -/
theorem SeqInv.congr {s t : State} (h : SeqInv s) (hcfg : t.cfg = s.cfg) (hphase : t.phase = s.phase)
    (hctl : t.ctl = s.ctl) (hbusy : t.busy = s.busy) (hacc : t.acc = s.acc) (hpos : t.stepPos = s.stepPos)
    (hret : t.ret = s.ret) : SeqInv t := by
  have hp : posOf t = posOf s := by simp [posOf, hcfg, hphase, hctl, hacc, hret]
  unfold SeqInv
  rw [hp, hcfg, hphase, hctl, hbusy, hacc, hpos, hret]
  exact h

/-- Known low lines are those of the shadow value (R98). -/
theorem linesLow_of_posOf {s : State} (h : (posOf s).low = true) (c : Word32) (hc : s.ctl = some c) :
    linesLow s.cfg c = true := by
  simpa [posOf, hc] using h

/-- A completion in Idle with low lines meets the invariant (R37, R98). -/
theorem seqInv_complete {s : State} (st : Status) (d : Word32) (hok : s.cfg.ok = true) (hp : s.phase = .idle)
    (hlow : ∀ c, s.ctl = some c → linesLow s.cfg c = true) : SeqInv (complete st d s) :=
  ⟨hok, fun _ => ⟨hp, rfl, rfl, rfl, hlow⟩, fun hb => nomatch hb⟩

/-- A completed operation meets the invariant: END lowered the lines (R98). -/
theorem seqInv_done {s t : State} (hok : s.cfg.ok = true) (h : Done s t) : SeqInv t := by
  refine ⟨by rw [h.cfg]; exact hok, fun _ => ⟨h.phase, h.acc, h.stepPos, h.ret, fun c hc => ?_⟩, fun hb => ?_⟩
  · rw [h.ctl] at hc
    cases hc
    rw [h.cfg]
    exact linesLow_driveLines hok _
  · rw [h.busy] at hb
    cases hb

/-- An operation just begun meets the invariant: its whole sequence is sound from Idle (R86). -/
theorem seqInv_begun {s : State} {i : Instr} (hok : s.cfg.ok = true) (hp : s.phase = .idle) (hi : frameOf i ≠ none) :
    SeqInv { accept s with stepPos := opActs s.cfg.aw i } :=
  ⟨hok, fun hb => (nomatch hb), fun _ => sound_opActs s.cfg.aw i _ hp hi⟩

/-- An action without a branch that does not complete goes on to the next one (R25). -/
theorem runAct_goesOn {a : Act} {s : State} {q : Pos} (h : (posOf s).after a = some q) (h1 : a ≠ .check)
    (h2 : a ≠ .poll) :
    (runAct a s).cfg = s.cfg ∧ (runAct a s).busy = s.busy ∧ (runAct a s).stepPos = s.stepPos := by
  obtain ⟨-, he⟩ := Pos.after_eq_some.1 h
  cases a with
  | check => exact absurd rfl h1
  | poll => exact absurd rfl h2
  | complete st => cases he
  | completeRead => cases he
  | completeRet => cases he
  | _ => simp [runAct]

/-- The framing check goes on with the word, or with END alone (R91). -/
theorem seqInv_check {s : State} {q : Pos} (hok : s.cfg.ok = true) (hb : s.busy = true)
    (hq : (posOf s).after .check = some q) (hs : sound s.stepPos q = true) : SeqInv (runAct .check s) := by
  obtain ⟨hp, he⟩ := Pos.after_eq_some.1 hq
  simp only [Pos.effect, Option.ite_none_right_eq_some, Option.some.injEq] at he
  obtain ⟨hc, rfl⟩ := he
  have hpos : posOf (framingRead s) = { posOf s with ret := true } := by simp [posOf]
  simp only [runAct]
  split
  · refine ⟨by simpa using hok, fun hb' => ?_, fun _ => ?_⟩
    · simp [hb] at hb'
    · rw [hpos, framingRead_stepPos]
      exact hs
  · refine ⟨by simpa using hok, fun hb' => ?_, fun _ => ?_⟩
    · simp [hb] at hb'
    · change sound (endActs ++ [.completeRet]) (posOf (framingRead s)) = true
      rw [hpos, sound_append (afterAll_end { posOf s with ret := true } hp hc)]
      simpa [sound] using hc

/-- A poll ends the wait, or yields and polls again (R95). -/
theorem seqInv_poll {s : State} {q : Pos} (hok : s.cfg.ok = true) (hb : s.busy = true)
    (hq : (posOf s).after .poll = some q) (hs : sound s.stepPos q = true) : SeqInv (runAct .poll s) := by
  obtain ⟨hp, he⟩ := Pos.after_eq_some.1 hq
  simp only [Pos.effect, Option.ite_none_right_eq_some, Option.some.injEq] at he
  obtain ⟨hc, rfl⟩ := he
  have hpos : posOf (pollStep s) = { posOf s with ret := (pollStep s).ret.isSome } := by simp [posOf]
  simp only [runAct]
  split
  · rename_i hr
    refine ⟨by simpa using hok, fun hb' => ?_, fun _ => ?_⟩
    · simp [hb] at hb'
    · rw [hpos, hr, pollStep_stepPos]
      exact hs
  · refine ⟨by simpa using hok, fun hb' => ?_, fun _ => ?_⟩
    · simp [hb] at hb'
    · change sound (.yield :: .poll :: s.stepPos) (posOf (pollStep s)) = true
      have h1 : (posOf (pollStep s)).after .yield = some (posOf (pollStep s)) :=
        Pos.after_eq_some.2 ⟨by rw [hpos]; exact hp, rfl⟩
      have h2 : (posOf (pollStep s)).after .poll = some { posOf s with ret := true } :=
        Pos.after_eq_some.2 ⟨by rw [hpos]; exact hp, by rw [hpos]; exact if_pos hc⟩
      rw [sound_after h1, sound_after h2]
      exact hs

/-- Every action of a running operation keeps the invariant. -/
theorem seqInv_runAct {s : State} {a : Act} (hok : s.cfg.ok = true) (hb : s.busy = true)
    (hs : sound (a :: s.stepPos) (posOf s) = true) : SeqInv (runAct a s) := by
  obtain ⟨-, hp, hlow, -, hlast⟩ | ⟨q, hq, hrest⟩ := sound_cons hs
  · have hl := linesLow_of_posOf hlow
    obtain ⟨st, rfl⟩ | ⟨rfl, ha⟩ | ⟨rfl, hr⟩ := hlast
    · exact seqInv_complete st 0 hok hp hl
    · obtain ⟨x, hx⟩ := Option.isSome_iff_exists.1 ha
      simpa [runAct, hx] using seqInv_complete .ok (readResult x) hok hp hl
    · obtain ⟨st, hst⟩ := Option.isSome_iff_exists.1 hr
      simpa [runAct, hst] using seqInv_complete st 0 hok hp hl
  · by_cases h1 : a = .check
    · subst h1
      exact seqInv_check hok hb hq hrest
    · by_cases h2 : a = .poll
      · subst h2
        exact seqInv_poll hok hb hq hrest
      · obtain ⟨hcfg, hbusy, hpos⟩ := runAct_goesOn hq h1 h2
        refine ⟨by rw [hcfg]; exact hok, fun hb' => ?_, fun _ => ?_⟩
        · rw [hbusy, hb] at hb'
          cases hb'
        · rw [hpos]
          exact sound_le (posOf_runAct hok hq h1 h2) hrest

/-- An early completion keeps the invariant (R89, R107). -/
theorem seqInv_raiseStatus {s : State} (st : Status) (h : SeqInv s) (hb : s.busy = false) :
    SeqInv (raiseStatus st s) := by
  obtain ⟨hok, hidle, -⟩ := h
  obtain ⟨hp, -, -, -, hlow⟩ := hidle hb
  exact seqInv_complete st 0 hok hp hlow

/-- Settles O52, by what a step can be: a whole operation ends as `Done` says, one begun has a sound sequence, and each
single action keeps what is left sound. -/
theorem stepKeepsTheSequencerInvariant : Obligations.StepKeepsTheSequencerInvariant := by
  intro s t hs h
  obtain ⟨hok, hcases⟩ := step_cases h
  have hu : SeqInv s.popped := hs.congr rfl rfl rfl rfl rfl rfl rfl
  obtain ⟨d, hd⟩ | ⟨d, hd⟩ | ha | rfl | rfl | ⟨v, rfl⟩ := hcases
  · obtain ⟨-, hb, ⟨st, -, rfl⟩ | ⟨-, hdone⟩⟩ := exec_hostOp_next (decodeDescriptor_isHostOp d) hd
    · exact seqInv_raiseStatus st hu hb
    · exact seqInv_done (s := s.popped) hok hdone
  · obtain ⟨-, hb, hi, ⟨st, -, rfl⟩ | ⟨he, hp, rfl⟩⟩ := beginOp_next hd
    · exact seqInv_raiseStatus st hu hb
    · exact seqInv_begun hok hp (frameOf_of_accepted hi he)
  · obtain ⟨-, rfl⟩ | ⟨a, rest, hb, hpos, rfl⟩ := actStep_next ha
    · exact hu
    · have hsound := hu.2.2 hb
      rw [hpos] at hsound
      exact seqInv_runAct hok hb hsound
  · exact hu.congr (by simp) (by simp) (by simp) (by simp) (by simp) (by simp) (by simp)
  · exact ⟨hok, fun _ => ⟨rfl, rfl, rfl, rfl, fun c hc => nomatch hc⟩, fun hb => nomatch hb⟩
  · exact hu.congr (by simp [foreignWrite]) (by simp [foreignWrite]) (by simp [foreignWrite]) (by simp [foreignWrite])
      (by simp [foreignWrite]) (by simp [foreignWrite]) (by simp [foreignWrite])

end Sys2Proof.Machine

/-! SUPPORT. The state statements: when a step faults or is refused, what every row leaves alone, and the first and the
reset state. -/

namespace Sys2Proof.Machine

/-! ### Faults and refusals -/

/-- While an operation runs a host operation is refused (R117). -/
theorem hostOp_busy {i : Instr} {s : State} (body : State → State) (hok : s.cfg.ok = true) (hb : s.busy = true) :
    hostOp i body s = .refused .hostBusy := by
  simp [hostOp, hok, hb]

/-- From a ready state a well-formed host operation answers a next state (R88, R109). -/
theorem hostOp_answers {i : Instr} {s : State} (body : State → State) (hr : Ready s) (hw : i.wf s.cfg.aw = true) :
    ∃ t, hostOp i body s = .next t := by
  cases he : earlyStatus s.cfg i with
  | none => exact ⟨_, hostOp_accepted body hr hw he⟩
  | some st =>
    obtain ⟨hok, hb, -⟩ := hr
    exact ⟨raiseStatus st s, by simp [hostOp, hok, hb, hw, he]⟩

/-- The meaning of a host operation is `hostOp` with its body (R79). -/
theorem exec_eq_hostOp {i : Instr} (hi : i.isHostOp = true) : ∃ body, ∀ s, exec i s = hostOp i body s := by
  cases i with
  | readWord a => exact ⟨readWordBody a, fun _ => rfl⟩
  | writeWord a v => exact ⟨writeWordBody a v, fun _ => rfl⟩
  | writeEnable => exact ⟨writeEnableBody, fun _ => rfl⟩
  | writeDisable => exact ⟨writeDisableBody, fun _ => rfl⟩
  | reserved op => exact ⟨id, fun _ => rfl⟩
  | _ => cases hi

/-- Beginning a host operation is `hostOp` with its sequence (R25). -/
theorem beginOp_eq_hostOp {i : Instr} (hi : i.isHostOp = true) (s : State) :
    beginOp i s = hostOp i (fun t => { t with stepPos := opActs t.cfg.aw i }) s := if_pos hi

/-- Whether an action finds its values rests on `ctl`, `acc` and the returned status (R20, R24). -/
theorem Act.ready_congr {s t : State} (hctl : t.ctl = s.ctl) (hacc : t.acc = s.acc) (hret : t.ret = s.ret) (a : Act) :
    a.ready t = a.ready s := by
  cases a <;> simp [Act.ready, hctl, hacc, hret]

/-- A single action in its phase, with the values it needs, is taken (R25). -/
theorem actStep_takes {s : State} {a : Act} {rest : List Act} (hb : s.busy = true) (hpos : s.stepPos = a :: rest)
    (hp : s.phase = a.phase) (hr : a.ready s = true) : actStep s = .next (runAct a { s with stepPos := rest }) := by
  have hr' : a.ready { s with stepPos := rest } = true := (Act.ready_congr rfl rfl rfl a).trans hr
  simpa [actStep, hb, hpos, hp] using hr'

/-- A single action outside its phase faults (R86). -/
theorem actStep_phaseViolation {s : State} {a : Act} {rest : List Act} (hb : s.busy = true)
    (hpos : s.stepPos = a :: rest) (hp : s.phase ≠ a.phase) : actStep s = .fault .phaseViolation := by
  simp [actStep, hb, hpos, hp]

/-- The next action of a sound sequence stands in its phase and finds the values it needs (R20, R86). -/
theorem sound_head {s : State} {a : Act} {rest : List Act} (h : sound (a :: rest) (posOf s) = true) :
    s.phase = a.phase ∧ a.ready s = true := by
  obtain ⟨-, hp, -, -, ⟨st, rfl⟩ | ⟨rfl, ha⟩ | ⟨rfl, hr⟩⟩ | ⟨q, hq, -⟩ := sound_cons h
  · exact ⟨hp, rfl⟩
  · exact ⟨hp, ha⟩
  · exact ⟨hp, hr⟩
  · exact ⟨phase_of_after hq, ready_of_after hq⟩

/-- Under the invariant the sequencer takes its action (R20, R25, R86). -/
theorem actStep_answers {s : State} (h : SeqInv s) : ∃ t, actStep s = .next t := by
  obtain ⟨-, -, hrun⟩ := h
  cases hb : s.busy with
  | false => exact ⟨s, by simp [actStep, hb]⟩
  | true =>
    have hsound := hrun hb
    cases hpos : s.stepPos with
    | nil => rw [hpos] at hsound; cases hsound
    | cons a rest =>
      rw [hpos] at hsound
      obtain ⟨hp, hr⟩ := sound_head hsound
      exact ⟨_, actStep_takes hb hpos hp hr⟩

/-- Under the invariant a descriptor's row runs, whole or begun, unless an operation runs already (R117). -/
theorem hostOp_underInv {i : Instr} {s : State} (body : State → State) (h : SeqInv s) (hw : i.wf s.cfg.aw = true) :
    (∃ t, hostOp i body s = .next t) ∨ (s.busy = true ∧ hostOp i body s = .refused .hostBusy) := by
  obtain ⟨hok, hidle, -⟩ := h
  cases hb : s.busy with
  | true => exact .inr ⟨rfl, hostOp_busy body hok hb⟩
  | false =>
    obtain ⟨hp, -⟩ := hidle hb
    exact .inl (hostOp_answers body ⟨hok, hb, hp⟩ hw)

/-- Settles O53, by the next move: an action is there to be taken, a descriptor's row runs unless busy, and every other
move always answers. -/
theorem noStepFaultsUnderTheInvariant : Obligations.NoStepFaultsUnderTheInvariant := by
  intro s hs
  have hok := hs.1
  cases hm : s.moves with
  | nil =>
    rw [step_nil hok hm, runNoMove]
    split
    · exact .inl (actStep_answers hs)
    · exact .inl ⟨_, rfl⟩
  | cons m ms =>
    have hu : SeqInv { s with moves := ms } := hs.congr rfl rfl rfl rfl rfl rfl rfl
    rw [step_cons hok hm]
    cases m with
    | run d =>
      obtain ⟨body, hexec⟩ := exec_eq_hostOp (decodeDescriptor_isHostOp d)
      have hrun : runMove (.run d) { s with moves := ms } = hostOp _ body { s with moves := ms } := hexec _
      rw [hrun]
      exact (hostOp_underInv body hu (decodeDescriptor_wf _ d)).imp_right fun ⟨hb, hr⟩ =>
        ⟨hb, ⟨d, ms, .inl rfl⟩, hr⟩
    | issue d =>
      have hissue := beginOp_eq_hostOp (decodeDescriptor_isHostOp d) { s with moves := ms }
      rw [runMove, hissue]
      exact (hostOp_underInv _ hu (decodeDescriptor_wf _ d)).imp_right fun ⟨hb, hr⟩ => ⟨hb, ⟨d, ms, .inr rfl⟩, hr⟩
    | act => exact .inl (actStep_answers hu)
    | part => exact .inl ⟨_, rfl⟩
    | reset => exact .inl ⟨_, rfl⟩
    | foreign v => exact .inl ⟨_, rfl⟩

/-- Settles O30: both ways of offering a descriptor are a `hostOp`. -/
theorem descriptorWhileBusyIsRefused : Obligations.DescriptorWhileBusyIsRefused := by
  intro s d ms hok hb hm
  have hi := decodeDescriptor_isHostOp d
  obtain hm | hm := hm
  · obtain ⟨body, hexec⟩ := exec_eq_hostOp hi
    rw [step_cons hok hm]
    exact (hexec _).trans (hostOp_busy body hok hb)
  · rw [step_cons hok hm]
    exact (beginOp_eq_hostOp hi _).trans (hostOp_busy _ hok hb)

/-- A well-formed engine row outside its phase faults (R86). -/
theorem engineOp_phaseViolation {i : Instr} {p : Phase} {needs : Bool} {s : State} (body : State → State)
    (hok : s.cfg.ok = true) (hw : i.wf s.cfg.aw = true) (hp : s.phase ≠ p) :
    engineOp i p needs body s = .fault .phaseViolation := by
  simp [engineOp, hok, hw, hp]

/-- PUT_BITS' actions stand in CommandActive (R83). -/
theorem putActs_phase (v : Word32) (n : Nat) : ∀ a ∈ putActs v n, a.phase = .commandActive := by
  intro a ha
  rw [putActs_eq_clockActs] at ha
  obtain ⟨b, -, hb⟩ := List.mem_flatMap.1 ha
  simp only [bitActs, List.mem_cons, List.not_mem_nil, or_false] at hb
  obtain rfl | rfl | rfl | rfl := hb <;> rfl

/-- What holds of the read-mode write and of one sample's actions holds of all GET_BITS' actions (R84). -/
theorem getActs_forall {P : Act → Prop} (hmode : P .readMode) (hsample : ∀ a ∈ sampleActs, P a) (n : Nat) :
    ∀ a ∈ getActs n, P a := by
  refine List.forall_mem_cons.2 ⟨hmode, ?_⟩
  induction n with
  | zero => exact fun a ha => nomatch ha
  | succ n ih => exact List.forall_mem_append.2 ⟨hsample, ih⟩

/-- GET_BITS' actions stand in CommandActive (R84). -/
theorem getActs_phase (n : Nat) : ∀ a ∈ getActs n, a.phase = .commandActive :=
  getActs_forall (P := fun a => a.phase = .commandActive) rfl (by simp [sampleActs, Act.phase]) n

/-- END's actions stand in CommandActive (R85). -/
theorem endActs_phase : ∀ a ∈ endActs, a.phase = .commandActive := by
  simp [endActs, Act.phase]

/-- START's actions stand in Idle (R82). -/
theorem startActs_phase : ∀ a ∈ startActs, a.phase = .idle := by
  simp [startActs, Act.phase]

/-- Settles O20: each row is an `engineOp` of its phase, and each action of a sequence has its own phase. -/
theorem engineRowsFaultOutsideTheirPhase : Obligations.EngineRowsFaultOutsideTheirPhase := by
  refine ⟨fun s i hok hw hi => ⟨fun hp hrow => ?_, fun hp hput hget hend => ?_⟩,
    fun s a rest hok hb hpos hm => ⟨fun hp ha => ?_, fun hp ha => ?_⟩⟩
  · obtain ⟨v, n, rfl⟩ | ⟨n, rfl⟩ | rfl := hrow
    all_goals exact engineOp_phaseViolation _ hok hw (by simp [hp])
  · cases i with
    | putBits v n => exact absurd rfl (hput v n)
    | getBits n => exact absurd rfl (hget n)
    | endOp => exact absurd rfl hend
    | readWord | writeWord | writeEnable | writeDisable | reserved => cases hi
    | _ => exact engineOp_phaseViolation _ hok hw (by simp [hp])
  · have hphase : a.phase = .commandActive := by
      obtain ⟨v, n, ha⟩ | ⟨n, ha⟩ | ha := ha
      · exact putActs_phase v n a ha
      · exact getActs_phase n a ha
      · exact endActs_phase a ha
    rw [step_actStep hok hb hm]
    exact actStep_phaseViolation hb hpos (by simp [State.popped, hp, hphase])
  · have hphase : a.phase = .idle := by
      obtain ha | rfl := ha
      · exact startActs_phase a ha
      · rfl
    rw [step_actStep hok hb hm]
    exact actStep_phaseViolation hb hpos (by simp [State.popped, hp, hphase])

/-! ### What every row keeps -/

/-- A relation between the state before and after that every building block of the rows has: acceptance, every single
action, and the reads of the framing check and of the polls. -/
structure RowClosed (R : State → State → Prop) : Prop where
  refl : ∀ s, R s s
  trans : ∀ {s t u}, R s t → R t u → R s u
  accept : ∀ s, R s (accept s)
  act : ∀ a s, R s (runAct a s)
  framing : ∀ s, R s (framingRead s)
  poll : ∀ s, R s (pollStep s)

section
variable {R : State → State → Prop}

theorem RowClosed.runActs (hR : RowClosed R) (as : List Act) (s : State) : R s (runActs as s) := by
  induction as generalizing s with
  | nil => exact hR.refl s
  | cons a as ih => exact hR.trans (hR.act a s) (ih _)

theorem RowClosed.pollLoop (hR : RowClosed R) (n : Nat) (s : State) : R s (pollLoop n s) := by
  induction n generalizing s with
  | zero => exact hR.poll s
  | succ n ih =>
    unfold Machine.pollLoop
    dsimp only
    split
    · exact hR.poll s
    · exact hR.trans (hR.poll s) (hR.trans (hR.act .yield _) (ih _))

theorem RowClosed.waitBody (hR : RowClosed R) (s : State) : R s (waitBody s) :=
  hR.trans (hR.act .reassert s) (hR.trans (hR.pollLoop _ _) (hR.runActs _ _))

theorem RowClosed.sendRead (hR : RowClosed R) (a : Word16) (s : State) : R s (sendRead a s) := by
  have hcheck : R s (framingRead (Machine.runActs (readHeadActs s.cfg.aw a) s)) :=
    hR.trans (hR.runActs _ s) (hR.framing _)
  unfold Machine.sendRead
  dsimp only
  split <;> exact hR.trans hcheck (hR.runActs _ _)

/-- What every building block does, every row does. -/
theorem RowClosed.exec (hR : RowClosed R) {i : Instr} {s t : State} (h : exec i s = .next t) : R s t := by
  have hread : ∀ a, R s (readWordBody a (Machine.accept s)) := by
    intro a
    refine hR.trans (hR.accept s) ?_
    unfold readWordBody
    dsimp only
    split <;> exact hR.trans (hR.sendRead a _) (hR.act _ _)
  obtain ⟨-, -, ⟨-, st, -, rfl⟩ | ⟨-, -, -, hop⟩ | ⟨-, -, hrow⟩ | ⟨-, -, -, hrow⟩⟩ := exec_next h
  · exact hR.act (.complete st) s
  · obtain ⟨a, -, rfl⟩ | ⟨a, v, -, rfl⟩ | ⟨-, rfl⟩ | ⟨-, rfl⟩ := hop
    · exact hread a
    · exact hR.trans (hR.accept s) (hR.trans (hR.runActs _ _) (hR.trans (hR.waitBody _) (hR.act _ _)))
    · exact hR.trans (hR.accept s) (hR.trans (hR.runActs _ _) (hR.act _ _))
    · exact hR.trans (hR.accept s) (hR.trans (hR.runActs _ _) (hR.act _ _))
  · obtain ⟨a, -, rfl⟩ | ⟨a, v, -, rfl⟩ | ⟨-, rfl⟩ | ⟨-, rfl⟩ | ⟨-, rfl⟩ | ⟨-, rfl, -⟩ := hrow
    · exact hR.sendRead a s
    · exact hR.runActs _ s
    · exact hR.runActs _ s
    · exact hR.runActs _ s
    · exact hR.runActs _ s
    · exact hR.waitBody s
  · obtain ⟨v, n, -, rfl⟩ | ⟨n, -, rfl⟩ | ⟨-, rfl⟩ := hrow <;> exact hR.runActs _ s

end

/-- Agreement on the configuration, what answers for DO, and the schedule. -/
structure SameSetting (s t : State) : Prop where
  cfg : t.cfg = s.cfg
  attached : t.attached = s.attached
  moves : t.moves = s.moves

theorem SameSetting.trans {s t u : State} (h : SameSetting s t) (k : SameSetting t u) : SameSetting s u :=
  ⟨k.cfg.trans h.cfg, k.attached.trans h.attached, k.moves.trans h.moves⟩

/-- No action writes the configuration, the attachment or the schedule (R36). -/
theorem runAct_sameSetting (a : Act) (s : State) : SameSetting s (runAct a s) := by
  cases a with
  | check => simp only [runAct]; split <;> exact ⟨by simp, by simp, by simp⟩
  | poll => simp only [runAct]; split <;> exact ⟨by simp, by simp, by simp⟩
  | completeRead => simp only [runAct]; split <;> exact ⟨rfl, rfl, rfl⟩
  | completeRet => simp only [runAct]; split <;> exact ⟨rfl, rfl, rfl⟩
  | _ => exact ⟨by simp [runAct], by simp [runAct], by simp [runAct]⟩

theorem sameSetting_rowClosed : RowClosed SameSetting where
  refl _ := ⟨rfl, rfl, rfl⟩
  trans := SameSetting.trans
  accept _ := ⟨rfl, rfl, rfl⟩
  act := runAct_sameSetting
  framing _ := ⟨by simp, by simp, by simp⟩
  poll _ := ⟨by simp, by simp, by simp⟩

/-- A step off the schedule keeps the configuration and the attachment (R36). -/
theorem step_sameSetting {s t : State} (h : step s = .next t) : SameSetting s.popped t := by
  obtain ⟨-, ⟨d, hd⟩ | ⟨d, hd⟩ | ha | rfl | rfl | ⟨v, rfl⟩⟩ := step_cases h
  · exact sameSetting_rowClosed.exec hd
  · obtain ⟨-, -, -, ⟨st, -, rfl⟩ | ⟨-, -, rfl⟩⟩ := beginOp_next hd <;> exact ⟨rfl, rfl, rfl⟩
  · obtain ⟨-, rfl⟩ | ⟨a, rest, -, -, rfl⟩ := actStep_next ha
    · exact ⟨rfl, rfl, rfl⟩
    · have hact := runAct_sameSetting a { s.popped with stepPos := rest }
      exact ⟨hact.cfg, hact.attached, hact.moves⟩
  · exact ⟨by simp, by simp, by simp⟩
  · exact ⟨rfl, rfl, rfl⟩
  · exact ⟨by simp [foreignWrite], by simp [foreignWrite], by simp [foreignWrite]⟩

/-- Settles O4: no building block of a row writes the setting, and a move only takes itself off the schedule. -/
theorem configurationNeverChanges : Obligations.ConfigurationNeverChanges := by
  refine ⟨fun s t h => ?_, fun i s t h => ?_⟩
  · have hs := step_sameSetting h
    exact ⟨hs.cfg, hs.attached⟩
  · have hs := sameSetting_rowClosed.exec h
    exact ⟨hs.cfg, hs.attached, hs.moves⟩

/-- With an oracle for DO, the part stays as it is and the oracle stays attached (R53). -/
def OraclePart (s t : State) : Prop := s.attached = .oracle → t.attached = .oracle ∧ t.part = s.part

theorem oraclePart_rowClosed : RowClosed OraclePart where
  refl _ h := ⟨h, rfl⟩
  trans h k ha := by
    obtain ⟨ha', hp⟩ := h ha
    obtain ⟨ha'', hp'⟩ := k ha'
    exact ⟨ha'', hp'.trans hp⟩
  accept _ h := ⟨h, rfl⟩
  act a s h := ⟨(runAct_sameSetting a s).attached.trans h, runAct_part_oracle a s h⟩
  framing _ h := ⟨by simpa using h, by simp⟩
  poll _ h := ⟨by simpa using h, by simp⟩

/-- With an oracle for DO no row touches the part (R53). -/
theorem exec_part_oracle {i : Instr} {s t : State} (h : exec i s = .next t) (ha : s.attached = .oracle) :
    t.part = s.part := (oraclePart_rowClosed.exec h ha).2

/-! ### The first state, the reset state and the codes -/

/-- Settles O1: the fields of `State.fresh`, read off. -/
theorem newInstanceHoldsResetValues : Obligations.NewInstanceHoldsResetValues :=
  fun _ => ⟨rfl, rfl, rfl, rfl, rfl, rfl, rfl, rfl, rfl, rfl⟩

/-- Settles O3: the step is `resetSequencer`, which writes the sequencer's record alone. -/
theorem resetAbandonsTheOperationAndKeepsTheLines : Obligations.ResetAbandonsTheOperationAndKeepsTheLines := by
  intro s ms hok hm
  exact ⟨resetSequencer { s with moves := ms }, step_cons hok hm, rfl, rfl, rfl, rfl, rfl, rfl, rfl, rfl, rfl, rfl, rfl,
    rfl, rfl, rfl, rfl, rfl, rfl, rfl, rfl⟩

/-- Settles O37: the table of R101, row by row. -/
theorem statusCodesAreThoseOfTheTable : Obligations.StatusCodesAreThoseOfTheTable := ⟨rfl, rfl, rfl, rfl, rfl⟩

/-- Settles O51: nothing runs and nothing is stored in a state just made. -/
theorem newInstanceMeetsTheSequencerInvariant : Obligations.NewInstanceMeetsTheSequencerInvariant := by
  intro c s h
  unfold State.create at h
  split at h
  · rename_i hok
    cases h
    exact ⟨⟨hok, fun _ => ⟨rfl, rfl, rfl, rfl, fun c hc => nomatch hc⟩, fun hb => nomatch hb⟩,
      hok, rfl, fun c hc => (nomatch hc), fun g hg => nomatch hg⟩
  · cases h

/-! ### Writes after another agent's (R144) -/

/-- What a line change leaves: the whole of the new `ctl` in the register, and one write event (R80). -/
theorem drive_spec (sk cs di : Option Bool) (s : State) (c : Word32) (hc : s.ctl = some c) :
    (drive sk cs di s).creg = driveLines s.cfg c sk cs di ∧ (drive sk cs di s).ctl = some (drive sk cs di s).creg ∧
    (drive sk cs di s).history = .write (drive sk cs di s).creg :: s.history := by
  rw [drive_some sk cs di s c hc]
  simp

/-- Another agent's write, then an action of the running operation: the action finds the configuration, the shadow value
and the history as they were (R144). -/
theorem run_foreign_act {s : State} {v : Word32} {a : Act} {rest : List Act} (hok : s.cfg.ok = true)
    (hb : s.busy = true) (hm : s.moves = [.foreign v]) (hpos : s.stepPos = a :: rest) (hp : s.phase = a.phase)
    (hr : a.ready s = true) :
    ∃ u, u.cfg = s.cfg ∧ u.ctl = s.ctl ∧ u.history = s.history ∧
      Host.Core.run core 2 s = .next (runAct a u) := by
  have h1 : step s = .next (foreignWrite v { s with moves := [] }) := step_cons hok hm
  have hr' : a.ready (foreignWrite v { s with moves := [] }) = true :=
    (Act.ready_congr (by simp [foreignWrite]) (by simp [foreignWrite]) (by simp [foreignWrite]) a).trans hr
  have h2 := step_actStep (s := foreignWrite v { s with moves := [] }) (by simpa [foreignWrite] using hok)
    (by simpa [foreignWrite] using hb) (.inl (by simp [foreignWrite]))
  rw [State.popped_of_nil (by simp [foreignWrite]), actStep_takes (by simpa [foreignWrite] using hb)
    (by simpa [foreignWrite] using hpos) (by simpa [foreignWrite] using hp) hr'] at h2
  refine ⟨_, ?_, ?_, ?_, (run_succ 1 _ _ h1).trans (run_succ 0 _ _ h2)⟩ <;> simp [foreignWrite]

/-- Settles O55: each of the three writes puts a value computed from `ctl`, which the foreign write left alone. -/
theorem nextWriteUndoesAForeignWrite : Obligations.NextWriteUndoesAForeignWrite := by
  intro s v c rest hok hb hc hm
  have hready : s.ctl.isSome = true := by rw [hc]; rfl
  refine ⟨fun sk cs di hpos => ?_, fun hp hpos => ?_, fun hp hpos => ?_⟩
  · obtain ⟨u, hcfg, hctl, hhist, hrun⟩ := run_foreign_act hok hb hm hpos rfl hready
    obtain ⟨h1, h2, h3⟩ := drive_spec sk cs di u c (hctl.trans hc)
    rw [hcfg] at h1
    rw [hhist] at h3
    exact ⟨_, hrun, h1, h2, h3⟩
  · obtain ⟨u, hcfg, hctl, hhist, hrun⟩ := run_foreign_act hok hb hm hpos hp hready
    obtain ⟨h1, h2, h3⟩ := drive_spec none none (some true) u c (hctl.trans hc)
    rw [hcfg] at h1
    rw [hhist] at h3
    exact ⟨_, hrun, h1, h2, h3⟩
  · obtain ⟨u, hcfg, hctl, hhist, hrun⟩ := run_foreign_act hok hb hm hpos hp hready
    obtain ⟨h1, h2, h3⟩ := waitBegin_spec u c (hctl.trans hc)
    rw [← h2] at h1 h3
    rw [hcfg] at h2
    rw [hhist] at h3
    exact ⟨_, hrun, h2, h1, h3⟩

end Sys2Proof.Machine

/-! SUPPORT. The state statements: what the host operations report and leave behind, the bits their writes keep, and
what the rows leave unchanged. -/

namespace Sys2Proof.Machine

/-! ### What host operations leave and report (R23, R98, R101) -/

/-- Settles O31: an early completion changes neither phase nor `ctl`, and an accepted operation is `Done` with END's
value. -/
theorem hostOperationsEndIdleWithLinesLow : Obligations.HostOperationsEndIdleWithLinesLow := by
  rintro s t i ⟨-, -, hp⟩ hi h
  obtain ⟨hok, -, ⟨st, he, rfl⟩ | ⟨-, hdone⟩⟩ := exec_hostOp_next hi h
  · exact ⟨hp, rfl, rfl, rfl, fun hn => by rw [he] at hn; cases hn⟩
  · refine ⟨hdone.phase, hdone.busy, hdone.acc, hdone.stepPos, fun _ => ⟨?_, ?_⟩⟩
    · rw [hdone.ctl, hdone.creg]
    · rw [hdone.creg]
      exact linesLow_driveLines hok _

/-- READ_WORD's result has 16 bits (R23). -/
theorem readResult_lt (acc : Word32) : (readResult acc).toNat < 2 ^ 16 := by
  simp only [readResult, BitVec.toNat_setWidth]
  omega

/-- The early completions: an address out of range, and a reserved code (R89, R107). -/
theorem earlyStatus_eq_some {cfg : Config} {i : Instr} {st : Status} (h : earlyStatus cfg i = some st) :
    (st = .addressOutOfRange ∧ ((∃ a, i = .readWord a) ∨ ∃ a v, i = .writeWord a v)) ∨
    (st = .illegalOp ∧ ∃ op, i = .reserved op) := by
  cases i with
  | readWord a =>
    simp only [earlyStatus, Option.ite_none_right_eq_some, Option.some.injEq] at h
    exact .inl ⟨h.2.symm, .inl ⟨a, rfl⟩⟩
  | writeWord a v =>
    simp only [earlyStatus, Option.ite_none_right_eq_some, Option.some.injEq] at h
    exact .inl ⟨h.2.symm, .inr ⟨a, v, rfl⟩⟩
  | reserved op =>
    cases h
    exact .inr ⟨rfl, op, rfl⟩
  | _ => cases h

/-- What each host operation reports (R23, R101, R109). -/
theorem exec_hostOp_report {i : Instr} {s t : State} (hi : i.isHostOp = true) (h : exec i s = .next t) :
    (earlyStatus s.cfg i = some t.status ∧ t.data = 0) ∨
    (∃ a, i = .readWord a ∧ ((t.status = .protocolFraming ∧ t.data = 0) ∨ (t.status = .ok ∧ t.data.toNat < 2 ^ 16))) ∨
    (∃ a v, i = .writeWord a v ∧ (t.status = .ok ∨ t.status = .writeTimeout) ∧ t.data = 0) ∨
    ((i = .writeEnable ∨ i = .writeDisable) ∧ t.status = .ok ∧ t.data = 0) := by
  obtain ⟨hok, -, ⟨st, he, rfl⟩ | ⟨-, hop⟩⟩ := exec_hostOp_cases hi h
  · exact .inl ⟨he, rfl⟩
  · right
    obtain ⟨a, rfl, rfl⟩ | ⟨a, v, rfl, rfl⟩ | ⟨rfl, rfl⟩ | ⟨rfl, rfl⟩ := hop
    · obtain ⟨-, -, -, dummy, m, -, -, -, -, -, ⟨hst, hd, -⟩ | ⟨hst, -, rs, -, hd, -⟩⟩ := readWordBody_events a s hok
      · exact .inl ⟨a, rfl, .inl ⟨hst, hd⟩⟩
      · exact .inl ⟨a, rfl, .inr ⟨hst, by rw [hd]; exact readResult_lt _⟩⟩
    · obtain ⟨-, hd, earlier, last, -, hst, -⟩ := writeWordBody_events a v s hok
      refine .inr (.inl ⟨a, v, rfl, ?_, hd⟩)
      rw [hst]
      split
      · exact .inl rfl
      · exact .inr rfl
    · exact .inr (.inr ⟨.inl rfl, rfl, rfl⟩)
    · exact .inr (.inr ⟨.inr rfl, rfl, rfl⟩)

/-- Settles O36, by what each host operation reports. -/
theorem statusAndDataOfHostOperations : Obligations.StatusAndDataOfHostOperations := by
  intro s t i hi h
  obtain ⟨he, hd⟩ | ⟨a, rfl, ⟨hst, hd⟩ | ⟨hst, hd⟩⟩ | ⟨a, v, rfl, hst, hd⟩ | ⟨rfl | rfl, hst, hd⟩ :=
    exec_hostOp_report hi h
  · obtain ⟨hst, ⟨a, rfl⟩ | ⟨a, v, rfl⟩⟩ | ⟨hst, op, rfl⟩ := earlyStatus_eq_some he <;> simp [hst, hd]
  · simp [hst, hd]
  · simpa [hst] using hd
  · obtain hst | hst := hst <;> simp [hst, hd]
  · simp [hst, hd]
  · simp [hst, hd]

/-! ### Bits that are no driven line (R33) -/

/-- Every write of some events keeps all bits but those of the driven lines as the first read gave them. -/
def KeepsFirstRead (cfg : Config) (evs : List Event) : Prop :=
  ∀ v ∈ writesOf evs, ∃ r rest, readsOf evs = r :: rest ∧ sameOtherBits cfg r v

/-- What is read and written after START and the bits of a frame keeps the first read, if what follows does. -/
theorem keepsFirstRead_head {cfg : Config} (hok : cfg.ok = true) (r : Word32) (bits : List Bool) (es : List Event)
    (hes : ∀ v ∈ writesOf es, sameOtherBits cfg r v) : KeepsFirstRead cfg (headEvents cfg r bits es) := by
  have hdrive : ∀ c sk cs di, sameOtherBits cfg r c → sameOtherBits cfg r (driveLines cfg c sk cs di) :=
    fun c sk cs di hc => driveLines_sameOtherBits hok r c sk cs di hc
  have hhigh : sameOtherBits cfg r (startHigh cfg r) := hdrive _ _ _ _ (sameOtherBits_refl cfg r)
  intro v hv
  refine ⟨r, readsOf es, readsOf_head cfg r bits es, ?_⟩
  rw [writesOf_head] at hv
  simp only [List.mem_cons, List.mem_append, List.mem_flatMap, List.not_mem_nil, or_false] at hv
  obtain rfl | rfl | ⟨b, -, rfl | rfl⟩ | hv := hv
  · exact hdrive _ _ _ _ (sameOtherBits_refl cfg r)
  · exact hhigh
  · exact hdrive _ _ _ _ hhigh
  · exact hdrive _ _ _ _ hhigh
  · exact hes v hv

/-- END's value keeps the other bits (R85). -/
theorem sameOtherBits_endValue {cfg : Config} (hok : cfg.ok = true) (r : Word32) :
    sameOtherBits cfg r (endValue cfg r) := driveLines_sameOtherBits hok _ _ _ _ _ (sameOtherBits_refl cfg r)

/-- END's write, among events that write nothing, keeps the first read (R85). -/
theorem keepsFirstRead_end {cfg : Config} (hok : cfg.ok = true) (r : Word32) (bits : List Bool)
    {before after : List Event} (hbefore : writesOf before = []) (hafter : writesOf after = []) :
    KeepsFirstRead cfg (headEvents cfg r bits (before ++ .write (endValue cfg r) :: after)) := by
  refine keepsFirstRead_head hok r bits _ fun v hv => ?_
  simp only [writesOf_append, writesOf, hbefore, hafter, List.nil_append, List.mem_singleton] at hv
  rw [hv]
  exact sameOtherBits_endValue hok r

/-- The framing check, the samples and END keep the first read (R90). -/
theorem keepsFirstRead_samples {cfg : Config} (hok : cfg.ok = true) (r dummy m : Word32) (bits : List Bool)
    (rs : List Word32) (hm : sameOtherBits cfg r m) {after : List Event} (hafter : writesOf after = []) :
    KeepsFirstRead cfg (headEvents cfg r bits (.read dummy :: .write m :: (rs.flatMap (sampleEvents cfg m) ++
      (.write (endValue cfg r) :: after)))) := by
  refine keepsFirstRead_head hok r bits _ fun v hv => ?_
  simp only [writesOf, writesOf_append, writesOf_samples, hafter, List.mem_cons, List.mem_append, List.mem_flatMap,
    List.not_mem_nil, or_false] at hv
  obtain rfl | ⟨x, -, rfl | rfl⟩ | rfl := hv
  · exact hm
  · exact driveLines_sameOtherBits hok _ _ _ _ _ hm
  · exact driveLines_sameOtherBits hok _ _ _ _ _ hm
  · exact sameOtherBits_endValue hok r

/-- READ_WORD's writes (R90). -/
theorem readWordBody_keepsFirstRead (a : Word16) (s : State) (hok : s.cfg.ok = true) :
    ∃ evs, Added s (readWordBody a (accept s)) evs ∧ KeepsFirstRead s.cfg evs := by
  obtain ⟨-, -, -, dummy, m, -, -, -, hm, -, ⟨-, -, -, hadd⟩ | ⟨-, -, rs, -, -, hadd⟩⟩ := readWordBody_events a s hok
  · exact ⟨_, hadd, keepsFirstRead_end hok _ _ (before := [.read dummy]) rfl rfl⟩
  · exact ⟨_, hadd, keepsFirstRead_samples hok _ _ _ _ _ hm rfl⟩

/-- The READ frame's writes (R65). -/
theorem sendRead_keepsFirstRead (a : Word16) (s : State) (hok : s.cfg.ok = true) :
    ∃ evs, Added s (sendRead a s) evs ∧ KeepsFirstRead s.cfg evs := by
  obtain ⟨-, -, -, dummy, m, -, -, -, hm, -, ⟨-, -, -, hadd⟩ | ⟨-, -, rs, -, -, hadd⟩⟩ := sendRead_spec a s hok
  · exact ⟨_, hadd, keepsFirstRead_end hok _ _ (before := [.read dummy]) rfl rfl⟩
  · exact ⟨_, hadd, keepsFirstRead_samples hok _ _ _ _ _ hm rfl⟩

/-- WRITE_WORD's writes, those of its completion wait among them (R92, R95). -/
theorem writeWordBody_keepsFirstRead (a v : Word16) (s : State) (hok : s.cfg.ok = true) :
    ∃ evs, Added s (writeWordBody a v (accept s)) evs ∧ KeepsFirstRead s.cfg evs := by
  obtain ⟨-, -, earlier, last, -, -, hadd⟩ := writeWordBody_events a v s hok
  refine ⟨_, hadd, keepsFirstRead_head hok _ _ _ fun w hw => ?_⟩
  simp only [writesOf, writesOf_append, writesOf_earlier, List.nil_append, List.mem_cons, List.not_mem_nil,
    or_false] at hw
  obtain rfl | rfl | rfl := hw
  · exact sameOtherBits_endValue hok _
  · exact driveLines_sameOtherBits hok _ _ _ _ _ (sameOtherBits_endValue hok _)
  · exact sameOtherBits_endValue hok _

/-- The writes of a frame that only writes (R66 to R68). -/
theorem runActs_frame_keepsFirstRead (bits : List Bool) (s : State) (hok : s.cfg.ok = true) :
    ∃ evs, Added s (runActs (frameActs bits) s) evs ∧ KeepsFirstRead s.cfg evs := by
  obtain ⟨-, -, -, -, -, hadd⟩ := runActs_frame bits s hok
  exact ⟨_, hadd, keepsFirstRead_end hok _ _ (before := []) rfl rfl⟩

/-- START's writes (R82). -/
theorem runActs_start_keepsFirstRead (s : State) (hok : s.cfg.ok = true) :
    ∃ evs, Added s (runActs startActs s) evs ∧ KeepsFirstRead s.cfg evs := by
  obtain ⟨-, -, -, -, -, hadd⟩ := runActs_start s hok
  exact ⟨headEvents s.cfg (readValue s) [] [], hadd, keepsFirstRead_head hok _ _ _ fun v hv => nomatch hv⟩

/-- The writes of an operation that sends one frame that only writes (R93, R94). -/
theorem frameBody_keepsFirstRead (bits : List Bool) (s : State) (hok : s.cfg.ok = true) :
    ∃ evs, Added s (complete .ok 0 (runActs (frameActs bits) (accept s))) evs ∧ KeepsFirstRead s.cfg evs := by
  obtain ⟨-, -, -, hadd⟩ := frameBody_events bits s hok
  exact ⟨_, hadd, keepsFirstRead_end hok _ _ (before := []) rfl rfl⟩

/-- Settles O33, row by row: the value of every write is START's read with only lines changed. -/
theorem everyWriteKeepsTheOtherBitsAsStartReadThem : Obligations.EveryWriteKeepsTheOtherBitsAsStartReadThem := by
  intro s t i hp hi h
  obtain ⟨hok, -, ⟨-, st, -, rfl⟩ | ⟨-, -, -, hop⟩ | ⟨-, -, hrow⟩ | ⟨hca, -⟩⟩ := exec_next h
  · exact ⟨[.completed st 0], rfl, fun v hv => nomatch hv⟩
  · obtain ⟨a, -, rfl⟩ | ⟨a, v, -, rfl⟩ | ⟨-, rfl⟩ | ⟨-, rfl⟩ := hop
    · exact readWordBody_keepsFirstRead a s hok
    · exact writeWordBody_keepsFirstRead a v s hok
    · rw [writeEnableBody_eq]; exact frameBody_keepsFirstRead _ s hok
    · rw [writeDisableBody_eq]; exact frameBody_keepsFirstRead _ s hok
  · obtain ⟨a, -, rfl⟩ | ⟨a, v, -, rfl⟩ | ⟨-, rfl⟩ | ⟨-, rfl⟩ | ⟨-, rfl⟩ | ⟨hw, -⟩ := hrow
    · exact sendRead_keepsFirstRead a s hok
    · rw [writeActs_eq]; exact runActs_frame_keepsFirstRead _ s hok
    · rw [ewenActs_eq]; exact runActs_frame_keepsFirstRead _ s hok
    · rw [ewdsActs_eq]; exact runActs_frame_keepsFirstRead _ s hok
    · exact runActs_start_keepsFirstRead s hok
    · exact absurd hw hi
  · rw [hp] at hca
    cases hca

/-! ### What the rows leave alone -/

/-- START as a row (R82). -/
theorem exec_start_next {s t : State} (h : exec .start s = .next t) : s.cfg.ok = true ∧ t = runActs startActs s := by
  obtain ⟨hok, -, -, -, ht⟩ := engineOp_next h
  exact ⟨hok, ht⟩

/-- PUT_BITS as a row (R83). -/
theorem exec_putBits_next {v : Word32} {n : Nat} {s t : State} (h : exec (.putBits v n) s = .next t) :
    t = runActs (putActs v n) s := by
  obtain ⟨-, -, -, -, ht⟩ := engineOp_next h
  exact ht

/-- GET_BITS as a row (R84). -/
theorem exec_getBits_next {n : Nat} {s t : State} (h : exec (.getBits n) s = .next t) : t = runActs (getActs n) s := by
  obtain ⟨-, -, -, -, ht⟩ := engineOp_next h
  exact ht

/-- END as a row (R85). -/
theorem exec_endOp_next {s t : State} (h : exec .endOp s = .next t) : t = runActs endActs s := by
  obtain ⟨-, -, -, -, ht⟩ := engineOp_next h
  exact ht

/-- WAIT as a row (R95). -/
theorem exec_wait_next {s t : State} (h : exec .wait s = .next t) :
    s.cfg.ok = true ∧ s.ctl.isSome = true ∧ t = waitBody s := by
  obtain ⟨hok, -, -, hctl, ht⟩ := engineOp_next h
  exact ⟨hok, hctl rfl, ht⟩

/-- No micro-operation touches the host port or the running position (R82 to R85, R95). -/
theorem exec_microOp_port {i : Instr} {s t : State}
    (hi : i = .start ∨ (∃ v n, i = .putBits v n) ∨ (∃ n, i = .getBits n) ∨ i = .endOp ∨ i = .wait)
    (h : exec i s = .next t) :
    t.busy = s.busy ∧ t.status = s.status ∧ t.data = s.data ∧ t.stepPos = s.stepPos := by
  have hstraight : ∀ as : List Act, (∀ a ∈ as, a.straight = true) →
      (runActs as s).busy = s.busy ∧ (runActs as s).status = s.status ∧ (runActs as s).data = s.data ∧
        (runActs as s).stepPos = s.stepPos := by
    intro as has
    have hp := runActs_samePort as s has
    exact ⟨hp.busy, hp.status, hp.data, hp.stepPos⟩
  obtain rfl | ⟨v, n, rfl⟩ | ⟨n, rfl⟩ | rfl | rfl := hi
  · obtain ⟨-, rfl⟩ := exec_start_next h
    exact hstraight _ startActs_straight
  · rw [exec_putBits_next h]
    exact hstraight _ (putActs_straight v n)
  · rw [exec_getBits_next h]
    exact hstraight _ (getActs_straight n)
  · rw [exec_endOp_next h]
    exact hstraight _ endActs_straight
  · obtain ⟨-, -, rfl⟩ := exec_wait_next h
    obtain ⟨-, hb, hst, hd, hpos, -, -⟩ := waitBody_frame s
    exact ⟨hb, hst, hd, hpos⟩

/-- END makes no read and leaves `acc` alone (R85). -/
theorem endActs_writesOnly : ∀ a ∈ endActs, a.writesOnly = true := by
  simp [endActs, Act.writesOnly]

/-- Settles O39, one clause a micro-operation. -/
theorem frameOfMicroOperations : Obligations.FrameOfMicroOperations := by
  intro s t
  refine ⟨fun i hi h => ?_, fun h => ?_, fun v n h => ?_, fun n h => ?_, fun h => ?_, fun h => ?_⟩
  · obtain ⟨hb, hst, hd, hpos⟩ := exec_microOp_port hi h
    exact ⟨hb, hst, hd, hpos, (sameSetting_rowClosed.exec h).moves, exec_part_oracle h⟩
  · obtain ⟨hok, rfl⟩ := exec_start_next h
    obtain ⟨-, -, -, hacc, -, -⟩ := runActs_start s hok
    have hp := runActs_samePort startActs s startActs_straight
    exact ⟨hacc, hp.ret, hp.deadline⟩
  · have hkinds := clockActs_kinds (msbBits v n)
    rw [← putActs_eq_clockActs] at hkinds
    have hp := runActs_samePort (putActs v n) s fun a ha => (hkinds a ha).1
    obtain ⟨hacc, hans⟩ := runActs_writesOnly (putActs v n) s fun a ha => (hkinds a ha).2.2
    rw [exec_putBits_next h]
    exact ⟨runActs_phase _ s fun a ha => (hkinds a ha).2.1, hacc, hp.ret, hp.deadline, hans, hp.deadlines⟩
  · have hp := runActs_samePort (getActs n) s (getActs_straight n)
    rw [exec_getBits_next h]
    exact ⟨runActs_phase _ s fun a ha => (getActs_kinds n a ha).2, hp.ret, hp.deadline, hp.deadlines⟩
  · have hp := runActs_samePort endActs s endActs_straight
    obtain ⟨hacc, hans⟩ := runActs_writesOnly endActs s endActs_writesOnly
    rw [exec_endOp_next h]
    exact ⟨hacc, hp.ret, hp.deadline, hans, hp.deadlines⟩
  · obtain ⟨hok, hctl, rfl⟩ := exec_wait_next h
    obtain ⟨c, hc⟩ := Option.isSome_iff_exists.1 hctl
    obtain ⟨-, -, -, -, -, -, -, -, hacc, -⟩ := waitBody_spec s hok c hc
    exact hacc

/-- A frame row is the READ frame, or clocks bits out between START and END (R65 to R68). -/
theorem exec_frame_next {i : Instr} {s t : State}
    (hi : (∃ a, i = .readFrame a) ∨ (∃ a v, i = .writeFrame a v) ∨ i = .ewenFrame ∨ i = .ewdsFrame)
    (h : exec i s = .next t) :
    s.cfg.ok = true ∧
    ((∃ a, i = .readFrame a ∧ t = sendRead a s) ∨
     ((∀ a, i ≠ .readFrame a) ∧ ∃ bits, t = runActs (frameActs bits) s)) := by
  obtain ⟨a, rfl⟩ | ⟨a, v, rfl⟩ | rfl | rfl := hi
  · obtain ⟨hok, -, -, -, rfl⟩ := engineOp_next h
    exact ⟨hok, .inl ⟨a, rfl, rfl⟩⟩
  · obtain ⟨hok, -, -, -, rfl⟩ := engineOp_next h
    exact ⟨hok, .inr ⟨nofun, _, by rw [writeActs_eq]⟩⟩
  · obtain ⟨hok, -, -, -, rfl⟩ := engineOp_next h
    exact ⟨hok, .inr ⟨nofun, _, by rw [ewenActs_eq]⟩⟩
  · obtain ⟨hok, -, -, -, rfl⟩ := engineOp_next h
    exact ⟨hok, .inr ⟨nofun, _, by rw [ewdsActs_eq]⟩⟩

/-- Settles O41: the READ frame by `sendRead_frame`, the others as straight sequences. -/
theorem frameOfSerialFrames : Obligations.FrameOfSerialFrames := by
  intro s t i hi h
  have hpart := exec_part_oracle h
  obtain ⟨hok, ⟨a, rfl, rfl⟩ | ⟨hn, bits, rfl⟩⟩ := exec_frame_next hi h
  · obtain ⟨-, hb, hst, hd, hpos, -, hm, hdl, hdls⟩ := sendRead_frame a s
    exact ⟨hb, hst, hd, hpos, hm, hdl, hdls, hpart, fun hn => absurd rfl (hn a)⟩
  · have hp := runActs_samePort (frameActs bits) s (frameActs_straight bits)
    obtain ⟨-, -, -, hacc, -⟩ := runActs_frame bits s hok
    exact ⟨hp.busy, hp.status, hp.data, hp.stepPos, hp.moves, hp.deadline, hp.deadlines, hpart, fun _ => ⟨hacc, hp.ret⟩⟩

/-- Only WRITE_WORD, whose completion wait it is, draws a deadline (R95). -/
theorem exec_hostOp_deadline {i : Instr} {s t : State} (hi : i.isHostOp = true) (h : exec i s = .next t)
    (hw : ∀ a v, i ≠ .writeWord a v) : t.deadline = s.deadline ∧ t.deadlines = s.deadlines := by
  obtain ⟨hok, -, ⟨st, -, rfl⟩ | ⟨-, hop⟩⟩ := exec_hostOp_cases hi h
  · exact ⟨rfl, rfl⟩
  · obtain ⟨a, -, rfl⟩ | ⟨a, v, rfl, -⟩ | ⟨-, rfl⟩ | ⟨-, rfl⟩ := hop
    · obtain ⟨-, hdl, hdls, -⟩ := readWordBody_events a s hok
      exact ⟨hdl, hdls⟩
    · exact absurd rfl (hw a v)
    · obtain ⟨-, hdl, hdls, -⟩ := frameBody_events (ewenBits s.cfg.aw) s hok
      exact ⟨hdl, hdls⟩
    · obtain ⟨-, hdl, hdls, -⟩ := frameBody_events (ewdsBits s.cfg.aw) s hok
      exact ⟨hdl, hdls⟩

/-- Settles O42: what every row keeps, the deadline, and an early completion's state. -/
theorem frameOfHostOperations : Obligations.FrameOfHostOperations := by
  intro s t i hi h
  refine ⟨(sameSetting_rowClosed.exec h).moves, exec_part_oracle h, exec_hostOp_deadline hi h, fun he => ?_⟩
  obtain ⟨-, -, ⟨st, -, rfl⟩ | ⟨hn, -⟩⟩ := exec_hostOp_next hi h
  · exact ⟨rfl, rfl, rfl, rfl, rfl, rfl, rfl, rfl⟩
  · exact absurd hn he

end Sys2Proof.Machine

/-! SUPPORT. The state statements: an operation taken action by action, and what an operation does not see of an earlier
one. -/

namespace Sys2Proof.Machine

/-! ### What an earlier operation left (R19, R20, R88, R138) -/

section
variable (st : Status) (d : Word32) (acc : Option Word32) (pos : List Act) (ret : Option Status) (s : State)

theorem takeDeadline_stale : takeDeadline (stale st d acc pos ret s) = stale st d acc pos ret (takeDeadline s) := by
  unfold takeDeadline stale
  dsimp only
  split <;> rfl

/-- A completion overwrites all that is stale (R37). -/
theorem complete_stale (st' : Status) (d' : Word32) :
    complete st' d' (stale st d acc pos ret s) = complete st' d' s := rfl

/-- The framing check returns a status of its own (R91). -/
theorem framingRead_stale :
    framingRead (stale st d acc pos ret s) = stale st d acc pos (framingRead s).ret (framingRead s) := by
  unfold framingRead
  rw [afterRead_stale]
  rfl

/-- WAIT's re-assert drops the returned status (R95). -/
theorem waitBegin_stale : waitBegin (stale st d acc pos ret s) = stale st d acc pos none (waitBegin s) := by
  unfold waitBegin
  rw [drive_stale, takeDeadline_stale]
  rfl

/-- A poll is blind to all but the returned status (R95). -/
theorem pollStep_stale : pollStep (stale st d acc pos s.ret s) = stale st d acc pos (pollStep s).ret (pollStep s) := by
  have hret : (afterRead s).ret = s.ret := by simp
  unfold pollStep
  rw [afterRead_stale, readValue_stale, ← hret]
  dsimp only
  change (if doBit s.cfg (readValue s) then _ else if (afterRead s).deadline = 0 then _ else _) = _
  split
  · rfl
  · split <;> rfl

theorem pollLoop_stale (n : Nat) :
    pollLoop n (stale st d acc pos s.ret s) = stale st d acc pos (pollLoop n s).ret (pollLoop n s) := by
  induction n generalizing s with
  | zero => exact pollStep_stale st d acc pos s
  | succ n ih =>
    have hyield : ∀ u : State, runAct .yield (stale st d acc pos u.ret u) =
        stale st d acc pos (runAct .yield u).ret (runAct .yield u) := by
      intro u
      simp only [runAct, yieldPoll_eq, record_stale, partStep_stale, partStep_ret, record_ret]
    unfold pollLoop
    rw [pollStep_stale]
    change (if (pollStep s).ret.isSome then _ else _) = _
    dsimp only
    split
    · rfl
    · rw [hyield, ih]

/-- WAIT returns a status of its own and is blind to the rest (R95). -/
theorem waitBody_stale : waitBody (stale st d acc pos ret s) = stale st d acc pos (waitBody s).ret (waitBody s) := by
  have hloop := pollLoop_stale st d acc pos (waitBegin s) (waitBegin s).deadline
  have hret : (waitBody s).ret = (pollLoop (waitBegin s).deadline (waitBegin s)).ret :=
    (runActs_samePort endActs _ endActs_straight).ret
  rw [hret]
  unfold waitBody
  rw [waitBegin_stale]
  change runActs endActs (pollLoop (waitBegin s).deadline (stale st d acc pos (waitBegin s).ret (waitBegin s))) = _
  rw [hloop]
  exact runActs_stale _ _ _ _ _ _ endActs endActs_writesOnly

/-- START's read, then writes: blind to the shadow value too (R20, R82). -/
theorem runActs_start_stale (as : List Act) (h : ∀ a ∈ as, a.writesOnly = true) (c : Option Word32) :
    runActs (startActs ++ as) (stale st d acc pos ret { s with ctl := c }) =
      stale st d acc pos ret (runActs (startActs ++ as) s) := by
  refine runActs_load_stale st d acc pos ret s _ (fun a ha => ?_) c
  obtain ha | ha := List.mem_append.1 ha
  · simp only [List.mem_cons, List.not_mem_nil, or_false] at ha
    obtain rfl | rfl | rfl | rfl := ha <;> rfl
  · exact h a ha

theorem clockActs_writesOnly (bits : List Bool) : ∀ a ∈ clockActs bits, a.writesOnly = true :=
  fun a ha => (clockActs_kinds bits a ha).2.2

/-- A frame that only writes is blind to what an earlier operation left (R66 to R68). -/
theorem runActs_frame_stale (bits : List Bool) (c : Option Word32) :
    runActs (frameActs bits) (stale st d acc pos ret { s with ctl := c }) =
      stale st d acc pos ret (runActs (frameActs bits) s) := by
  rw [frameActs, List.append_assoc]
  refine runActs_start_stale st d acc pos ret s _ (fun a ha => ?_) c
  obtain ha | ha := List.mem_append.1 ha
  · exact clockActs_writesOnly bits a ha
  · exact endActs_writesOnly a ha

/-- Straight actions are blind to the host port and the running position (R25). -/
theorem runActs_port_stale (as : List Act) (h : ∀ a ∈ as, a.straight = true) :
    runActs as (stale st d s.acc pos s.ret s) =
      stale st d (runActs as s).acc pos (runActs as s).ret (runActs as s) := by
  induction as generalizing s with
  | nil => rfl
  | cons a as ih =>
    have hact : runAct a (stale st d s.acc pos s.ret s) =
        stale st d (runAct a s).acc pos (runAct a s).ret (runAct a s) := by
      have ha := h a (by simp)
      cases a with
      | loadCtl =>
        simp only [runAct]
        rw [afterRead_stale]
        simp [stale]
        rfl
      | drive p sk cs di =>
        simp only [runAct]
        rw [drive_stale]
        simp
      | hold p k next =>
        simp only [runAct, delay_eq, record_stale, partStep_stale]
        simp [stale]
      | readMode =>
        simp only [runAct]
        rw [drive_stale]
        simp [stale]
      | sample =>
        simp only [runAct]
        rw [afterRead_stale]
        simp [stale]
        rfl
      | _ => cases ha
    rw [runActs_cons, hact]
    exact ih _ fun b hb => h b (by simp [hb])

/-- The tail of a READ begins with `acc <- 0`, so it is blind to `acc` too (R84, R90). -/
theorem runActs_readTail_stale :
    runActs readTailActs (stale st d acc pos s.ret s) =
      stale st d (runActs readTailActs s).acc pos (runActs readTailActs s).ret (runActs readTailActs s) := by
  have hmode : runAct .readMode (stale st d acc pos s.ret s) =
      stale st d (runAct .readMode s).acc pos (runAct .readMode s).ret (runAct .readMode s) := by
    simp only [runAct]
    rw [drive_stale]
    simp [stale]
  have htail : ∀ a ∈ samplesActs 16 ++ endActs, a.straight = true :=
    fun a ha => readTail_straight a (List.mem_cons_of_mem _ ha)
  change runActs (samplesActs 16 ++ endActs) (runAct .readMode _) = _
  rw [hmode]
  exact runActs_port_stale st d pos (runAct .readMode s) _ htail

/-- The READ frame returns a status of its own, and a word of its own where that is OK (R90, R91). -/
theorem sendRead_stale (a : Word16) (c : Option Word32) :
    ∃ acc', sendRead a (stale st d acc pos ret { s with ctl := c }) =
        stale st d acc' pos (sendRead a s).ret (sendRead a s) ∧
      ((sendRead a s).ret = some .ok → acc' = (sendRead a s).acc) := by
  have hhead : runActs (readHeadActs s.cfg.aw a) (stale st d acc pos ret { s with ctl := c }) =
      stale st d acc pos ret (runActs (readHeadActs s.cfg.aw a) s) := by
    rw [readHeadActs_eq]
    exact runActs_start_stale st d acc pos ret s _ (clockActs_writesOnly _) c
  unfold sendRead
  change ∃ acc', (let t := framingRead (runActs (readHeadActs s.cfg.aw a) (stale st d acc pos ret { s with ctl := c }))
    if t.ret = some .ok then runActs readTailActs t else runActs endActs t) = _ ∧ _
  rw [hhead, framingRead_stale]
  generalize framingRead (runActs (readHeadActs s.cfg.aw a) s) = v
  dsimp only
  change ∃ acc', (if v.ret = some .ok then _ else _) = _ ∧ _
  split
  · exact ⟨_, runActs_readTail_stale st d acc pos v, fun _ => rfl⟩
  · rename_i hv
    have hret : (runActs endActs v).ret = v.ret := (runActs_samePort endActs v endActs_straight).ret
    refine ⟨acc, ?_, fun hr => absurd (hret.symm.trans hr) hv⟩
    rw [hret]
    exact runActs_stale _ _ _ _ _ _ endActs endActs_writesOnly

theorem readWordBody_stale (a : Word16) (c : Option Word32) (h : s.cfg.ok = true) :
    readWordBody a (stale st d acc pos ret { s with ctl := c }) = readWordBody a s := by
  obtain ⟨acc', hsend, hacc⟩ := sendRead_stale st d acc pos ret s a c
  obtain ⟨x, hret, hx, hbody⟩ | ⟨hret, hbody⟩ := readWordBody_eq a s h
  · rw [hacc hret, hx, hret] at hsend
    rw [hbody, readWordBody, hsend]
    rfl
  · rw [hret] at hsend
    rw [hbody, readWordBody, hsend]
    rfl

theorem writeWordBody_stale (a v : Word16) (c : Option Word32) (h : s.cfg.ok = true) :
    writeWordBody a v (stale st d acc pos ret { s with ctl := c }) = writeWordBody a v s := by
  obtain ⟨st', hret, -, hbody⟩ := writeWordBody_eq a v s h
  have hframe : runActs (writeActs s.cfg.aw a v) (stale st d acc pos ret { s with ctl := c }) =
      stale st d acc pos ret (runActs (writeActs s.cfg.aw a v) s) := by
    rw [writeActs_eq]
    exact runActs_frame_stale st d acc pos ret s _ c
  rw [hbody, writeWordBody]
  change runAct .completeRet
    (waitBody (runActs (writeActs s.cfg.aw a v) (stale st d acc pos ret { s with ctl := c }))) = _
  rw [hframe, waitBody_stale, hret]
  rfl

theorem frameBody_stale (bits : List Bool) (c : Option Word32) :
    complete .ok 0 (runActs (frameActs bits) (stale st d acc pos ret { s with ctl := c })) =
      complete .ok 0 (runActs (frameActs bits) s) := by
  rw [runActs_frame_stale, complete_stale]

end

/-- Settles O38: each body is blind to the stale values, for START reads `ctl` anew and the completion overwrites the
rest. -/
theorem acceptedOperationsUseNoStaleState : Obligations.AcceptedOperationsUseNoStaleState := by
  intro s i ctl st d acc pos ret hr hi he
  have hok : (accept s).cfg.ok = true := hr.1
  have hw := wf_of_accepted s.cfg.aw hi he
  have hr' : Ready (stale st d acc pos ret { s with ctl := ctl }) := hr
  have hrow : ∀ body : State → State,
      body (stale st d acc pos ret { accept s with ctl := ctl }) = body (accept s) →
      hostOp i body (stale st d acc pos ret { s with ctl := ctl }) = hostOp i body s := by
    intro body hbody
    exact (hostOp_accepted body hr' hw he).trans ((congrArg _ hbody).trans (hostOp_accepted body hr hw he).symm)
  cases i with
  | readWord a => exact hrow _ (readWordBody_stale st d acc pos ret (accept s) a ctl hok)
  | writeWord a v => exact hrow _ (writeWordBody_stale st d acc pos ret (accept s) a v ctl hok)
  | writeEnable =>
    refine hrow writeEnableBody ?_
    rw [writeEnableBody_eq, writeEnableBody_eq]
    exact frameBody_stale st d acc pos ret (accept s) _ ctl
  | writeDisable =>
    refine hrow writeDisableBody ?_
    rw [writeDisableBody_eq, writeDisableBody_eq]
    exact frameBody_stale st d acc pos ret (accept s) _ ctl
  | reserved op => cases he
  | _ => cases hi

/-! ### An operation action by action (R25, R50, R79) -/

/-- The machine gets from one state to another in some number of steps. -/
def Leads (s t : State) : Prop := ∃ k, ∀ n, Host.Core.run core (k + n) s = Host.Core.run core n t

theorem Leads.trans {s t u : State} (h : Leads s t) (k : Leads t u) : Leads s u := by
  obtain ⟨m, hm⟩ := h
  obtain ⟨n, hn⟩ := k
  exact ⟨m + n, fun x => by rw [Nat.add_assoc, hm, hn]⟩

theorem Leads.of_step {s t : State} (h : step s = .next t) : Leads s t :=
  ⟨1, fun n => by rw [Nat.add_comm]; exact run_succ n s t h⟩

/-- One step of the machine. -/
theorem run_one (s : State) : Host.Core.run core 1 s = step s := by
  have e : core.step s = step s := rfl
  cases h : step s <;> simp only [Host.Core.run, e, h] <;> rfl

/-- The states between two actions of an operation with nothing scheduled. -/
structure Running (s : State) : Prop where
  ok : s.cfg.ok = true
  busy : s.busy = true
  moves : s.moves = []

theorem Running.samePort {s t : State} (h : Running s) (hp : SamePort s t) : Running t :=
  ⟨by rw [hp.cfg]; exact h.ok, by rw [hp.busy]; exact h.busy, by rw [hp.moves]; exact h.moves⟩

/-- One action (R25). -/
theorem Running.act {s : State} (h : Running s) (a : Act) (rest : List Act) (hp : s.phase = a.phase)
    (hr : a.ready s = true) : Leads { s with stepPos := a :: rest } (runAct a { s with stepPos := rest }) :=
  Leads.of_step (step_act s a rest h.ok h.busy h.moves hp hr)

/-- A straight sequence (R57). -/
theorem Running.straight {s : State} (h : Running s) (as rest : List Act) {q : Pos} (ha : ∀ a ∈ as, a.straight = true)
    (hq : (posOf s).afterAll as = some q) :
    Leads { s with stepPos := as ++ rest } { runActs as s with stepPos := rest } :=
  ⟨as.length, fun n => run_straight as n s rest q h.ok h.busy h.moves ha hq⟩

/-- A straight sequence and the action that completes (R37). -/
theorem Running.straight_last {s : State} (h : Running s) (as : List Act) (a : Act) {q : Pos}
    (ha : ∀ a ∈ as, a.straight = true) (hq : (posOf s).afterAll as = some q) (hp : (runActs as s).phase = a.phase)
    (hr : a.ready (runActs as s) = true) :
    Leads { s with stepPos := as ++ [a] } (runAct a { runActs as s with stepPos := [] }) :=
  (h.straight as [a] ha hq).trans ((h.samePort (runActs_samePort as s ha)).act a [] hp hr)

/-- END and WAIT's or the framing check's completion (R85, R91, R92). -/
theorem Running.end_completeRet {s : State} (h : Running s) {st : Status} {c : Word32} (hp : s.phase = .commandActive)
    (hc : s.ctl = some c) (hret : s.ret = some st) :
    Leads { s with stepPos := endActs ++ [.completeRet] } (complete st 0 (runActs endActs s)) := by
  obtain ⟨-, -, hidle, -⟩ := runActs_end s c hc
  have hret' : (runActs endActs s).ret = some st := (runActs_samePort endActs s endActs_straight).ret.trans hret
  have hq := afterAll_end (posOf s) hp (by simp [posOf, hc])
  have hl := h.straight_last endActs .completeRet endActs_straight hq hidle (by simp [Act.ready, hret'])
  simpa [runAct, hret', complete] using hl

/-- A frame that only writes and its operation's completion (R93, R94). -/
theorem Running.frame_complete {s : State} (h : Running s) (bits : List Bool) (hp : s.phase = .idle) :
    Leads { s with stepPos := frameActs bits ++ [.complete .ok] } (complete .ok 0 (runActs (frameActs bits) s)) := by
  obtain ⟨-, -, hidle, -⟩ := runActs_frame bits s h.ok
  exact h.straight_last _ (.complete .ok) (frameActs_straight bits) (afterAll_frame bits (posOf s) hp) hidle rfl

/-- The re-assert is blind to the running position. -/
theorem waitBegin_stepPos' (s : State) (l : List Act) :
    waitBegin { s with stepPos := l } = { waitBegin s with stepPos := l } := by
  have e := waitBegin_stale s.status s.data s.acc l s.ret s
  change waitBegin { s with stepPos := l } = _ at e
  rw [e]
  simp [stale]

/-- WAIT and the completion that reports what it returned (R92, R95). -/
theorem Running.wait_completeRet {s : State} (h : Running s) {c : Word32} (hp : s.phase = .idle) (hc : s.ctl = some c) :
    Leads { s with stepPos := [.reassert, .poll] ++ endActs ++ [.completeRet] } (runAct .completeRet (waitBody s)) := by
  obtain ⟨hctl, -⟩ := waitBegin_spec s c hc
  have hb : Running (waitBegin s) := ⟨by simpa using h.ok, by simpa using h.busy, by simpa using h.moves⟩
  have hreassert := h.act .reassert (.poll :: (endActs ++ [.completeRet])) hp (by simp [Act.ready, hc])
  rw [runAct, waitBegin_stepPos'] at hreassert
  obtain ⟨k, -, hpoll⟩ := run_poll (waitBegin s).deadline (waitBegin s) (endActs ++ [.completeRet]) hb.ok hb.busy
    hb.moves rfl rfl rfl
  obtain ⟨earlier, last, -, -, hret, -⟩ := pollLoop_spec (waitBegin s).deadline (waitBegin s) rfl rfl
  have hl : Running (pollLoop (waitBegin s).deadline (waitBegin s)) :=
    ⟨by simpa using h.ok, by simpa using h.busy, by simpa using h.moves⟩
  have hend := hl.end_completeRet (by simp) (by rw [pollLoop_ctl]; exact hctl) hret
  have hret' : (waitBody s).ret = _ := (runActs_samePort endActs _ endActs_straight).ret.trans hret
  simp only [runAct, hret']
  exact hreassert.trans (Leads.trans ⟨k, hpoll⟩ hend)

/-- WRITE_WORD's sequence (R92). -/
theorem Running.writeWord {s : State} (h : Running s) (a v : Word16) (hp : s.phase = .idle) :
    Leads { s with stepPos := opActs s.cfg.aw (.writeWord a v) } (writeWordBody a v s) := by
  obtain ⟨hctl, -, hidle, -⟩ := runActs_frame (writeBits s.cfg.aw a v) s h.ok
  have e : opActs s.cfg.aw (.writeWord a v) =
      frameActs (writeBits s.cfg.aw a v) ++ ([.reassert, .poll] ++ endActs ++ [.completeRet]) := by
    simp [opActs, writeActs_eq, writeBits]
  have hframe := h.straight (frameActs (writeBits s.cfg.aw a v)) ([.reassert, .poll] ++ endActs ++ [.completeRet])
    (frameActs_straight _) (afterAll_frame _ (posOf s) hp)
  have hsp := runActs_samePort _ s (frameActs_straight (writeBits s.cfg.aw a v))
  have hwait := (h.samePort hsp).wait_completeRet hidle hctl
  rw [e, writeWordBody, writeActs_eq]
  exact hframe.trans hwait

/-- The framing check is blind to the running position. -/
theorem framingRead_stepPos' (s : State) (l : List Act) :
    framingRead { s with stepPos := l } = { framingRead s with stepPos := l } := by
  have e := framingRead_stale s.status s.data s.acc l s.ret s
  change framingRead { s with stepPos := l } = _ at e
  rw [e]
  simp [stale]

/-- READ_WORD after the framing check's read: the word's bits or END alone (R90, R91). -/
def readWordRest (s : State) : State :=
  if s.ret = some .ok then runAct .completeRead (runActs readTailActs s) else runAct .completeRet (runActs endActs s)

/-- READ_WORD is its frame's head, the framing check and what follows. -/
theorem readWordBody_eq_rest (a : Word16) (s : State) :
    readWordBody a s = readWordRest (framingRead (runActs (readHeadActs s.cfg.aw a) s)) := by
  unfold readWordBody sendRead readWordRest
  dsimp only
  generalize framingRead (runActs (readHeadActs s.cfg.aw a) s) = v
  by_cases hv : v.ret = some .ok
  · have hret := (runActs_samePort readTailActs v readTail_straight).ret
    simp [hv, hret]
  · have hret := (runActs_samePort endActs v endActs_straight).ret
    simp [hv, hret]

/-- The framing check as an action, and the sequence it leaves (R91). -/
theorem Running.check_completeRead {s : State} (h : Running s) {c : Word32} (hp : s.phase = .commandActive)
    (hc : s.ctl = some c) :
    Leads { s with stepPos := .check :: (readTailActs ++ [.completeRead]) } (readWordRest (framingRead s)) := by
  have hf : Running (framingRead s) := ⟨by simpa using h.ok, by simpa using h.busy, by simpa using h.moves⟩
  have hfp : (framingRead s).phase = .commandActive := by simpa using hp
  have hfc : (framingRead s).ctl = some c := by simpa using hc
  have hcheck := h.act .check (readTailActs ++ [.completeRead]) hp rfl
  simp only [runAct, framingRead_stepPos'] at hcheck
  unfold readWordRest
  by_cases hret : (framingRead s).ret = some .ok
  · rw [if_pos hret] at hcheck ⊢
    obtain ⟨rs, -, hget, -, hacc, -⟩ := runActs_get 16 (framingRead s) hf.ok c hfc
    obtain ⟨-, -, hidle, hacc', -⟩ := runActs_end (runActs (getActs 16) (framingRead s)) _ hget
    rw [← runActs_append, ← readTailActs] at hidle
    rw [← runActs_append, ← readTailActs, hacc] at hacc'
    have hq : (posOf (framingRead s)).afterAll readTailActs = some
        { posOf (framingRead s) with phase := .idle, acc := true, low := true } := by
      have hctl : (posOf (framingRead s)).ctl = true := by simp [posOf, hc]
      rw [readTailActs, Pos.afterAll_append, afterAll_get _ hfp hctl]
      exact afterAll_end _ hfp hctl
    have hlast := hf.straight_last readTailActs .completeRead readTail_straight hq hidle (by simp [Act.ready, hacc'])
    refine hcheck.trans ?_
    generalize runActs readTailActs (framingRead s) = v at hlast hacc' ⊢
    simp only [runAct, hacc'] at hlast ⊢
    exact hlast
  · rw [if_neg hret] at hcheck ⊢
    obtain ⟨st, hst⟩ : ∃ st, (framingRead s).ret = some st := ⟨_, framingRead_ret s⟩
    have hret' : (runActs endActs (framingRead s)).ret = some st :=
      (runActs_samePort endActs _ endActs_straight).ret.trans hst
    have hend := hf.end_completeRet hfp hfc hst
    simp only [runAct, hret']
    exact hcheck.trans hend

/-- READ_WORD's sequence (R90). -/
theorem Running.readWord {s : State} (h : Running s) (a : Word16) (hp : s.phase = .idle) :
    Leads { s with stepPos := opActs s.cfg.aw (.readWord a) } (readWordBody a s) := by
  obtain ⟨hctl, -, hca, -⟩ := runActs_head (readBits s.cfg.aw a) s h.ok
  have hq : (posOf s).afterAll (startActs ++ clockActs (readBits s.cfg.aw a)) =
      some { posOf s with phase := .commandActive, ctl := true, low := false } := by
    rw [Pos.afterAll_append, afterAll_start (posOf s) hp]
    exact afterAll_clock _ _ rfl rfl rfl
  have hs := readHead_straight s.cfg.aw a
  have hhead := readHeadActs_eq s.cfg.aw a
  change _ = startActs ++ clockActs (readBits s.cfg.aw a) at hhead
  rw [← hhead] at hctl hca hq
  have e : opActs s.cfg.aw (.readWord a) =
      readHeadActs s.cfg.aw a ++ (.check :: (readTailActs ++ [.completeRead])) := by
    simp [opActs]
  rw [e, readWordBody_eq_rest]
  exact (h.straight _ _ hs hq).trans ((h.samePort (runActs_samePort _ s hs)).check_completeRead hca hctl)

/-- A descriptor that is not accepted is answered at once, whether it is run or begun (R88, R109). -/
theorem hostOp_unaccepted {i : Instr} {s : State} (b b' : State → State)
    (h : ¬ (s.busy = false ∧ earlyStatus s.cfg i = none ∧ s.phase = .idle)) : hostOp i b s = hostOp i b' s := by
  unfold hostOp
  split
  · rfl
  · split
    · rfl
    · split
      · rfl
      · split
        · rfl
        · rename_i hb _ _ he
          have hp : s.phase ≠ .idle := fun hp => h ⟨by simpa using hb, he, hp⟩
          rw [if_neg hp, if_neg hp]

/-- An accepted operation's sequence leads to what its row answers (R50, R79). -/
theorem Running.exec {s : State} {i : Instr} (hi : i.isHostOp = true) (hr : Ready s) (hm : s.moves = [])
    (he : earlyStatus s.cfg i = none) :
    ∃ t, exec i s = .next t ∧ Leads { accept s with stepPos := opActs s.cfg.aw i } t := by
  have h : Running (accept s) := ⟨hr.1, rfl, hm⟩
  have hp : (accept s).phase = .idle := hr.2.2
  have hw := wf_of_accepted s.cfg.aw hi he
  cases i with
  | readWord a => exact ⟨_, hostOp_accepted _ hr hw he, h.readWord a hp⟩
  | writeWord a v => exact ⟨_, hostOp_accepted _ hr hw he, h.writeWord a v hp⟩
  | writeEnable =>
    refine ⟨_, hostOp_accepted _ hr hw he, ?_⟩
    rw [writeEnableBody_eq, opActs, ewenActs_eq]
    exact h.frame_complete _ hp
  | writeDisable =>
    refine ⟨_, hostOp_accepted _ hr hw he, ?_⟩
    rw [writeDisableBody_eq, opActs, ewdsActs_eq]
    exact h.frame_complete _ hp
  | reserved op => cases he
  | _ => cases hi

/-- Settles O54: a descriptor that is not accepted is answered in its first step; an accepted one's sequence leads to
what its row answers. -/
theorem actionsOfAnOperationAddUpToExec : Obligations.ActionsOfAnOperationAddUpToExec := by
  intro s d hok
  have hi := decodeDescriptor_isHostOp d
  have hissue : step { s with moves := [.issue d] } = beginOp (decodeDescriptor d) { s with moves := [] } :=
    step_cons (s := { s with moves := [.issue d] }) hok rfl
  rw [beginOp_eq_hostOp hi] at hissue
  by_cases hacc : s.busy = false ∧ earlyStatus s.cfg (decodeDescriptor d) = none ∧ s.phase = .idle
  · obtain ⟨hb, he, hp⟩ := hacc
    have hr : Ready { s with moves := [] } := ⟨hok, hb, hp⟩
    obtain ⟨t, hexec, k, hk⟩ := Running.exec hi hr rfl he
    rw [hostOp_accepted _ hr (wf_of_accepted _ hi he) he] at hissue
    refine ⟨k + 1, Nat.le_add_left 1 k, ?_⟩
    rw [hexec, run_succ _ _ _ hissue]
    exact hk 0
  · obtain ⟨body, hexec⟩ := exec_eq_hostOp hi
    refine ⟨1, Nat.le_refl 1, ?_⟩
    rw [run_one, hissue, hexec]
    exact hostOp_unaccepted _ _ hacc

end Sys2Proof.Machine

/-! SUPPORT. The state statements: the reference part's write-enable latch (R35, R129). -/

namespace Sys2Proof.Machine

/-! ### The latch at a frame's end -/

/-- A frame's end moves the latch as its bits say (R35, R129). -/
theorem partFrameEnd_we (s : State) : (partFrameEnd s).part.we = Part.latchAfter s.cfg.aw s.part := by
  unfold partFrameEnd
  dsimp only
  split <;> rfl

/-- With no frame begun a frame's end leaves the latch alone. -/
theorem latchAfter_waiting (aw : Nat) (p : Part) (h : p.cmd = .waiting) : Part.latchAfter aw p = p.we := by
  simp [Part.latchAfter, h]

/-- A clock edge leaves the latch alone (R129). -/
theorem clock_we (b : Bool) (p : Part) : (Part.clock b p).we = p.we := by
  unfold Part.clock
  split
  · split <;> rfl
  · rfl
  · rfl

/-- A frame that is neither EWEN nor EWDS leaves the latch alone, taken in or lost (R35, R129). -/
theorem latchAfter_taken {aw n : Nat} {bits : List Bool} (p : Part) (h1 : partCommand aw bits ≠ .ewen)
    (h2 : partCommand aw bits ≠ .ewds) : Part.latchAfter aw (Part.ticks n (Part.taken bits p)) = p.we := by
  unfold Part.latchAfter
  rw [ticks_cmd, ticks_we, Part.taken]
  cases p.programming.isSome with
  | true => rfl
  | false =>
    dsimp only
    split
    · rename_i bits' hbits
      cases hbits
      split
      · exact absurd ‹_› h1
      · exact absurd ‹_› h2
      · rfl
    · rfl

/-- END leaves the latch as the frame's end moves it (R85, R129). -/
theorem runActs_end_we (s : State) (h : s.cfg.ok = true) (ha : s.attached = .reference) {c : Word32}
    (hc : s.ctl = some c) (hl : Part.latchAfter s.cfg.aw s.part = s.part.we) :
    (runActs endActs s).part.we = s.part.we := by
  obtain ⟨hpart, -⟩ := runActs_end_part s h ha c hc
  rw [hpart]
  change (Part.tick _).we = _
  rw [tick_we]
  split
  · rw [partFrameEnd_we, hl]
  · rfl

/-! ### The WRITE frame and its wait -/

/-- A frame that only writes and is neither EWEN nor EWDS leaves the latch alone, and a waiting part waiting (R129). -/
theorem runActs_frame_we (bits : List Bool) (s : State) (h : s.cfg.ok = true) (ha : s.attached = .reference)
    (hw : s.part.cmd = .waiting) (h1 : partCommand s.cfg.aw bits ≠ .ewen) (h2 : partCommand s.cfg.aw bits ≠ .ewds) :
    (runActs (frameActs bits) s).part.we = s.part.we ∧ (runActs (frameActs bits) s).part.cmd = .waiting := by
  obtain ⟨u, hcfg, hu, -, hpart, -⟩ := runActs_frame_part bits s h ha hw
  rw [hpart]
  refine ⟨?_, rfl⟩
  change (Part.tick _).we = _
  rw [tick_we, partFrameEnd_we, hcfg, hu, latchAfter_taken _ h1 h2, tick_we]

/-- While the block polls, the part takes steps of its own and nothing else (R54, R115). -/
theorem pollLoop_ticks (n : Nat) (s : State) (ha : s.attached = .reference) :
    ∃ k, (pollLoop n s).part = Part.ticks k s.part := by
  induction n generalizing s with
  | zero => exact ⟨0, by simp [pollLoop, Part.ticks]⟩
  | succ n ih =>
    unfold pollLoop
    dsimp only
    split
    · exact ⟨0, by simp [Part.ticks]⟩
    · obtain ⟨k, hk⟩ := ih (runAct .yield (pollStep s)) (by simpa [runAct] using ha)
      have hyield : (runAct .yield (pollStep s)).part = Part.tick s.part := by
        simp only [runAct, yieldPoll_eq]
        rw [partStep_part _ (by simpa using ha), record_part, pollStep_part, afterRead_part]
      exact ⟨k + 1, by rw [hk, hyield]; rfl⟩

/-- WAIT clocks nothing, so it leaves the latch of a waiting part alone (R96). -/
theorem waitBody_we (s : State) (h : s.cfg.ok = true) (ha : s.attached = .reference) (hctl : s.ctl = some s.creg)
    (hw : s.part.cmd = .waiting) : (waitBody s).part.we = s.part.we := by
  obtain ⟨hpart, -, -⟩ := waitBegin_part s h ha hctl
  obtain ⟨hc, -⟩ := waitBegin_spec s s.creg hctl
  obtain ⟨k, hk⟩ := pollLoop_ticks (waitBegin s).deadline (waitBegin s) (by simpa using ha)
  rw [hpart] at hk
  unfold waitBody
  dsimp only
  rw [runActs_end_we _ (by simpa using h) (by simpa using ha) (by rw [pollLoop_ctl]; exact hc)
    (latchAfter_waiting _ _ (by rw [hk, ticks_cmd]; exact hw)), hk, ticks_we]

/-! ### The READ frame -/

/-- An action that keeps CS as it is, or raises it, and makes no branch and no completion. -/
def Act.keepsSelected : Act → Bool
  | .drive _ _ cs _ => decide (cs ≠ some false)
  | .hold _ _ _ => true
  | .readMode => true
  | .sample => true
  | _ => false

/-- The block holds a reference part selected: the shadow value has CS high (R129). -/
structure Selects (s : State) : Prop where
  ok : s.cfg.ok = true
  attached : s.attached = .reference
  cs : ∃ c, s.ctl = some c ∧ level s.cfg c .cs = true

section
variable {P : Part → Prop} (hclock : ∀ b p, P p → P (Part.clock b p)) (htick : ∀ p, P p → P (Part.tick p))
include hclock

/-- A write with CS high keeps what every clock edge keeps (R131). -/
theorem drive_selected {s : State} (hs : Selects s) (hp : P s.part) (sk cs di : Option Bool) (hcs : cs ≠ some false) :
    Selects (drive sk cs di s) ∧ P (drive sk cs di s).part := by
  obtain ⟨hok, ha, c, hc, hl⟩ := hs
  have hl' : level s.cfg (driveLines s.cfg c sk cs di) .cs = true := by
    rw [level_driveLines_cs hok]
    cases cs with
    | none => exact hl
    | some b => simpa using hcs
  obtain ⟨hpart, -, -⟩ := drive_part_selected sk cs di s c hc ha hl'
  obtain ⟨hcreg, hctl, -⟩ := drive_spec sk cs di s c hc
  refine ⟨⟨by simpa using hok, by simpa using ha, _, hctl, by rw [drive_cfg, hcreg]; exact hl'⟩, ?_⟩
  rw [hpart]
  split
  · exact hclock _ _ hp
  · exact hp

include htick

/-- What every clock edge and every step of the part's own keep, a selected part keeps through such actions (R115,
R131). -/
theorem runActs_selected (as : List Act) {s : State} (has : ∀ a ∈ as, a.keepsSelected = true) (hs : Selects s)
    (hp : P s.part) : Selects (runActs as s) ∧ P (runActs as s).part := by
  induction as generalizing s with
  | nil => exact ⟨hs, hp⟩
  | cons a as ih =>
    have hact : Selects (runAct a s) ∧ P (runAct a s).part := by
      have ha := has a (by simp)
      cases a with
      | drive p sk cs di => exact drive_selected hclock hs hp sk cs di (by simpa [Act.keepsSelected] using ha)
      | readMode =>
        obtain ⟨hs', hp'⟩ := drive_selected hclock hs hp none none (some true) (by simp)
        exact ⟨⟨hs'.ok, hs'.attached, hs'.cs⟩, hp'⟩
      | hold p k next =>
        refine ⟨⟨by simpa [runAct] using hs.ok, by simpa [runAct] using hs.attached, by simpa [runAct] using hs.cs⟩, ?_⟩
        simp only [runAct, delay_eq]
        rw [partStep_part _ (by simpa using hs.attached)]
        exact htick _ hp
      | sample =>
        refine ⟨⟨by simpa [runAct] using hs.ok, by simpa [runAct] using hs.attached, by simpa [runAct] using hs.cs⟩, ?_⟩
        simpa [runAct] using hp
      | _ => cases ha
    exact ih (fun b hb => has b (by simp [hb])) hact.1 hact.2

end

/-- GET_BITS keeps CS as it is (R84). -/
theorem getActs_keepsSelected (n : Nat) : ∀ a ∈ getActs n, a.keepsSelected = true :=
  getActs_forall (P := fun a => a.keepsSelected = true) rfl (by simp [sampleActs, Act.keepsSelected]) n

/-- A part within a READ of `a`, or that lost it, whose latch is `w` (R132; log entry 11). -/
def Part.InRead (aw : Nat) (a : Word16) (w : Bool) (p : Part) : Prop :=
  p.we = w ∧ (p.cmd = .lost ∨ ∃ more, p.cmd = .shifting (readBits aw a ++ more))

theorem inRead_clock {aw : Nat} {a : Word16} {w : Bool} (b : Bool) (p : Part) (h : Part.InRead aw a w p) :
    Part.InRead aw a w (Part.clock b p) := by
  obtain ⟨hw, hc | ⟨more, hc⟩⟩ := h
  · exact ⟨(clock_we b p).trans hw, .inl (by simp [Part.clock, hc])⟩
  · exact ⟨(clock_we b p).trans hw, .inr ⟨more ++ [b], by simp [Part.clock, hc]⟩⟩

theorem inRead_tick {aw : Nat} {a : Word16} {w : Bool} (p : Part) (h : Part.InRead aw a w p) :
    Part.InRead aw a w (Part.tick p) := by
  unfold Part.InRead
  rw [tick_we, tick_cmd]
  exact h

/-- A READ moves no latch (R35, R132). -/
theorem inRead_latch {aw : Nat} {a : Word16} {w : Bool} {p : Part} (haddr : a.toNat < 2 ^ aw)
    (h : Part.InRead aw a w p) : Part.latchAfter aw p = p.we := by
  obtain ⟨-, hc | ⟨more, hc⟩⟩ := h
  · simp [Part.latchAfter, hc]
  · simp [Part.latchAfter, hc, partCommand_read aw a more haddr]

/-- A part that waits is within the READ, or lost it, once the READ's head is out (R131; log entry 11). -/
theorem inRead_head (a : Word16) (s : State) (h : s.cfg.ok = true) (ha : s.attached = .reference)
    (hw : s.part.cmd = .waiting) : Part.InRead s.cfg.aw a s.part.we (runActs (readHeadActs s.cfg.aw a) s).part := by
  have hpart := (runActs_head_part (readBits s.cfg.aw a) s h ha hw).1
  rw [readHeadActs_eq, ← readBits, hpart, Part.InRead, ticks_we, ticks_cmd]
  refine ⟨tick_we s.part, ?_⟩
  unfold Part.taken
  dsimp only
  split
  · exact .inl rfl
  · exact .inr ⟨[], by simp⟩

/-- The READ frame leaves the latch of a waiting part alone (R35, R132). -/
theorem sendRead_we (a : Word16) (s : State) (h : s.cfg.ok = true) (ha : s.attached = .reference)
    (hw : s.part.cmd = .waiting) (haddr : a.toNat < 2 ^ s.cfg.aw) : (sendRead a s).part.we = s.part.we := by
  have hin := inRead_head a s h ha hw
  have hsp := runActs_samePort _ s (readHead_straight s.cfg.aw a)
  obtain ⟨hctl, -⟩ := runActs_head (readBits s.cfg.aw a) s h
  obtain ⟨-, hcs, -, -⟩ := clockedValue_lines h (readValue s) (readBits s.cfg.aw a)
  rw [readBits, ← readHeadActs_eq, ← readBits] at hctl
  have hcfg : (framingRead (runActs (readHeadActs s.cfg.aw a) s)).cfg = s.cfg := by simp [hsp.cfg]
  have hsel : Selects (framingRead (runActs (readHeadActs s.cfg.aw a) s)) :=
    ⟨by rw [hcfg]; exact h, by simp [hsp.attached, ha], _, by simpa using hctl, by rw [hcfg]; exact hcs⟩
  have hin' : Part.InRead s.cfg.aw a s.part.we (framingRead (runActs (readHeadActs s.cfg.aw a) s)).part := by
    simpa using hin
  have hend : ∀ u : State, Selects u → u.cfg = s.cfg → Part.InRead s.cfg.aw a s.part.we u.part →
      (runActs endActs u).part.we = s.part.we := by
    intro u ⟨hok, hat, c, hc, _⟩ hu hr
    rw [runActs_end_we u hok hat hc (by rw [hu]; exact inRead_latch haddr hr)]
    exact hr.1
  unfold sendRead
  dsimp only
  generalize framingRead (runActs (readHeadActs s.cfg.aw a) s) = v at *
  split
  · obtain ⟨hsel', hin''⟩ := runActs_selected inRead_clock inRead_tick (getActs 16) (getActs_keepsSelected 16) hsel hin'
    rw [readTailActs, runActs_append]
    exact hend _ hsel' ((runActs_samePort _ v (getActs_straight 16)).cfg.trans hcfg) hin''
  · exact hend v hsel hcfg hin'

/-- The WRITE frame leaves the latch alone, and a waiting part waiting (R66, R129). -/
theorem writeFrame_we (a v : Word16) (s : State) (h : s.cfg.ok = true) (ha : s.attached = .reference)
    (hw : s.part.cmd = .waiting) (haddr : a.toNat < 2 ^ s.cfg.aw) :
    (runActs (frameActs (writeBits s.cfg.aw a v)) s).part.we = s.part.we ∧
    (runActs (frameActs (writeBits s.cfg.aw a v)) s).part.cmd = .waiting := by
  have hcmd := partCommand_write s.cfg.aw a v haddr
  exact runActs_frame_we _ s h ha hw (by simp [hcmd]) (by simp [hcmd])

/-- An address the range check passes is a word of the array (R44, R89). -/
theorem addr_lt_of_inRange {cfg : Config} {a : Word16} (h : outOfRange cfg a = false) : a.toNat < 2 ^ cfg.aw :=
  Nat.lt_of_not_le (of_decide_eq_false h)

/-- READ_WORD leaves the latch of a waiting part alone (R90). -/
theorem readWordBody_we (a : Word16) (s : State) (h : s.cfg.ok = true) (ha : s.attached = .reference)
    (hw : s.part.cmd = .waiting) (haddr : a.toNat < 2 ^ s.cfg.aw) : (readWordBody a s).part.we = s.part.we := by
  have hsend := sendRead_we a s h ha hw haddr
  obtain ⟨x, -, -, hbody⟩ | ⟨-, hbody⟩ := readWordBody_eq a s h <;> rw [hbody] <;> exact hsend

/-- WRITE_WORD leaves the latch of a waiting part alone (R92). -/
theorem writeWordBody_we (a v : Word16) (s : State) (h : s.cfg.ok = true) (ha : s.attached = .reference)
    (hw : s.part.cmd = .waiting) (haddr : a.toNat < 2 ^ s.cfg.aw) : (writeWordBody a v s).part.we = s.part.we := by
  obtain ⟨st, -, -, hbody⟩ := writeWordBody_eq a v s h
  rw [writeActs_eq] at hbody
  obtain ⟨hwe, hcmd⟩ := writeFrame_we a v s h ha hw haddr
  obtain ⟨hctl, hcreg, -⟩ := runActs_frame (writeBits s.cfg.aw a v) s h
  have hsp := runActs_samePort _ s (frameActs_straight (writeBits s.cfg.aw a v))
  rw [hbody]
  change (waitBody (runActs (frameActs (writeBits s.cfg.aw a v)) s)).part.we = _
  rw [waitBody_we _ (by rw [hsp.cfg]; exact h) (by rw [hsp.attached]; exact ha) (by rw [hctl, hcreg]) hcmd, hwe]

/-- Settles O44: under an oracle no row touches the part; with a reference part the READ and WRITE frames end without a
latch command, taken in or lost. -/
theorem onlyEnableAndDisableMoveTheLatch : Obligations.OnlyEnableAndDisableMoveTheLatch := by
  intro s t i hw hi h1 h2 h3 h4 h
  cases ha : s.attached with
  | oracle => rw [exec_part_oracle h ha]
  | reference =>
    cases i with
    | readWord a =>
      obtain ⟨hok, -, -, ⟨st, -, rfl⟩ | ⟨he, -, rfl⟩⟩ := hostOp_next h
      · rfl
      · exact readWordBody_we a (accept s) hok ha hw (addr_lt_of_inRange (by simpa [earlyStatus] using he))
    | writeWord a v =>
      obtain ⟨hok, -, -, ⟨st, -, rfl⟩ | ⟨he, -, rfl⟩⟩ := hostOp_next h
      · rfl
      · exact writeWordBody_we a v (accept s) hok ha hw (addr_lt_of_inRange (by simpa [earlyStatus] using he))
    | reserved op =>
      obtain ⟨-, -, -, ⟨st, -, rfl⟩ | ⟨he, -, -⟩⟩ := hostOp_next (body := id) h
      · rfl
      · cases he
    | readFrame a =>
      obtain ⟨hok, hwf, -, -, rfl⟩ := engineOp_next h
      exact sendRead_we a s hok ha hw (by simpa [Instr.wf] using hwf)
    | writeFrame a v =>
      obtain ⟨hok, hwf, -, -, rfl⟩ := engineOp_next h
      rw [writeActs_eq]
      exact (writeFrame_we a v s hok ha hw (by simpa [Instr.wf] using hwf)).1
    | writeEnable => exact absurd rfl h1
    | writeDisable => exact absurd rfl h2
    | ewenFrame => exact absurd rfl h3
    | ewdsFrame => exact absurd rfl h4
    | _ => simp [Instr.isHostOp, encodeFrame] at hi

/-! ### Enable and disable with the reference part (R134, R135) -/

/-- A frame that is no WRITE, on a part at rest: the latch is as its bits say, and nothing else changes (R129). -/
theorem runActs_frame_rest (bits : List Bool) (s : State) (h : s.cfg.ok = true) (hr : PartAtRest s)
    (hn : Part.pendingWrite s.cfg.aw { s.part with cmd := .shifting bits } = none) :
    (runActs (frameActs bits) s).part =
      { s.part with we := Part.latchAfter s.cfg.aw { s.part with cmd := .shifting bits } } := by
  obtain ⟨ha, -, hw, hp⟩ := hr
  obtain ⟨u, hcfg, hu, -, hpart, -⟩ := runActs_frame_part bits s h ha hw
  have htaken : Part.taken bits s.part = { s.part with cmd := .shifting bits } := by simp [Part.taken, hp]
  rw [tick_idle _ hp, ticks_idle _ (Part.taken bits s.part) hp, htaken] at hu
  obtain ⟨hend, -⟩ := partFrameEnd_quiet u (by rw [hcfg, hu]; exact hn)
  rw [hpart, hend, hcfg, hu, tick_idle _ (by exact hp), ← hw]

/-- An operation of one such frame completes with OK and leaves the part at rest (R93, R94). -/
theorem frameBody_rest (bits : List Bool) (s : State) (h : s.cfg.ok = true) (hr : PartAtRest s)
    (hn : Part.pendingWrite s.cfg.aw { s.part with cmd := .shifting bits } = none) :
    (complete .ok 0 (runActs (frameActs bits) (accept s))).part =
      { s.part with we := Part.latchAfter s.cfg.aw { s.part with cmd := .shifting bits } } ∧
    PartAtRest (complete .ok 0 (runActs (frameActs bits) (accept s))) := by
  obtain ⟨hdone, -⟩ := frameBody_events bits s h
  have hpart := runActs_frame_rest bits (accept s) h hr hn
  obtain ⟨ha, -, hw, hp⟩ := hr
  refine ⟨hpart, hdone.attached.trans ha, ?_, ?_, ?_⟩
  · rw [hdone.cfg, hdone.creg, endValue, level_driveLines_cs h]
    rfl
  · rw [complete_part, hpart]
    exact hw
  · rw [complete_part, hpart]
    exact hp

/-- Settles O57: the bits of the two frames are the part's two latch commands. -/
theorem referencePartTakesEnableAndDisable : Obligations.ReferencePartTakesEnableAndDisable := by
  intro s hready hr
  have hok := hready.1
  have hen := partCommand_ewen s.cfg.aw (Config.admitted hok).aw_ge
  have hds := partCommand_ewds s.cfg.aw
  obtain ⟨hpe, hre⟩ := frameBody_rest (ewenBits s.cfg.aw) s hok hr (by simp [Part.pendingWrite, hen])
  obtain ⟨hpd, hrd⟩ := frameBody_rest (ewdsBits s.cfg.aw) s hok hr (by simp [Part.pendingWrite, hds])
  simp only [Part.latchAfter, hen] at hpe
  simp only [Part.latchAfter, hds] at hpd
  refine ⟨⟨_, hostOp_accepted writeEnableBody hready rfl rfl, ?_⟩,
    ⟨_, hostOp_accepted writeDisableBody hready rfl rfl, ?_⟩⟩
  · rw [writeEnableBody_eq]
    exact ⟨rfl, hpe, hre⟩
  · rw [writeDisableBody_eq]
    exact ⟨rfl, hpd, hrd⟩

end Sys2Proof.Machine

/-! SUPPORT. The memory statements: what a programmed word reads as, that the canonical form is unique, and that every step
keeps it (R44, R46, R129). -/

namespace Sys2Proof.Machine

/-! ### Words of the array (R46) -/

/-- Each byte after programming a word: the word's two bytes, low one first, and the rest as before (R46). -/
theorem Memory.read_writeWord {m : Memory} (h : Memory.wf m = true) (k b : Nat) (v : Word16) :
    Memory.read (Memory.writeWord m k v) b =
      if b = 2 * k + 1 then (v >>> 8).setWidth 8 else if b = 2 * k then v.setWidth 8 else Memory.read m b := by
  rw [Memory.writeWord, Memory.read_write (Memory.wf_write h _ _), Memory.read_write h]

/-- A programmed word reads as its value (R46). -/
theorem Memory.readWord_writeWord_same {m : Memory} (h : Memory.wf m = true) (k : Nat) (v : Word16) :
    Memory.readWord (Memory.writeWord m k v) k = v := by
  have hne : 2 * k ≠ 2 * k + 1 := by omega
  rw [Memory.readWord, Memory.read_writeWord h, Memory.read_writeWord h, if_pos rfl, if_neg hne, if_pos rfl]
  exact word_of_bytes v

/-- Every other word reads as before (R46). -/
theorem Memory.readWord_writeWord_ne (m : Memory) {j k : Nat} (v : Word16) (hjk : j ≠ k) :
    Memory.readWord (Memory.writeWord m k v) j = Memory.readWord m j := by
  have hlow : ¬ inWord k (2 * j) := by unfold inWord; omega
  have hhigh : ¬ inWord k (2 * j + 1) := by unfold inWord; omega
  rw [Memory.readWord, Memory.read_writeWord_ne _ _ _ _ hlow, Memory.read_writeWord_ne _ _ _ _ hhigh, Memory.readWord]

/-- Settles O45, word by word and then byte by byte. -/
theorem wordReadsAsWritten : Obligations.WordReadsAsWritten := by
  intro m j k v h
  refine ⟨?_, ?_, ?_⟩
  · split
    · rename_i hjk
      rw [hjk]
      exact Memory.readWord_writeWord_same h k v
    · rename_i hjk
      exact Memory.readWord_writeWord_ne m v hjk
  · rw [Memory.read_writeWord h, if_neg (by omega), if_pos rfl]
  · rw [Memory.read_writeWord h, if_pos rfl]

/-! ### The canonical form is unique -/

theorem Memory.wfFrom_cons {lo k : Nat} {v : Byte} {m : Memory} :
    Memory.wfFrom lo ((k, v) :: m) = true ↔ lo ≤ k ∧ v ≠ Memory.unlisted ∧ Memory.wfFrom (k + 1) m = true := by
  simp [Memory.wfFrom, and_assoc]

/-- The first entry's byte is read at its offset. -/
theorem Memory.read_cons_self (k : Nat) (v : Byte) (m : Memory) : Memory.read ((k, v) :: m) k = v := if_pos rfl

/-- At any other offset the entries after the first decide. -/
theorem Memory.read_cons_ne {k a : Nat} (v : Byte) (m : Memory) (h : k ≠ a) :
    Memory.read ((k, v) :: m) a = Memory.read m a := if_neg h

/-- A byte that does not read as an unlisted one lies where the list starts or later. -/
theorem Memory.le_of_read_ne {lo a : Nat} {m : Memory} (h : Memory.wfFrom lo m = true)
    (ha : Memory.read m a ≠ Memory.unlisted) : lo ≤ a :=
  Nat.le_of_not_lt fun hlt => ha (Memory.read_below h hlt)

/-- The first offset of a list is at most that of any list that reads the same. -/
theorem Memory.head_le_of_read_eq {lo k l : Nat} {v w : Byte} {m n : Memory}
    (hm : Memory.wfFrom lo ((k, v) :: m) = true) (hn : Memory.wfFrom lo ((l, w) :: n) = true)
    (h : ∀ a, Memory.read ((k, v) :: m) a = Memory.read ((l, w) :: n) a) : k ≤ l := by
  obtain ⟨-, hv, hm'⟩ := Memory.wfFrom_cons.1 hm
  obtain ⟨-, hw, -⟩ := Memory.wfFrom_cons.1 hn
  have hread := (h l).trans (Memory.read_cons_self l w n)
  exact Memory.le_of_read_ne (Memory.wfFrom_cons.2 ⟨Nat.le_refl k, hv, hm'⟩) (by rw [hread]; exact hw)

/-- A list with an entry does not read as the empty one. -/
theorem Memory.read_ne_nil {lo k : Nat} {v : Byte} {m : Memory} (hm : Memory.wfFrom lo ((k, v) :: m) = true) :
    Memory.read ((k, v) :: m) k ≠ Memory.read [] k := by
  rw [Memory.read_cons_self]
  exact (Memory.wfFrom_cons.1 hm).2.1

/-- Canonical lists that read the same are equal: their first entries are, and the rest read the same. -/
theorem Memory.eq_of_read_eq {lo : Nat} {m n : Memory} (hm : Memory.wfFrom lo m = true)
    (hn : Memory.wfFrom lo n = true) (h : ∀ a, Memory.read m a = Memory.read n a) : m = n := by
  induction m generalizing lo n with
  | nil =>
    cases n with
    | nil => rfl
    | cons d n => exact absurd (h d.1).symm (Memory.read_ne_nil hn)
  | cons c m ih =>
    cases n with
    | nil => exact absurd (h c.1) (Memory.read_ne_nil hm)
    | cons d n =>
      obtain ⟨k, v⟩ := c
      obtain ⟨l, w⟩ := d
      obtain rfl : k = l :=
        Nat.le_antisymm (Memory.head_le_of_read_eq hm hn h) (Memory.head_le_of_read_eq hn hm fun a => (h a).symm)
      obtain rfl : v = w := by simpa only [Memory.read_cons_self] using h k
      obtain ⟨-, -, hm'⟩ := Memory.wfFrom_cons.1 hm
      obtain ⟨-, -, hn'⟩ := Memory.wfFrom_cons.1 hn
      have htail : ∀ a, Memory.read m a = Memory.read n a := by
        intro a
        by_cases hak : k = a
        · rw [Memory.read_below hm' (by omega), Memory.read_below hn' (by omega)]
        · rw [← Memory.read_cons_ne v m hak, ← Memory.read_cons_ne v n hak]
          exact h a
      rw [ih hm' hn' htail]

/-- Settles O46, by `Memory.eq_of_read_eq` from offset 0. -/
theorem canonicalMemoryIsUnique : Obligations.CanonicalMemoryIsUnique :=
  fun _ _ hm hn h => Memory.eq_of_read_eq hm hn h

/-! ### The memory invariant (R44, R46, R129) -/

/-- The invariant rests on the configuration, the word array and what is being programmed. -/
theorem MemInv.congr {s t : State} (h : MemInv s) (hcfg : t.cfg = s.cfg) (hmem : t.part.mem = s.part.mem)
    (hprog : t.part.programming = s.part.programming) : MemInv t := by
  unfold MemInv
  rw [hcfg, hmem, hprog]
  exact h

/-- An action that leaves the part alone keeps the invariant. -/
theorem MemInv.of_part {s t : State} (h : MemInv s) (hcfg : t.cfg = s.cfg) (hpart : t.part = s.part) : MemInv t :=
  h.congr hcfg (by rw [hpart]) (by rw [hpart])

/-- A clock edge stores nothing (R131). -/
theorem clock_mem (b : Bool) (p : Part) : (Part.clock b p).mem = p.mem := by
  unfold Part.clock
  split
  · split <;> rfl
  · rfl
  · rfl

/-- A clock edge leaves what is being programmed alone (R131). -/
theorem clock_programming (b : Bool) (p : Part) : (Part.clock b p).programming = p.programming := by
  unfold Part.clock
  split
  · split <;> rfl
  · rfl
  · rfl

/-- The address of a complete WRITE has AW bits (R66, R133). -/
theorem partCommand_write_lt {aw a : Nat} {v : Word16} {bits : List Bool} (h : partCommand aw bits = .write a v) :
    a < 2 ^ aw := by
  unfold partCommand at h
  split at h
  case h_2 rest =>
    split at h
    · cases h
      exact Nat.lt_of_lt_of_le (bitsToNat_bound _) (Nat.pow_le_pow_right (by omega) (List.length_take_le aw rest))
    · cases h
  case h_1 => split at h <;> cases h
  case h_3 =>
    split at h
    · split at h <;> cases h
    · cases h
  case h_4 => cases h
  case h_5 => cases h

/-- A write that is to begin is that of a complete WRITE frame (R129). -/
theorem pendingWrite_eq_some {aw a : Nat} {v : Word16} {p : Part} (h : Part.pendingWrite aw p = some (a, v)) :
    ∃ bits, p.cmd = .shifting bits ∧ partCommand aw bits = .write a v := by
  unfold Part.pendingWrite at h
  split at h
  · rename_i bits hcmd
    split at h
    · rename_i hc
      rw [Option.ite_none_right_eq_some] at h
      obtain ⟨-, h⟩ := h
      cases h
      exact ⟨bits, hcmd, hc⟩
    · cases h
  · cases h

/-- The end of a frame leaves the array and starts programming a word of it at most (R44, R129). -/
theorem partFrameEnd_memInv {s : State} (h : MemInv s) : MemInv (partFrameEnd s) := by
  cases hw : Part.pendingWrite s.cfg.aw s.part with
  | none =>
    obtain ⟨hpart, -⟩ := partFrameEnd_quiet s hw
    exact h.congr (by simp) (by rw [hpart]) (by rw [hpart])
  | some x =>
    obtain ⟨a, v⟩ := x
    obtain ⟨hpart, -⟩ := partFrameEnd_write s a v hw
    obtain ⟨bits, -, hcmd⟩ := pendingWrite_eq_some hw
    obtain ⟨hok, hwf, hcap, -⟩ := h
    refine ⟨by simpa using hok, by rw [hpart]; exact hwf, by rw [hpart, partFrameEnd_cfg]; exact hcap, fun g hg => ?_⟩
    rw [hpart] at hg
    cases hg
    rw [partFrameEnd_cfg]
    exact partCommand_write_lt hcmd

/-- A step of the part's own stores at most the word being programmed, inside the capacity (R44, R129). -/
theorem partStep_memInv {s : State} (h : MemInv s) : MemInv (partStep s) := by
  cases ha : s.attached with
  | oracle => rwa [partStep_oracle s ha]
  | reference =>
    rw [partStep_reference s ha]
    unfold Part.tick
    split
    · exact h
    · rename_i g hg
      obtain ⟨hok, hwf, hcap, hprog⟩ := h
      have haddr := hprog g hg
      split
      · refine ⟨hok, Memory.wf_writeWord hwf _ _, fun c hc => ?_, fun _ hn => nomatch hn⟩
        obtain hc | hc := Memory.mem_writeWord hc
        · exact hcap c hc
        · have hcapacity := (Config.admitted hok).capacity
          unfold inWord at hc
          unfold Config.words at haddr
          change c.1 < s.cfg.capacity
          omega
      · refine ⟨hok, hwf, hcap, fun g' hg' => ?_⟩
        cases hg'
        exact haddr

/-- A change of the lines is a clock edge, the end of a frame or nothing to the part (R129, R131). -/
theorem setLines_memInv (v : Word32) {s : State} (h : MemInv s) : MemInv (setLines v s) := by
  cases ha : s.attached with
  | oracle =>
    rw [setLines_oracle v s ha]
    exact h
  | reference =>
    cases hcs : level s.cfg v .cs with
    | true =>
      rw [setLines_selected v s ha hcs]
      refine h.congr rfl ?_ ?_ <;> dsimp only <;> split
      · exact clock_mem _ _
      · rfl
      · exact clock_programming _ _
      · rfl
    | false =>
      obtain ⟨hpart, -⟩ := setLines_deselected v s ha hcs
      have hend : MemInv (if level s.cfg s.creg .cs then partFrameEnd s else s) := by
        split
        · exact partFrameEnd_memInv h
        · exact h
      refine hend.congr ?_ (by rw [hpart]) (by rw [hpart])
      split <;> simp

/-- A write of the block reaches the part through the lines alone (R52). -/
theorem drive_memInv (sk cs di : Option Bool) {s : State} (h : MemInv s) : MemInv (drive sk cs di s) := by
  unfold drive
  split
  · exact h
  · exact setLines_memInv _ h

/-- Every action keeps the memory invariant. -/
theorem runAct_memInv (a : Act) (s : State) (h : MemInv s) : MemInv (runAct a s) := by
  have hread : ∀ t : State, t.cfg = s.cfg → t.part = (afterRead s).part → MemInv t :=
    fun t hcfg hpart => h.of_part hcfg (hpart.trans (afterRead_part s))
  have hstep : ∀ e, MemInv (partStep (record e s)) := fun e => partStep_memInv (s := record e s) h
  cases a with
  | loadCtl => exact hread _ (by simp [runAct]) rfl
  | sample => exact hread _ (by simp [runAct]) rfl
  | check => simp only [runAct]; split <;> exact hread _ (by simp) rfl
  | poll => simp only [runAct]; split <;> exact hread _ (by simp) (pollStep_part s)
  | drive p sk cs di => exact drive_memInv sk cs di h
  | readMode => exact drive_memInv none none (some true) h
  | reassert => exact (drive_memInv none (some true) (some true) h).of_part (takeDeadline_cfg _) (takeDeadline_part _)
  | hold p k next => exact hstep (.delay k.micros)
  | yield => exact hstep .yield
  | complete st => exact h
  | completeRead => simp only [runAct]; split <;> exact h
  | completeRet => simp only [runAct]; split <;> exact h

theorem memInv_rowClosed : RowClosed fun s t => MemInv s → MemInv t where
  refl _ := id
  trans h k := k ∘ h
  accept _ := id
  act := runAct_memInv
  framing s h := h.of_part (framingRead_cfg s) (afterRead_part s)
  poll s h := h.of_part (pollStep_cfg s) (by simp)

/-- Settles O47, by what a step can be: a row, one of its actions, a step of the part's own or another agent's write. -/
theorem stepKeepsMemoryCanonical : Obligations.StepKeepsMemoryCanonical := by
  intro s t hs h
  have hpop : MemInv s.popped := hs
  obtain ⟨-, ⟨d, hd⟩ | ⟨d, hd⟩ | ha | rfl | rfl | ⟨v, rfl⟩⟩ := step_cases h
  · exact memInv_rowClosed.exec hd hpop
  · obtain ⟨-, -, -, ⟨st, -, rfl⟩ | ⟨-, -, rfl⟩⟩ := beginOp_next hd <;> exact hpop
  · obtain ⟨-, rfl⟩ | ⟨a, rest, -, -, rfl⟩ := actStep_next ha
    · exact hpop
    · exact runAct_memInv a { s.popped with stepPos := rest } hpop
  · exact partStep_memInv hpop
  · exact hpop
  · exact setLines_memInv v hpop

end Sys2Proof.Machine

/-! SUPPORT. The memory statements: READ_WORD's reads under an oracle (R53, R90), and the bytes that host operations and
frames leave alone (R46, R129). -/

namespace Sys2Proof.Machine

/-! ### READ_WORD's reads are the script (R53, R90) -/

/-- With an oracle for DO READ_WORD follows the script (R53). -/
theorem readWordBody_follows (a : Word16) (s : State) (h : s.attached = .oracle) :
    Follows s (readWordBody a (accept s)) := by
  have hsend : Follows s (sendRead a (accept s)) := sendRead_follows a (accept s) h
  obtain ⟨-, -, -, -, -, hat, -⟩ := sendRead_frame a (accept s)
  unfold readWordBody
  dsimp only
  split <;> exact hsend.trans (runAct_follows _ _ (hat.trans h))

/-- A script that is long enough is the reads made and then what is left (R53). -/
theorem Follows.answers_eq {s t : State} {evs : List Event} (h : Follows s t) (hadd : Added s t evs)
    (hl : (readsOf evs).length ≤ s.answers.length) : s.answers = readsOf evs ++ t.answers := by
  obtain ⟨es, hes, hans⟩ := h
  obtain rfl := hes.unique hadd
  exact hans hl

/-- An operation on an address inside the array is not answered early (R89). -/
theorem earlyStatus_readWord_none {cfg : Config} {a : Word16} (h : a.toNat < cfg.words) :
    earlyStatus cfg (.readWord a) = none := by
  simp [earlyStatus, outOfRange, h]

/-- Settles O25: the events of READ_WORD name its reads, and under an oracle those are the script's first answers. -/
theorem readWordReturnsTheSampledWord : Obligations.ReadWordReturnsTheSampledWord := by
  intro s addr r dummy samples rest hr haddr ho hans hlen
  refine ⟨_, hostOp_accepted (readWordBody addr) hr rfl (earlyStatus_readWord_none haddr), ?_⟩
  have hfol := readWordBody_follows addr s ho
  obtain ⟨-, -, -, d, m, -, -, -, -, -, hc⟩ := readWordBody_events addr s hr.1
  obtain ⟨hst, hdata, hd, hadd⟩ | ⟨hst, hd, rs, hrs, hdata, hadd⟩ := hc
  · have hs := hfol.answers_eq hadd (by simp [readsOf_head, readsOf, hans])
    simp only [readsOf_head, readsOf, hans, List.cons_append, List.nil_append, List.cons.injEq] at hs
    obtain ⟨-, rfl, hleft⟩ := hs
    exact ⟨fun hz => (Bool.false_ne_true (hz.symm.trans hd)).elim, fun _ => ⟨hst, hdata, hleft.symm⟩⟩
  · have hreads := (counts_samples s.cfg m rs).2.1
    have hs := hfol.answers_eq hadd (by simp [readsOf_head, readsOf, hreads, hans, hrs, hlen])
    simp only [readsOf_head, readsOf, readsOf_append, hreads, hans, List.cons_append, List.append_assoc,
      List.nil_append, List.cons.injEq] at hs
    obtain ⟨-, rfl, hleft⟩ := hs
    obtain ⟨rfl, hrest⟩ := List.append_inj hleft (hlen.trans hrs.symm)
    refine ⟨fun _ => ⟨hst, ?_, hrest.symm⟩, fun hz => (Bool.false_ne_true (hd.symm.trans hz)).elim⟩
    rw [hdata]
    exact readResult_toNat s.cfg samples hrs

/-! ### A byte that nothing programs (R129) -/

/-- The part holds `v` at byte `x`, which belongs to no word being programmed. -/
def Part.Holds (x : Nat) (v : Byte) (p : Part) : Prop := Memory.read p.mem x = v ∧ ¬ inPendingWord p x

section
variable {x : Nat} {v : Byte}

/-- Holding a byte is a matter of the array and of what is being programmed. -/
theorem Part.Holds.congr {p q : Part} (h : Part.Holds x v p) (hmem : q.mem = p.mem)
    (hprog : q.programming = p.programming) : Part.Holds x v q := by
  unfold Part.Holds inPendingWord
  rw [hmem, hprog]
  exact h

theorem holds_tick (p : Part) (h : Part.Holds x v p) : Part.Holds x v (Part.tick p) := by
  obtain ⟨hread, hn⟩ := h
  exact ⟨(tick_read p x hn).trans hread, fun hp => hn (tick_pending p x hp)⟩

theorem holds_ticks (n : Nat) (p : Part) (h : Part.Holds x v p) : Part.Holds x v (Part.ticks n p) := by
  induction n generalizing p with
  | zero => exact h
  | succ n ih => exact ih (Part.tick p) (holds_tick p h)

theorem holds_clock (b : Bool) (p : Part) (h : Part.Holds x v p) : Part.Holds x v (Part.clock b p) :=
  h.congr (clock_mem b p) (clock_programming b p)

/-- The write a frame's end would begin is of no word that the byte belongs to. -/
def Part.Spares (aw x : Nat) (p : Part) : Prop := ∀ a w, Part.pendingWrite aw p = some (a, w) → ¬ inWord a x

/-- A part that shifts in no WRITE, or one of another word, spares the byte (R129). -/
theorem spares_of_cmd {aw : Nat} {p : Part}
    (h : ∀ bits, p.cmd = .shifting bits → ∀ a w, partCommand aw bits = .write a w → ¬ inWord a x) :
    Part.Spares aw x p := by
  intro a w hw
  obtain ⟨bits, hcmd, hc⟩ := pendingWrite_eq_some hw
  exact h bits hcmd a w hc

/-- The end of a frame that spares a byte keeps it (R129). -/
theorem partFrameEnd_holds {s : State} (hs : Part.Spares s.cfg.aw x s.part) (h : Part.Holds x v s.part) :
    Part.Holds x v (partFrameEnd s).part := by
  cases hw : Part.pendingWrite s.cfg.aw s.part with
  | none =>
    obtain ⟨hpart, -⟩ := partFrameEnd_quiet s hw
    rw [hpart]
    exact h
  | some y =>
    obtain ⟨a, w⟩ := y
    obtain ⟨hpart, -⟩ := partFrameEnd_write s a w hw
    rw [hpart]
    refine ⟨h.1, fun ⟨g, hg, hx⟩ => ?_⟩
    cases hg
    exact hs a w hw hx

/-- END of a frame that spares a byte keeps it (R85, R129). -/
theorem runActs_end_holds {s : State} (hok : s.cfg.ok = true) (ha : s.attached = .reference) {c : Word32}
    (hc : s.ctl = some c) (hs : Part.Spares s.cfg.aw x s.part) (h : Part.Holds x v s.part) :
    Part.Holds x v (runActs endActs s).part := by
  obtain ⟨hpart, -⟩ := runActs_end_part s hok ha c hc
  rw [hpart]
  have hend : Part.Holds x v (if level s.cfg s.creg .cs then partFrameEnd s else s).part := by
    split
    · exact partFrameEnd_holds hs h
    · exact h
  exact (holds_tick _ hend).congr rfl rfl

/-! ### Frames and the wait -/

/-- A frame that only writes, taken in or lost, spares the byte if its bits are no WRITE of the byte's word (R129; log
entry 11). -/
theorem spares_taken {aw n : Nat} {bits : List Bool} (p : Part)
    (hb : ∀ a w, partCommand aw bits = .write a w → ¬ inWord a x) :
    Part.Spares aw x (Part.ticks n (Part.taken bits p)) := by
  refine spares_of_cmd fun bits' hcmd => ?_
  rw [ticks_cmd, Part.taken] at hcmd
  dsimp only at hcmd
  split at hcmd
  · cases hcmd
  · cases hcmd
    exact hb

/-- A frame that only writes keeps every byte but those of the word its WRITE names, and a waiting part waiting (R66 to
R68, R129). -/
theorem runActs_frame_holds (bits : List Bool) (s : State) (hok : s.cfg.ok = true) (ha : s.attached = .reference)
    (hw : s.part.cmd = .waiting) (hb : ∀ a w, partCommand s.cfg.aw bits = .write a w → ¬ inWord a x)
    (h : Part.Holds x v s.part) :
    Part.Holds x v (runActs (frameActs bits) s).part ∧ (runActs (frameActs bits) s).part.cmd = .waiting := by
  obtain ⟨u, hcfg, hu, -, hpart, -⟩ := runActs_frame_part bits s hok ha hw
  have hin : Part.Holds x v u.part := by
    rw [hu]
    exact holds_ticks _ _ ((holds_tick _ h).congr rfl rfl)
  have hs : Part.Spares u.cfg.aw x u.part := by
    rw [hcfg, hu]
    exact spares_taken _ hb
  rw [hpart]
  exact ⟨(holds_tick _ (partFrameEnd_holds hs hin)).congr rfl rfl, rfl⟩

/-- WAIT on a waiting part keeps every byte but those of the word being programmed (R96, R129). -/
theorem waitBody_holds (s : State) (hok : s.cfg.ok = true) (ha : s.attached = .reference) (hctl : s.ctl = some s.creg)
    (hw : s.part.cmd = .waiting) (h : Part.Holds x v s.part) : Part.Holds x v (waitBody s).part := by
  obtain ⟨hpart, -, -⟩ := waitBegin_part s hok ha hctl
  obtain ⟨hc, -⟩ := waitBegin_spec s s.creg hctl
  obtain ⟨k, hk⟩ := pollLoop_ticks (waitBegin s).deadline (waitBegin s) (by simpa using ha)
  rw [hpart] at hk
  refine runActs_end_holds (by simpa using hok) (by simpa using ha) (by rw [pollLoop_ctl]; exact hc)
    (spares_of_cmd fun bits hcmd => ?_) (by rw [hk]; exact holds_ticks k _ h)
  rw [hk, ticks_cmd, hw] at hcmd
  cases hcmd

/-! ### The READ frame -/

/-- A READ, taken in or lost, spares every byte (R132; log entry 11). -/
theorem inRead_spares {aw : Nat} {a : Word16} {b : Bool} {p : Part} (haddr : a.toNat < 2 ^ aw)
    (h : Part.InRead aw a b p) : Part.Spares aw x p := by
  refine spares_of_cmd fun bits hcmd a' w hc => ?_
  obtain ⟨-, hl | ⟨more, hm⟩⟩ := h
  · rw [hl] at hcmd
    cases hcmd
  · obtain rfl : readBits aw a ++ more = bits := by simpa [hm] using hcmd
    rw [partCommand_read aw a more haddr] at hc
    cases hc

/-- The READ frame is actions that hold the part selected, then END: what every clock edge and every step of the part's
own keep from the head on, the part still has when END comes (R90, R91). -/
theorem sendRead_eq_end {P : Part → Prop} (hclock : ∀ b p, P p → P (Part.clock b p))
    (htick : ∀ p, P p → P (Part.tick p)) (a : Word16) (s : State) (hok : s.cfg.ok = true) (ha : s.attached = .reference)
    (hp : P (runActs (readHeadActs s.cfg.aw a) s).part) :
    ∃ u, Selects u ∧ u.cfg = s.cfg ∧ P u.part ∧ sendRead a s = runActs endActs u := by
  have hsp := runActs_samePort _ s (readHead_straight s.cfg.aw a)
  obtain ⟨hctl, -⟩ := runActs_head (readBits s.cfg.aw a) s hok
  obtain ⟨-, hcs, -, -⟩ := clockedValue_lines hok (readValue s) (readBits s.cfg.aw a)
  rw [readBits, ← readHeadActs_eq, ← readBits] at hctl
  have hcfg : (framingRead (runActs (readHeadActs s.cfg.aw a) s)).cfg = s.cfg := by simp [hsp.cfg]
  have hsel : Selects (framingRead (runActs (readHeadActs s.cfg.aw a) s)) :=
    ⟨by rw [hcfg]; exact hok, by simp [hsp.attached, ha], _, by simpa using hctl, by rw [hcfg]; exact hcs⟩
  have hp' : P (framingRead (runActs (readHeadActs s.cfg.aw a) s)).part := by simpa using hp
  unfold sendRead
  dsimp only
  generalize framingRead (runActs (readHeadActs s.cfg.aw a) s) = f at *
  split
  · obtain ⟨hsel', hp''⟩ := runActs_selected hclock htick (getActs 16) (getActs_keepsSelected 16) hsel hp'
    have hcfg' := (runActs_samePort _ f (getActs_straight 16)).cfg.trans hcfg
    exact ⟨_, hsel', hcfg', hp'', by rw [readTailActs, runActs_append]⟩
  · exact ⟨f, hsel, hcfg, hp', rfl⟩

/-- The READ frame's head keeps every byte but those of a word being programmed (R131). -/
theorem readHead_holds (a : Word16) (s : State) (hok : s.cfg.ok = true) (ha : s.attached = .reference)
    (hw : s.part.cmd = .waiting) (h : Part.Holds x v s.part) :
    Part.Holds x v (runActs (readHeadActs s.cfg.aw a) s).part := by
  obtain ⟨hpart, -⟩ := runActs_head_part (readBits s.cfg.aw a) s hok ha hw
  rw [readHeadActs_eq, ← readBits, hpart]
  exact holds_ticks _ _ ((holds_tick _ h).congr rfl rfl)

/-- The READ frame keeps every byte but those of a word being programmed (R65, R132). -/
theorem sendRead_holds (a : Word16) (s : State) (hok : s.cfg.ok = true) (ha : s.attached = .reference)
    (hw : s.part.cmd = .waiting) (haddr : a.toNat < 2 ^ s.cfg.aw) (h : Part.Holds x v s.part) :
    Part.Holds x v (sendRead a s).part := by
  obtain ⟨u, ⟨hok', ha', c, hc, -⟩, hcfg, ⟨hin, hu⟩, hsend⟩ :=
    sendRead_eq_end (P := fun p => Part.InRead s.cfg.aw a s.part.we p ∧ Part.Holds x v p)
      (fun b p hp => ⟨inRead_clock b p hp.1, holds_clock b p hp.2⟩)
      (fun p hp => ⟨inRead_tick p hp.1, holds_tick p hp.2⟩) a s hok ha
      ⟨inRead_head a s hok ha hw, readHead_holds a s hok ha hw h⟩
  rw [hsend]
  refine runActs_end_holds hok' ha' hc ?_ hu
  rw [hcfg]
  exact inRead_spares haddr hin

/-! ### The rows -/

/-- The WRITE frame keeps every byte but those of its word, and a waiting part waiting (R66, R129). -/
theorem writeFrame_holds (a w : Word16) (s : State) (hok : s.cfg.ok = true) (ha : s.attached = .reference)
    (hw : s.part.cmd = .waiting) (haddr : a.toNat < 2 ^ s.cfg.aw) (hx : ¬ inWord a.toNat x)
    (h : Part.Holds x v s.part) :
    Part.Holds x v (runActs (frameActs (writeBits s.cfg.aw a w)) s).part ∧
    (runActs (frameActs (writeBits s.cfg.aw a w)) s).part.cmd = .waiting := by
  refine runActs_frame_holds _ s hok ha hw (fun k y hc => ?_) h
  rw [partCommand_write _ a w haddr] at hc
  cases hc
  exact hx

/-- The EWEN frame keeps every byte but those of a word being programmed (R67, R134). -/
theorem ewenFrame_holds (s : State) (hok : s.cfg.ok = true) (ha : s.attached = .reference) (hw : s.part.cmd = .waiting)
    (h : Part.Holds x v s.part) : Part.Holds x v (runActs (frameActs (ewenBits s.cfg.aw)) s).part :=
  (runActs_frame_holds _ s hok ha hw (by simp [partCommand_ewen _ (Config.admitted hok).aw_ge]) h).1

/-- The EWDS frame keeps every byte but those of a word being programmed (R68, R134). -/
theorem ewdsFrame_holds (s : State) (hok : s.cfg.ok = true) (ha : s.attached = .reference) (hw : s.part.cmd = .waiting)
    (h : Part.Holds x v s.part) : Part.Holds x v (runActs (frameActs (ewdsBits s.cfg.aw)) s).part :=
  (runActs_frame_holds _ s hok ha hw (by simp [partCommand_ewds]) h).1

/-- READ_WORD keeps every byte but those of a word being programmed (R90). -/
theorem readWordBody_holds (a : Word16) (s : State) (hok : s.cfg.ok = true) (ha : s.attached = .reference)
    (hw : s.part.cmd = .waiting) (haddr : a.toNat < 2 ^ s.cfg.aw) (h : Part.Holds x v s.part) :
    Part.Holds x v (readWordBody a s).part := by
  have hsend := sendRead_holds a s hok ha hw haddr h
  obtain ⟨y, -, -, hbody⟩ | ⟨-, hbody⟩ := readWordBody_eq a s hok <;> rw [hbody] <;> exact hsend

/-- WRITE_WORD keeps every byte but those of its word and of a word that was being programmed (R92). -/
theorem writeWordBody_holds (a w : Word16) (s : State) (hok : s.cfg.ok = true) (ha : s.attached = .reference)
    (hw : s.part.cmd = .waiting) (haddr : a.toNat < 2 ^ s.cfg.aw) (hx : ¬ inWord a.toNat x)
    (h : Part.Holds x v s.part) : Part.Holds x v (writeWordBody a w s).part := by
  obtain ⟨st, -, -, hbody⟩ := writeWordBody_eq a w s hok
  rw [writeActs_eq, ← writeBits] at hbody
  obtain ⟨hframe, hcmd⟩ := writeFrame_holds a w s hok ha hw haddr hx h
  obtain ⟨hctl, hcreg, -⟩ := runActs_frame (writeBits s.cfg.aw a w) s hok
  have hsp := runActs_samePort _ s (frameActs_straight (writeBits s.cfg.aw a w))
  rw [hbody]
  exact waitBody_holds _ (by rw [hsp.cfg]; exact hok) (hsp.attached.trans ha) (by rw [hctl, hcreg]) hcmd hframe

/-- With a reference part that waits, every host operation and frame keeps a byte of no word that is being programmed or
that the row stores to (R92, R129, R132, R134). -/
theorem exec_holds {i : Instr} {s t : State} (ha : s.attached = .reference) (hw : s.part.cmd = .waiting)
    (hi : i.isHostOp = true ∨ (encodeFrame s.cfg.aw i).isSome = true) (h : exec i s = .next t)
    (hx : ∀ k, storedWord i = some k → ¬ inWord k x) (hp : Part.Holds x v s.part) : Part.Holds x v t.part := by
  obtain ⟨hok, hwf, ⟨-, st, -, rfl⟩ | ⟨-, -, he, hop⟩ | ⟨-, -, hrow⟩ | ⟨-, -, -, hrow⟩⟩ := exec_next h
  · exact hp
  · obtain ⟨a, rfl, rfl⟩ | ⟨a, w, rfl, rfl⟩ | ⟨-, rfl⟩ | ⟨-, rfl⟩ := hop
    · exact readWordBody_holds a (accept s) hok ha hw (addr_lt_of_inRange (by simpa [earlyStatus] using he)) hp
    · exact writeWordBody_holds a w (accept s) hok ha hw (addr_lt_of_inRange (by simpa [earlyStatus] using he))
        (hx _ rfl) hp
    · rw [writeEnableBody_eq]
      exact ewenFrame_holds (accept s) hok ha hw hp
    · rw [writeDisableBody_eq]
      exact ewdsFrame_holds (accept s) hok ha hw hp
  · obtain ⟨a, rfl, rfl⟩ | ⟨a, w, rfl, rfl⟩ | ⟨-, rfl⟩ | ⟨-, rfl⟩ | ⟨rfl, -⟩ | ⟨rfl, -⟩ := hrow
    · exact sendRead_holds a s hok ha hw (by simpa [Instr.wf] using hwf) hp
    · rw [writeActs_eq]
      exact (writeFrame_holds a w s hok ha hw (by simpa [Instr.wf] using hwf) (hx _ rfl) hp).1
    · rw [ewenActs_eq]
      exact ewenFrame_holds s hok ha hw hp
    · rw [ewdsActs_eq]
      exact ewdsFrame_holds s hok ha hw hp
    · simp [Instr.isHostOp, encodeFrame] at hi
    · simp [Instr.isHostOp, encodeFrame] at hi
  · obtain ⟨w, n, rfl, -⟩ | ⟨n, rfl, -⟩ | ⟨rfl, -⟩ := hrow <;> simp [Instr.isHostOp, encodeFrame] at hi

end

/-- Settles O43: under an oracle no row touches the part; a reference part holds the byte through the row. -/
theorem rowsStoreOnlyTheirWord : Obligations.RowsStoreOnlyTheirWord := by
  intro s t i hw hi h a hn hx
  cases ha : s.attached with
  | oracle => rw [exec_part_oracle h ha]
  | reference => exact (exec_holds ha hw hi h hx ⟨rfl, hn⟩).1

end Sys2Proof.Machine

/-! SUPPORT. The encoding statements: the fields of a descriptor and what its code selects (R70 to R73, R76), and that
the frame decoder answers exactly the frames' encodings (R65 to R69, R75). -/

namespace Sys2Proof

/-! ### The host descriptor (R70 to R73) -/

@[simp] theorem op_packDescriptor (v a : Word16) (op : BitVec 4) : Descriptor.op (packDescriptor v a op) = op := by
  refine BitVec.eq_of_getLsbD_eq fun k hk => ?_
  simp [Descriptor.op, packDescriptor, hk, show k < 32 by omega, show k < 16 by omega, show k < 64 by omega]

@[simp] theorem addr_packDescriptor (v a : Word16) (op : BitVec 4) : Descriptor.addr (packDescriptor v a op) = a := by
  refine BitVec.eq_of_getLsbD_eq fun k hk => ?_
  simp [Descriptor.addr, packDescriptor, hk, show 16 + k < 32 by omega, show 16 + k < 64 by omega,
    BitVec.getLsbD_of_ge op (16 + k) (by omega)]

@[simp] theorem value_packDescriptor (v a : Word16) (op : BitVec 4) : Descriptor.value (packDescriptor v a op) = v := by
  refine BitVec.eq_of_getLsbD_eq fun k hk => ?_
  simp [Descriptor.value, packDescriptor, hk, show 32 + k < 64 by omega,
    BitVec.getLsbD_of_ge a (32 + k - 16) (by omega), BitVec.getLsbD_of_ge op (32 + k) (by omega)]

theorem decodeDescriptor_readWord {d : Descriptor} (h : Descriptor.op d = 1) :
    decodeDescriptor d = .readWord (Descriptor.addr d) := by simp [decodeDescriptor, h]

theorem decodeDescriptor_writeWord {d : Descriptor} (h : Descriptor.op d = 2) :
    decodeDescriptor d = .writeWord (Descriptor.addr d) (Descriptor.value d) := by simp [decodeDescriptor, h]

theorem decodeDescriptor_writeEnable {d : Descriptor} (h : Descriptor.op d = 3) :
    decodeDescriptor d = .writeEnable := by simp [decodeDescriptor, h]

theorem decodeDescriptor_writeDisable {d : Descriptor} (h : Descriptor.op d = 4) :
    decodeDescriptor d = .writeDisable := by simp [decodeDescriptor, h]

theorem isReservedOp_iff (op : BitVec 4) : isReservedOp op = true ↔ op.toNat = 0 ∨ 5 ≤ op.toNat := by
  simp [isReservedOp]

theorem decodeDescriptor_reserved {d : Descriptor} (h : isReservedOp (Descriptor.op d) = true) :
    decodeDescriptor d = .reserved (Descriptor.op d) := by
  rw [isReservedOp_iff] at h
  unfold decodeDescriptor
  split
  case h_5 => rfl
  all_goals omega

/-- A code is that of an operation or reserved (R71, R73). -/
theorem op_cases : ∀ op : BitVec 4, op = 1 ∨ op = 2 ∨ op = 3 ∨ op = 4 ∨ isReservedOp op = true := by decide

/-- Settles O5: `Descriptor.op`, `addr` and `value` are the statement's bit ranges, and each code has its lemma. -/
theorem everyDescriptorSelectsOneOutcome : Obligations.EveryDescriptorSelectsOneOutcome := fun _ =>
  ⟨decodeDescriptor_readWord, decodeDescriptor_writeWord, decodeDescriptor_writeEnable, decodeDescriptor_writeDisable,
    fun h => decodeDescriptor_reserved ((isReservedOp_iff _).2 h)⟩

/-- The descriptor made of a well-formed host operation decodes to it (R70, R71). -/
theorem decodeDescriptor_encodeDescriptor {aw : Nat} {i : Instr} (hw : i.wf aw = true) (hi : i.isHostOp = true) :
    ∃ d, encodeDescriptor i = some d ∧ decodeDescriptor d = i := by
  cases i with
  | readWord a => exact ⟨_, rfl, by simp [decodeDescriptor_readWord]⟩
  | writeWord a v => exact ⟨_, rfl, by simp [decodeDescriptor_writeWord]⟩
  | writeEnable => exact ⟨_, rfl, by simp [decodeDescriptor_writeEnable]⟩
  | writeDisable => exact ⟨_, rfl, by simp [decodeDescriptor_writeDisable]⟩
  | reserved op =>
    have hop : isReservedOp op = true := hw
    exact ⟨_, rfl, by simp [decodeDescriptor_reserved, hop]⟩
  | _ => cases hi

/-- The rows the host cannot issue have no descriptor (R78). -/
theorem encodeDescriptor_eq_none {i : Instr} (hi : i.isHostOp = false) : encodeDescriptor i = none := by
  cases i with
  | readWord | writeWord | writeEnable | writeDisable | reserved => cases hi
  | _ => rfl

/-- Settles O7: the encoder's descriptor decodes back, and every descriptor decodes to a host operation. -/
theorem descriptorRoundTrip : Obligations.DescriptorRoundTrip := by
  refine fun aw i hw => ⟨decodeDescriptor_encodeDescriptor hw, fun hi => ⟨encodeDescriptor_eq_none hi, fun d hd => ?_⟩⟩
  have hhost := Machine.decodeDescriptor_isHostOp d
  rw [hd, hi] at hhost
  cases hhost

/-- Descriptors that agree on the fields their operation uses decode alike (R72). -/
theorem decodeDescriptor_congr {d e : Descriptor} (hop : Descriptor.op d = Descriptor.op e)
    (haddr : Descriptor.op d = 1 ∨ Descriptor.op d = 2 → Descriptor.addr d = Descriptor.addr e)
    (hvalue : Descriptor.op d = 2 → Descriptor.value d = Descriptor.value e) :
    decodeDescriptor d = decodeDescriptor e := by
  obtain h | h | h | h | h := op_cases (Descriptor.op d)
  · rw [decodeDescriptor_readWord h, decodeDescriptor_readWord (hop ▸ h), haddr (.inl h)]
  · rw [decodeDescriptor_writeWord h, decodeDescriptor_writeWord (hop ▸ h), haddr (.inr h), hvalue h]
  · rw [decodeDescriptor_writeEnable h, decodeDescriptor_writeEnable (hop ▸ h)]
  · rw [decodeDescriptor_writeDisable h, decodeDescriptor_writeDisable (hop ▸ h)]
  · rw [decodeDescriptor_reserved h, decodeDescriptor_reserved (hop ▸ h), hop]

/-- A step looks at a descriptor through its decoding only (R72, R116). -/
theorem step_congr_descriptor {d e : Descriptor} (h : decodeDescriptor d = decodeDescriptor e) (s : Machine.State)
    (ms : List Machine.Move) :
    Machine.step { s with moves := .run d :: ms } = Machine.step { s with moves := .run e :: ms } ∧
    Machine.step { s with moves := .issue d :: ms } = Machine.step { s with moves := .issue e :: ms } := by
  simp [Machine.step, Machine.runMove, h]

/-- Settles O6: the two descriptors decode alike. -/
theorem ignoredFieldsNeverChangeAStep : Obligations.IgnoredFieldsNeverChangeAStep := fun s ms _ _ hop haddr hvalue =>
  step_congr_descriptor (decodeDescriptor_congr hop haddr hvalue) s ms

/-- Settles O48: a scheduled `run` is the step, and its meaning is `exec` of the decoded instruction. -/
theorem stepRunsTheDecodedInstruction : Obligations.StepRunsTheDecodedInstruction := fun _ _ _ hok hm =>
  Machine.step_cons hok hm

/-! ### The fields of a frame (R65 to R69) -/

theorem exactField_of_length {n : Nat} {bits : List Bool} (h : bits.length = n) : exactField n bits = .ok bits := by
  subst h
  simp [exactField]

theorem exactField_of_length_ne {n : Nat} {bits : List Bool} (h : bits.length ≠ n) :
    ∃ e, exactField n bits = .error e := by
  unfold exactField
  split_ifs with hlt hgt
  · exact ⟨_, rfl⟩
  · exact ⟨_, rfl⟩
  · omega

/-- A padding is read as a frame exactly when it is all zeros, of its length (R67, R68). -/
theorem padding_eq_ok (n : Nat) (bits : List Bool) (i j : Instr) :
    padding n bits i = .ok j ↔ j = i ∧ bits = List.replicate n false := by
  rw [List.eq_replicate_iff]
  unfold padding
  by_cases hl : bits.length = n
  · rw [exactField_of_length hl]
    by_cases hone : true ∈ bits
    · simp [hone]
    · simp [hone, hl, eq_comm (a := i)]
  · obtain ⟨e, he⟩ := exactField_of_length_ne hl
    simp [he, hl]

/-- A field of at most 16 bits is read as the number whose bits were sent, and no other bits are sent of it (R45,
R69). -/
theorem field_iff {n : Nat} (hn : n ≤ 16) (bits : List Bool) (a : Word16) :
    bits.length = n ∧ a = BitVec.ofNat 16 (bitsToNat bits) ↔ a.toNat < 2 ^ n ∧ bits = msbBits (a.setWidth 32) n := by
  have hw : (a.setWidth 32).toNat = a.toNat := BitVec.toNat_setWidth_of_le (by decide)
  constructor
  · rintro ⟨rfl, ha⟩
    have hb := bitsToNat_bound bits
    have hlt : bitsToNat bits < 2 ^ 16 := hb.trans_le (Nat.pow_le_pow_right (by decide) hn)
    have hnat : a.toNat = bitsToNat bits := by rw [ha, BitVec.toNat_ofNat, Nat.mod_eq_of_lt hlt]
    exact ⟨hnat ▸ hb, (msbBits_bitsToNat bits _ (hw.trans hnat)).symm⟩
  · rintro ⟨ha, rfl⟩
    rw [bitsToNat_msbBits, hw, Nat.mod_eq_of_lt ha]
    simp

/-- The bits after READ's opcode are read as its address field, and only such a field is (R65). -/
theorem decodeReadFields_eq_ok {aw : Nat} (haw : aw ≤ 16) (bits : List Bool) (i : Instr) :
    decodeReadFields aw bits = .ok i ↔
      ∃ a : Word16, i = .readFrame a ∧ a.toNat < 2 ^ aw ∧ bits = msbBits (a.setWidth 32) aw := by
  simp only [← field_iff haw]
  unfold decodeReadFields
  by_cases hl : bits.length = aw
  · simp [exactField_of_length hl, hl, eq_comm]
  · obtain ⟨e, he⟩ := exactField_of_length_ne hl
    simp [he, hl]

/-- The bits after WRITE's opcode are read as its address and data fields, and only such fields are (R66). -/
theorem decodeWriteFields_eq_ok {aw : Nat} (haw : aw ≤ 16) (bits : List Bool) (i : Instr) :
    decodeWriteFields aw bits = .ok i ↔ ∃ a v : Word16, i = .writeFrame a v ∧ a.toNat < 2 ^ aw ∧
      bits = msbBits (a.setWidth 32) aw ++ msbBits (v.setWidth 32) 16 := by
  unfold decodeWriteFields
  by_cases hl : bits.length = aw + 16
  · have haddr := field_iff haw (bits.take aw)
    have hdata := field_iff (Nat.le_refl 16) (bits.drop aw)
    rw [exactField_of_length hl]
    simp only [Except.ok.injEq]
    constructor
    · rintro rfl
      obtain ⟨hlt, htake⟩ := (haddr _).1 ⟨by simp [hl], rfl⟩
      obtain ⟨-, hdrop⟩ := (hdata _).1 ⟨by simp [hl], rfl⟩
      exact ⟨_, _, rfl, hlt, by rw [← htake, ← hdrop, List.take_append_drop]⟩
    · rintro ⟨a, v, rfl, ha, rfl⟩
      obtain ⟨-, htake⟩ := (haddr a).2 ⟨ha, List.take_left' (msbBits_length _ _)⟩
      obtain ⟨-, hdrop⟩ := (hdata v).2 ⟨v.isLt, List.drop_left' (msbBits_length _ _)⟩
      rw [← htake, ← hdrop]
  · obtain ⟨e, he⟩ := exactField_of_length_ne hl
    rw [he]
    refine iff_of_false (by simp) ?_
    rintro ⟨a, v, -, -, rfl⟩
    simp at hl

/-! ### Frames (R62 to R68, R75) -/

/-- What a receiver reads as a frame: the start bit, an opcode, and what the opcode's frame holds after it (R75). -/
theorem decodeFrame_eq_ok (aw : Nat) (bits : List Bool) (i : Instr) :
    decodeFrame aw bits = .ok i ↔ ∃ rest,
      (bits = true :: true :: false :: rest ∧ decodeReadFields aw rest = .ok i) ∨
      (bits = true :: false :: true :: rest ∧ decodeWriteFields aw rest = .ok i) ∨
      (bits = true :: false :: false :: true :: true :: rest ∧ padding (aw - 2) rest .ewenFrame = .ok i) ∨
      (bits = true :: false :: false :: false :: false :: rest ∧ padding (aw + 2) rest .ewdsFrame = .ok i) := by
  constructor
  · intro h
    unfold decodeFrame at h
    split at h
    case h_3 rest => exact ⟨rest, .inl ⟨rfl, h⟩⟩
    case h_4 rest => exact ⟨rest, .inr (.inl ⟨rfl, h⟩)⟩
    case h_5 rest => exact ⟨rest, .inr (.inr (.inl ⟨rfl, h⟩))⟩
    case h_6 rest => exact ⟨rest, .inr (.inr (.inr ⟨rfl, h⟩))⟩
    all_goals cases h
  · rintro ⟨rest, ⟨rfl, h⟩ | ⟨rfl, h⟩ | ⟨rfl, h⟩ | ⟨rfl, h⟩⟩ <;> exact h

/-- The frame decoder answers a row exactly on the bits the encoder gives for that row, which is then well-formed. -/
theorem decodeFrame_iff_encodeFrame {aw : Nat} (haw : aw ≤ 16) (bits : List Bool) (i : Instr) :
    decodeFrame aw bits = .ok i ↔ encodeFrame aw i = some bits ∧ i.wf aw = true := by
  simp only [decodeFrame_eq_ok, decodeReadFields_eq_ok haw, decodeWriteFields_eq_ok haw, padding_eq_ok]
  constructor
  · rintro ⟨rest, ⟨rfl, a, rfl, ha, rfl⟩ | ⟨rfl, a, v, rfl, ha, rfl⟩ | ⟨rfl, rfl, rfl⟩ | ⟨rfl, rfl, rfl⟩⟩
    · exact ⟨rfl, by simpa [Instr.wf] using ha⟩
    · exact ⟨rfl, by simpa [Instr.wf] using ha⟩
    · exact ⟨rfl, rfl⟩
    · exact ⟨rfl, rfl⟩
  · rintro ⟨he, hw⟩
    cases i with
    | readFrame a => cases he; exact ⟨_, .inl ⟨rfl, a, rfl, by simpa [Instr.wf] using hw, rfl⟩⟩
    | writeFrame a v => cases he; exact ⟨_, .inr (.inl ⟨rfl, a, v, rfl, by simpa [Instr.wf] using hw, rfl⟩)⟩
    | ewenFrame => cases he; exact ⟨_, .inr (.inr (.inl ⟨rfl, rfl, rfl⟩))⟩
    | ewdsFrame => cases he; exact ⟨_, .inr (.inr (.inr ⟨rfl, rfl, rfl⟩))⟩
    | _ => cases he

/-- Settles O8, by the decoder's answers. -/
theorem frameRoundTrip : Obligations.FrameRoundTrip := fun _ i bits _ haw hw he =>
  (decodeFrame_iff_encodeFrame haw bits i).2 ⟨he, hw⟩

/-- Settles O9, by the decoder's answers. -/
theorem frameDecodingIsExact : Obligations.FrameDecodingIsExact := fun _ i bits _ haw =>
  (decodeFrame_iff_encodeFrame haw bits i).1

/-- Settles O10: the start bit, the opcode bits and the fields of each frame, counted. -/
theorem frameLengths : Obligations.FrameLengths := by
  intro aw haw
  refine ⟨?_, ?_, ?_, ?_⟩
  · rintro a _ ⟨⟩
    simp; omega
  · rintro a v _ ⟨⟩
    simp; omega
  · rintro _ ⟨⟩
    simp; omega
  · rintro _ ⟨⟩
    simp; omega

end Sys2Proof

/-! SUPPORT. The frame statements: ill-formed rows are refused (R69, R73, R83, R84), and the bits that the frames and
the host operations clock into the EEPROM are their frame's encoding (R62 to R68). -/

namespace Sys2Proof.Machine

/-! ### Ill-formed rows -/

theorem hostOp_notWellFormed {i : Instr} {s : State} (body : State → State) (hok : s.cfg.ok = true)
    (hb : s.busy = false) (hw : i.wf s.cfg.aw = false) : hostOp i body s = .refused .notWellFormed := by
  simp [hostOp, hok, hb, hw]

theorem engineOp_notWellFormed {i : Instr} {p : Phase} {needs : Bool} {s : State} (body : State → State)
    (hok : s.cfg.ok = true) (hw : i.wf s.cfg.aw = false) : engineOp i p needs body s = .refused .notWellFormed := by
  simp [engineOp, hok, hw]

/-- Settles O21: a row that can be ill-formed is a `hostOp` or an `engineOp`, and both refuse it. -/
theorem illFormedRowsAreRefused : Obligations.IllFormedRowsAreRefused := by
  intro s i hok hb hw
  cases i with
  | reserved op => exact hostOp_notWellFormed id hok hb hw
  | readFrame | writeFrame | putBits | getBits => exact engineOp_notWellFormed _ hok hw
  | _ => cases hw

/-! ### Frames that only write (R66 to R68) -/

/-- A frame that only writes: its events, and the phase and the lines it leaves. -/
theorem runActs_frame_events (bits : List Bool) (s : State) (hok : s.cfg.ok = true) :
    Added s (runActs (frameActs bits) s) (headEvents s.cfg (readValue s) bits
      [.write (endValue s.cfg (readValue s)), .delay 2]) ∧
    (runActs (frameActs bits) s).phase = .idle ∧
    (runActs (frameActs bits) s).ctl = some (runActs (frameActs bits) s).creg ∧
    linesLow s.cfg (runActs (frameActs bits) s).creg = true := by
  obtain ⟨hctl, hcreg, hp, -, -, hhist⟩ := runActs_frame bits s hok
  rw [hctl, hcreg]
  exact ⟨hhist, hp, rfl, linesLow_driveLines hok _⟩

/-- The bits that a frame ended by END clocks are the start bit and its own (R63, R64). -/
theorem clockedBits_frame {cfg : Config} (hok : cfg.ok = true) (r prev : Word32) (bits : List Bool) {es : List Event}
    (hes : writesOf es = [endValue cfg r]) :
    clockedBits cfg prev (writesOf (headEvents cfg r bits es)) = true :: bits := by
  rw [clockedBits_head hok, hes, clockedBits_end hok, List.append_nil]

/-- In Idle the rows of the three frames that only write run the actions of their bits after the start bit (R66 to
R68). -/
theorem exec_frame {s : State} {i : Instr} {bits : List Bool} (hok : s.cfg.ok = true) (hp : s.phase = .idle)
    (hw : i.wf s.cfg.aw = true) (hi : (∃ a v, i = .writeFrame a v) ∨ i = .ewenFrame ∨ i = .ewdsFrame)
    (he : encodeFrame s.cfg.aw i = some bits) :
    ∃ tail, bits = true :: tail ∧ exec i s = .next (runActs (frameActs tail) s) := by
  have hrun : ∀ body : State → State, engineOp i .idle false body s = .next (body s) :=
    fun body => engineOp_runs body hok hw hp nofun
  obtain ⟨a, v, rfl⟩ | rfl | rfl := hi
  · cases he
    exact ⟨writeBits s.cfg.aw a v, rfl, (hrun _).trans (by rw [writeActs_eq, writeBits])⟩
  · cases he
    exact ⟨ewenBits s.cfg.aw, rfl, (hrun _).trans (by rw [ewenActs_eq, ewenBits])⟩
  · cases he
    exact ⟨ewdsBits s.cfg.aw, rfl, (hrun _).trans (by rw [ewdsActs_eq, ewdsBits])⟩

/-- Settles O22: each row is a frame of its encoding's bits, and END's write clocks none. -/
theorem framesClockTheirEncoding : Obligations.FramesClockTheirEncoding := by
  intro s i bits prev hok hp hw hi he
  obtain ⟨tail, rfl, hexec⟩ := exec_frame hok hp hw hi he
  obtain ⟨hadd, hidle, hctl, hlow⟩ := runActs_frame_events tail s hok
  exact ⟨_, _, hexec, hadd, clockedBits_frame hok _ _ _ rfl, by rw [readsOf_head]; rfl, hidle, hctl, hlow⟩

/-! ### The READ frame (R65, R91) -/

/-- After a dummy bit of 0 the read-mode write, the samples and END clock one edge a sample with DI = 1 (R65, R84). -/
theorem clockedBits_readSamples {cfg : Config} (hok : cfg.ok = true) {m : Word32} (hcs : level cfg m .cs = true)
    (hdi : level cfg m .di = true) (hsk : level cfg m .sk = true) (r prev dummy : Word32) (bits : List Bool)
    {rs : List Word32} (hlen : rs.length = 16) {es : List Event} (hes : writesOf es = []) :
    clockedBits cfg prev (writesOf (headEvents cfg r bits (.read dummy :: .write m ::
      (rs.flatMap (sampleEvents cfg m) ++ .write (endValue cfg r) :: es)))) =
      true :: bits ++ List.replicate 16 true := by
  have hhigh : level cfg (startHigh cfg r) .sk = true := by rw [startHigh, level_driveLines_sk hok]; rfl
  have htail := clockedBits_readTail hok m r _ hhigh hcs hdi hsk rs es hes
  rw [hlen] at htail
  rw [clockedBits_head hok, ← htail]
  rfl

/-- Settles O23, by the dummy bit: on a 1 END follows, on a 0 the 16 samples and then END. -/
theorem readFrameChecksThenSamples : Obligations.ReadFrameChecksThenSamples := by
  intro s addr bits prev hok hp haddr he
  have hexec : exec (.readFrame addr) s = .next (sendRead addr s) :=
    engineOp_runs _ hok (decide_eq_true haddr) hp nofun
  cases he
  obtain ⟨-, hcreg, hidle, dummy, m, hcs, hdi, hsk, -, -, hread⟩ := sendRead_spec addr s hok
  have hlow : linesLow s.cfg (sendRead addr s).creg = true := hcreg ▸ linesLow_driveLines hok _
  obtain ⟨hd, hret, -, hadd⟩ | ⟨hd, hret, rs, hlen, hacc, hadd⟩ := hread
  · refine ⟨_, _, dummy, [], hexec, hadd, readsOf_head _ _ _ _, hidle, hlow, fun _ => ⟨rfl, hret, ?_⟩, fun h => ?_⟩
    · exact clockedBits_frame hok _ _ _ rfl
    · rw [hd] at h
      cases h
  · refine ⟨_, _, dummy, rs, hexec, hadd, ?_, hidle, hlow, fun h => ?_, fun _ => ⟨hlen, hret, ⟨_, hacc, ?_⟩, ?_⟩⟩
    · refine (readsOf_head _ _ _ _).trans ?_
      simp [readsOf, (counts_samples s.cfg m rs).2.1]
    · rw [hd] at h
      cases h
    · exact accAfter_toNat s.cfg rs (by omega)
    · exact clockedBits_readSamples hok hcs hdi hsk _ _ _ _ hlen rfl

/-! ### Host operations (R79) -/

/-- After the WRITE frame its END, the completion wait and the wait's END clock nothing: none of their writes raises SK
(R96). -/
theorem clockedBits_wait {cfg : Config} (hok : cfg.ok = true) (r p last : Word32) (earlier : List Word32)
    (st : Status) :
    clockedBits cfg p (writesOf (.write (endValue cfg r) :: .delay 2 :: .write (reassertValue cfg (endValue cfg r)) ::
      (earlierEvents earlier ++ [.read last, .write (endValue cfg r), .delay 2, .completed st 0]))) = [] := by
  have hend : level cfg (endValue cfg r) .sk = false := by rw [endValue, level_driveLines_sk hok]; rfl
  have hre : level cfg (reassertValue cfg (endValue cfg r)) .sk = false := by
    rw [reassertValue, level_driveLines_sk hok]
    exact hend
  simp [writesOf, writesOf_earlier, clockedBits_low, hend, hre, clockedBits]

/-- An accepted READ_WORD clocks its frame, and 16 edges with DI = 1 when it completes with OK (R90, R91). -/
theorem readWordBody_clocked (a : Word16) (s : State) (hok : s.cfg.ok = true) (prev : Word32) :
    ∃ evs, Added s (readWordBody a (accept s)) evs ∧ clockedBits s.cfg prev (writesOf evs) =
      true :: readBits s.cfg.aw a ++
        (if (readWordBody a (accept s)).status = .ok then List.replicate 16 true else []) := by
  obtain ⟨-, -, -, dummy, m, hcs, hdi, hsk, -, -, hread⟩ := readWordBody_events a s hok
  obtain ⟨hst, -, -, hadd⟩ | ⟨hst, -, rs, hlen, -, hadd⟩ := hread
  · refine ⟨_, hadd, ?_⟩
    rw [clockedBits_frame hok _ _ _ rfl, hst, if_neg nofun, List.append_nil]
  · refine ⟨_, hadd, ?_⟩
    rw [clockedBits_readSamples hok hcs hdi hsk _ _ _ _ hlen rfl, if_pos hst]

/-- An accepted WRITE_WORD clocks its frame and nothing more (R92, R96). -/
theorem writeWordBody_clocked (a v : Word16) (s : State) (hok : s.cfg.ok = true) (prev : Word32) :
    ∃ evs, Added s (writeWordBody a v (accept s)) evs ∧
      clockedBits s.cfg prev (writesOf evs) = true :: writeBits s.cfg.aw a v := by
  obtain ⟨-, -, earlier, last, -, -, hadd⟩ := writeWordBody_events a v s hok
  exact ⟨_, hadd, by rw [clockedBits_head hok, clockedBits_wait hok, List.append_nil]⟩

/-- An accepted operation that is one frame and then OK clocks that frame (R93, R94). -/
theorem frameBody_clocked (bits : List Bool) (s : State) (hok : s.cfg.ok = true) (prev : Word32) :
    ∃ evs, Added s (complete .ok 0 (runActs (frameActs bits) (accept s))) evs ∧
      clockedBits s.cfg prev (writesOf evs) = true :: bits := by
  obtain ⟨-, -, -, hadd⟩ := frameBody_events bits s hok
  exact ⟨_, hadd, clockedBits_frame hok _ _ _ rfl⟩

/-- Settles O34, by what the body of each accepted operation clocks. -/
theorem hostOperationsClockExactlyOneFrame : Obligations.HostOperationsClockExactlyOneFrame := by
  intro s i f bits prev hr hearly hf he
  have hok : s.cfg.ok = true := hr.1
  cases i with
  | readWord a =>
    cases hf
    obtain rfl : true :: readBits s.cfg.aw a = bits := Option.some.inj he
    obtain ⟨evs, hadd, hbits⟩ := readWordBody_clocked a s hok prev
    exact ⟨_, evs, hostOp_accepted (readWordBody a) hr rfl hearly, hadd, by simpa using hbits⟩
  | writeWord a v =>
    cases hf
    obtain rfl : true :: writeBits s.cfg.aw a v = bits := Option.some.inj he
    obtain ⟨evs, hadd, hbits⟩ := writeWordBody_clocked a v s hok prev
    exact ⟨_, evs, hostOp_accepted (writeWordBody a v) hr rfl hearly, hadd, by simpa using hbits⟩
  | writeEnable =>
    cases hf
    obtain rfl : true :: ewenBits s.cfg.aw = bits := Option.some.inj he
    obtain ⟨evs, hadd, hbits⟩ := frameBody_clocked (ewenBits s.cfg.aw) s hok prev
    rw [← accept_cfg s, ← writeEnableBody_eq] at hadd
    exact ⟨_, evs, hostOp_accepted writeEnableBody hr rfl hearly, hadd, by simpa using hbits⟩
  | writeDisable =>
    cases hf
    obtain rfl : true :: ewdsBits s.cfg.aw = bits := Option.some.inj he
    obtain ⟨evs, hadd, hbits⟩ := frameBody_clocked (ewdsBits s.cfg.aw) s hok prev
    rw [← accept_cfg s, ← writeDisableBody_eq] at hadd
    exact ⟨_, evs, hostOp_accepted writeDisableBody hr rfl hearly, hadd, by simpa using hbits⟩
  | _ => cases hf

end Sys2Proof.Machine

/-! SUPPORT. The assembler statement (R77): how a line is cut into words, what a numeral parses to, and what a line of
given words assembles to. -/

namespace Sys2Proof.Machine

/-! ### The words of a line -/

/-- The characters that are part of a word: neither a blank nor a comma nor the start of a comment. -/
def isWordChar (c : Char) : Bool := c != ';' && c != ' ' && c != '\t' && c != ','

/-- A word of a line: characters of words, one at least. -/
def IsWord (w : List Char) : Prop := w ≠ [] ∧ ∀ c ∈ w, isWordChar c = true

/-- What stands here ends the word before it. -/
def EndsWord (cs : List Char) : Prop := ∀ c ∈ cs.head?, isWordChar c = false

theorem Blanks.cons {c : Char} {cs : List Char} (h : Blanks (c :: cs)) : (c = ' ' ∨ c = '\t') ∧ Blanks cs :=
  List.forall_mem_cons.1 h

theorem asmWords_blank {c : Char} (hc : c = ' ' ∨ c = '\t') (cur cs : List Char) :
    asmWords cur (c :: cs) = asmWords cur [] ++ asmWords [] cs := by
  obtain rfl | rfl := hc <;> rfl

/-- Blanks between words are skipped. -/
theorem asmWords_blanks {bs : List Char} (h : Blanks bs) (rest : List Char) :
    asmWords [] (bs ++ rest) = asmWords [] rest := by
  induction bs with
  | nil => rfl
  | cons b bs ih =>
    obtain ⟨hb, hbs⟩ := h.cons
    rw [List.cons_append, asmWords_blank hb, ih hbs]
    rfl

/-- A comma is a word of its own. -/
theorem asmWords_comma (cs : List Char) : asmWords [] (',' :: cs) = [','] :: asmWords [] cs := rfl

theorem asmWords_cons_wordChar {c : Char} (hc : isWordChar c = true) (cur cs : List Char) :
    asmWords cur (c :: cs) = asmWords (c :: cur) cs := by
  obtain ⟨⟨⟨h1, h2⟩, h3⟩, h4⟩ := by simpa [isWordChar] using hc
  simp [asmWords, h1, h2, h3, h4]

/-- The characters of a word are gathered. -/
theorem asmWords_wordChars {w : List Char} (hw : ∀ c ∈ w, isWordChar c = true) (cur rest : List Char) :
    asmWords cur (w ++ rest) = asmWords (w.reverse ++ cur) rest := by
  induction w generalizing cur with
  | nil => rfl
  | cons c cs ih =>
    obtain ⟨hc, hcs⟩ := List.forall_mem_cons.1 hw
    rw [List.cons_append, asmWords_cons_wordChar hc, ih hcs]
    simp

/-- What ends a word closes the one being read. -/
theorem asmWords_of_endsWord {rest : List Char} (h : EndsWord rest) (cur : List Char) :
    asmWords cur rest = asmWords cur [] ++ asmWords [] rest := by
  cases rest with
  | nil => simp [asmWords]
  | cons c cs =>
    have hc : isWordChar c = false := h c rfl
    simp only [isWordChar, Bool.and_eq_false_iff, bne_eq_false_iff_eq] at hc
    obtain ((rfl | rfl) | rfl) | rfl := hc <;> simp [asmWords]

/-- A word at the front of a line. -/
theorem asmWords_word {w rest : List Char} (hw : IsWord w) (hr : EndsWord rest) :
    asmWords [] (w ++ rest) = w :: asmWords [] rest := by
  obtain ⟨hne, hchars⟩ := hw
  rw [asmWords_wordChars hchars, asmWords_of_endsWord hr]
  simp [asmWords, hne]

theorem endsWord_nil : EndsWord [] := nofun

theorem endsWord_comma (cs : List Char) : EndsWord (',' :: cs) := by
  rintro _ ⟨⟩
  rfl

theorem isWordChar_blank {c : Char} (hc : c = ' ' ∨ c = '\t') : isWordChar c = false := by
  obtain rfl | rfl := hc <;> rfl

/-- Blanks end a word, as does what follows when there are none. -/
theorem endsWord_blanks {bs rest : List Char} (h : Blanks bs) (hr : bs ≠ [] ∨ EndsWord rest) :
    EndsWord (bs ++ rest) := by
  cases bs with
  | nil => exact hr.resolve_left (absurd rfl)
  | cons b bs =>
    obtain ⟨hb, -⟩ := h.cons
    rintro _ ⟨⟩
    exact isWordChar_blank hb

/-- A comment adds no word. -/
theorem asmWords_comment (cur line comment : List Char) :
    asmWords cur (line ++ ';' :: comment) = asmWords cur line := by
  induction line generalizing cur with
  | nil => rfl
  | cons c cs ih => simp only [List.cons_append, asmWords, ih]

/-! ### Numerals -/

/-- What writes a digit has that digit's value, in either case of the letters. -/
theorem digitValue_of_writesDigit {d : Nat} {c : Char} (hd : d < 16) (h : WritesDigit d c) : digitValue c = some d := by
  have hall : ∀ d : Fin 16, digitValue (Nat.digitChar d) = some d.val ∧
      digitValue (Nat.digitChar d).toUpper = some d.val := by decide
  obtain rfl | rfl := h
  · exact (hall ⟨d, hd⟩).1
  · exact (hall ⟨d, hd⟩).2

theorem isWordChar_of_digitValue {c : Char} {d : Nat} (h : digitValue c = some d) : isWordChar c = true := by
  by_contra hc
  simp only [isWordChar, Bool.not_eq_true, Bool.and_eq_false_iff, bne_eq_false_iff_eq] at hc
  obtain ((rfl | rfl) | rfl) | rfl := hc <;> cases h

/-- Every character that writes a digit has a value. -/
theorem digitValue_isSome {base : Nat} (hb : base ≤ 16) {ds : List Nat} {cs : List Char} (hds : ∀ d ∈ ds, d < base)
    (h : List.Forall₂ WritesDigit ds cs) : ∀ c ∈ cs, (digitValue c).isSome = true := by
  induction h with
  | nil => nofun
  | @cons d c ds cs hdc _ ih =>
    obtain ⟨hd, hds⟩ := List.forall_mem_cons.1 hds
    refine List.forall_mem_cons.2 ⟨?_, ih hds⟩
    rw [digitValue_of_writesDigit (hd.trans_le hb) hdc]
    rfl

/-- Written digits of a base parse to the number they stand for. -/
theorem parseDigits_digits {base : Nat} (hb : base ≤ 16) {ds : List Nat} {cs : List Char} (hds : ∀ d ∈ ds, d < base)
    (h : List.Forall₂ WritesDigit ds cs) (acc : Nat) :
    parseDigits base acc cs = some (ds.foldl (fun n d => base * n + d) acc) := by
  induction h generalizing acc with
  | nil => rfl
  | @cons d c ds cs hdc _ ih =>
    obtain ⟨hd, hds⟩ := List.forall_mem_cons.1 hds
    simp [parseDigits, digitValue_of_writesDigit (hd.trans_le hb) hdc, hd, ih hds]

/-- Without an `x` the digits are decimal. -/
theorem parseNumber_decimal {cs : List Char} (hne : cs ≠ []) (hx : 'x' ∉ cs) :
    parseNumber cs = parseDigits 10 0 cs := by
  unfold parseNumber
  split
  case h_4 => rfl
  all_goals simp at hne hx

theorem parseNumber_hex {hs : List Char} (hne : hs ≠ []) : parseNumber ('0' :: 'x' :: hs) = parseDigits 16 0 hs := by
  cases hs with
  | nil => exact absurd rfl hne
  | cons => rfl

/-- As many characters are written as there are digits. -/
theorem ne_nil_of_writesDigits {ds : List Nat} {cs : List Char} (hne : ds ≠ []) (h : List.Forall₂ WritesDigit ds cs) :
    cs ≠ [] := by
  rintro rfl
  cases h
  exact hne rfl

/-- A numeral is a word of the line. -/
theorem isWord_of_numeral {cs : List Char} {n : Nat} (h : Numeral cs n) : IsWord cs := by
  have hword : ∀ {cs : List Char}, (∀ c ∈ cs, (digitValue c).isSome = true) → ∀ c ∈ cs, isWordChar c = true :=
    fun hcs c hc => isWordChar_of_digitValue (Option.some_get (hcs c hc)).symm
  obtain ⟨ds, hne, hds, hcs, -⟩ | ⟨ds, hs, -, hds, rfl, hcs, -⟩ := h
  · exact ⟨ne_nil_of_writesDigits hne hcs, hword (digitValue_isSome (by decide) hds hcs)⟩
  · have hhs := hword (digitValue_isSome (by decide) hds hcs)
    exact ⟨nofun, List.forall_mem_cons.2 ⟨rfl, List.forall_mem_cons.2 ⟨rfl, hhs⟩⟩⟩

/-- A numeral parses to its number (R77). -/
theorem parseNumber_numeral {cs : List Char} {n : Nat} (h : Numeral cs n) : parseNumber cs = some n := by
  obtain ⟨ds, hne, hds, hcs, rfl⟩ | ⟨ds, hs, hne, hds, rfl, hcs, rfl⟩ := h
  · have hx : 'x' ∉ cs := fun hx => nomatch digitValue_isSome (by decide) hds hcs 'x' hx
    exact (parseNumber_decimal (ne_nil_of_writesDigits hne hcs) hx).trans (parseDigits_digits (by decide) hds hcs 0)
  · exact (parseNumber_hex (ne_nil_of_writesDigits hne hcs)).trans (parseDigits_digits (by decide) hds hcs 0)

theorem parseOperand_inRange {cs : List Char} {n : Nat} (h : Numeral cs n) (hn : n < 65536) :
    parseOperand cs = .ok (BitVec.ofNat 16 n) := by
  simp [parseOperand, parseNumber_numeral h, hn]

theorem parseOperand_outOfRange {cs : List Char} {n : Nat} (h : Numeral cs n) (hn : 65536 ≤ n) :
    parseOperand cs = .error .outOfRange := by
  simp [parseOperand, parseNumber_numeral h, hn]

/-! ### Lines -/

theorem asmWords_allBlanks {bs : List Char} (h : Blanks bs) : asmWords [] bs = [] :=
  List.append_nil bs ▸ asmWords_blanks h []

/-- The last word of a line, with only blanks after it. -/
theorem asmWords_lastWord {w bs : List Char} (hw : IsWord w) (h : Blanks bs) : asmWords [] (w ++ bs) = [w] := by
  have hend : EndsWord bs := List.append_nil bs ▸ endsWord_blanks h (.inr endsWord_nil)
  rw [asmWords_word hw hend, asmWords_allBlanks h]

/-- A mnemonic with no operand. -/
theorem asmWords_mnemonic {w b₀ b₁ : List Char} (hw : IsWord w) (h₀ : Blanks b₀) (h₁ : Blanks b₁) :
    asmWords [] (b₀ ++ w ++ b₁) = [w] := by
  rw [List.append_assoc, asmWords_blanks h₀, asmWords_lastWord hw h₁]

/-- A mnemonic, blanks, and what follows. -/
theorem asmWords_mnemonic_operands {w b₀ b₁ : List Char} (hw : IsWord w) (h₀ : Blanks b₀) (h₁ : Blanks b₁)
    (hb : b₁ ≠ []) (rest : List Char) :
    asmWords [] (b₀ ++ (w ++ (b₁ ++ rest))) = w :: asmWords [] rest := by
  rw [asmWords_blanks h₀, asmWords_word hw (endsWord_blanks h₁ (.inl hb)), asmWords_blanks h₁]

/-- The words of a line with one operand. -/
theorem asmWords_one {w a b₀ b₁ b₂ : List Char} (hw : IsWord w) (ha : IsWord a) (h₀ : Blanks b₀) (h₁ : Blanks b₁)
    (hb : b₁ ≠ []) (h₂ : Blanks b₂) : asmWords [] (b₀ ++ w ++ b₁ ++ a ++ b₂) = [w, a] := by
  simp only [List.append_assoc]
  rw [asmWords_mnemonic_operands hw h₀ h₁ hb, asmWords_lastWord ha h₂]

/-- The words of a line with two operands. -/
theorem asmWords_two {w a v b₀ b₁ b₂ b₃ b₄ : List Char} (hw : IsWord w) (ha : IsWord a) (hv : IsWord v) (h₀ : Blanks b₀)
    (h₁ : Blanks b₁) (hb : b₁ ≠ []) (h₂ : Blanks b₂) (h₃ : Blanks b₃) (h₄ : Blanks b₄) :
    asmWords [] (b₀ ++ w ++ b₁ ++ a ++ b₂ ++ [','] ++ b₃ ++ v ++ b₄) = [w, a, [','], v] := by
  simp only [List.append_assoc, List.cons_append, List.nil_append]
  rw [asmWords_mnemonic_operands hw h₀ h₁ hb, asmWords_word ha (endsWord_blanks h₂ (.inr (endsWord_comma _))),
    asmWords_blanks h₂, asmWords_comma, asmWords_blanks h₃, asmWords_lastWord hv h₄]

theorem assembleLine_readWord {line a : List Char} (h : asmWords [] line = ["READ_WORD".toList, a]) :
    assembleLine line = (parseOperand a).map fun a => some (.readWord a) := by
  simp [assembleLine, h]

theorem assembleLine_writeWord {line a v : List Char} (h : asmWords [] line = ["WRITE_WORD".toList, a, [','], v]) :
    assembleLine line = (parseOperand a).bind fun a => (parseOperand v).map fun v => some (.writeWord a v) := by
  cases ha : parseOperand a <;> simp [assembleLine, h, ha, Except.bind]

theorem assembleLine_writeEnable {line : List Char}
    (h : asmWords [] line = ["WRITE_ENABLE".toList] ∨ asmWords [] line = ["EWEN".toList]) :
    assembleLine line = .ok (some .writeEnable) := by
  obtain h | h := h <;> simp [assembleLine, h]

theorem assembleLine_writeDisable {line : List Char}
    (h : asmWords [] line = ["WRITE_DISABLE".toList] ∨ asmWords [] line = ["EWDS".toList]) :
    assembleLine line = .ok (some .writeDisable) := by
  obtain h | h := h <;> simp [assembleLine, h]

theorem assembleLine_noWords {line : List Char} (h : asmWords [] line = []) : assembleLine line = .ok none := by
  simp [assembleLine, h]

/-- A line's words are all that is assembled. -/
theorem assembleLine_congr {line line' : List Char} (h : asmWords [] line = asmWords [] line') :
    assembleLine line = assembleLine line' := by
  simp only [assembleLine, h]

/-- What a mapped answer holds is the map's value. -/
theorem exceptMap_eq_ok {ε α β : Type} {f : α → β} {x : Except ε α} {y : β} (h : x.map f = .ok y) :
    ∃ a, y = f a := by
  cases x with
  | error e => cases h
  | ok a => exact ⟨a, (Except.ok.inj h).symm⟩

/-- A line assembles to none but the four operations (R77). -/
theorem assembleLine_operation {line : List Char} {i : Instr} (h : assembleLine line = .ok (some i)) :
    (∃ a, i = .readWord a) ∨ (∃ a v, i = .writeWord a v) ∨ i = .writeEnable ∨ i = .writeDisable := by
  unfold assembleLine at h
  split at h
  case h_1 => cases h
  case h_2 =>
    split_ifs at h
    case pos =>
      split at h
      · obtain ⟨a, ha⟩ := exceptMap_eq_ok h
        exact .inl ⟨a, Option.some.inj ha⟩
      · cases h
    case pos =>
      split at h
      · split at h
        · cases h
        · obtain ⟨v, hv⟩ := exceptMap_eq_ok h
          exact .inr (.inl ⟨_, v, Option.some.inj hv⟩)
      · cases h
    case pos =>
      cases h
      exact .inr (.inr (.inl rfl))
    case pos =>
      cases h
      exact .inr (.inr (.inr rfl))

/-- R77's mnemonics are words: no blank, comma or semicolon stands in them. -/
theorem mnemonics_areWords :
    IsWord "READ_WORD".toList ∧ IsWord "WRITE_WORD".toList ∧ IsWord "WRITE_ENABLE".toList ∧ IsWord "EWEN".toList ∧
    IsWord "WRITE_DISABLE".toList ∧ IsWord "EWDS".toList := by
  simp [IsWord, isWordChar]

/-- Settles O12: each line's words, then what those words assemble to. -/
theorem assembledLinesAreTheFourOperations : Obligations.AssembledLinesAreTheFourOperations := by
  obtain ⟨hread, hwrite, henable, hewen, hdisable, hewds⟩ := mnemonics_areWords
  refine ⟨fun ca cv a v b₀ b₁ b₂ b₃ b₄ hca hcv h₀ h₁ hb h₂ h₃ h₄ => ?_, fun b₀ b₁ h₀ h₁ => ?_,
    fun line comment => assembleLine_congr (asmWords_comment [] line comment), fun _ _ => assembleLine_operation⟩
  · have hwa := isWord_of_numeral hca
    have hwv := isWord_of_numeral hcv
    have hone := assembleLine_readWord (asmWords_one hread hwa h₀ h₁ hb h₂)
    have htwo := assembleLine_writeWord (asmWords_two hwrite hwa hwv h₀ h₁ hb h₂ h₃ h₄)
    refine ⟨fun ha => ?_, fun ha => ?_, fun ha hv => ?_, fun hav => ?_⟩
    · rw [hone, parseOperand_inRange hca ha]
      rfl
    · rw [hone, parseOperand_outOfRange hca ha]
      rfl
    · rw [htwo, parseOperand_inRange hca ha, parseOperand_inRange hcv hv]
      rfl
    · rw [htwo]
      obtain ha | ha := Nat.lt_or_ge a 65536
      · rw [parseOperand_inRange hca ha, parseOperand_outOfRange hcv (by omega)]
        rfl
      · rw [parseOperand_outOfRange hca ha]
        rfl
  · exact ⟨assembleLine_writeEnable (.inl (asmWords_mnemonic henable h₀ h₁)),
      assembleLine_writeEnable (.inr (asmWords_mnemonic hewen h₀ h₁)),
      assembleLine_writeDisable (.inl (asmWords_mnemonic hdisable h₀ h₁)),
      assembleLine_writeDisable (.inr (asmWords_mnemonic hewds h₀ h₁)),
      assembleLine_noWords (asmWords_allBlanks h₀)⟩

end Sys2Proof.Machine

/-! SUPPORT. The engine statements, the micro-operations' traces: START, PUT_BITS, GET_BITS, END and WAIT (R82 to R85, R95),
in the spec's spelling of their writes. -/

namespace Sys2Proof.Machine

/-! ### The written values in the spec's spelling -/

/-- START's second write is its first one with SK raised (R82). -/
theorem startHigh_eq_skHigh {cfg : Config} (hok : cfg.ok = true) (r : Word32) :
    startHigh cfg r = setl cfg (startLow cfg r) .sk true := by
  rw [← driveLines_skHigh, startLow, driveLines_driveLines hok]
  rfl

/-- A bit's second write is its first one with SK raised (R83). -/
theorem driveLines_bitHigh {cfg : Config} (hok : cfg.ok = true) (c : Word32) (b : Bool) :
    driveLines cfg c (some true) none (some b) =
      setl cfg (setl cfg (setl cfg (setl cfg c .sk false) .di b) .doe b) .sk true := by
  rw [← driveLines_bit, ← driveLines_skHigh, driveLines_driveLines hok]
  rfl

/-- The events of a bit, in the spec's spelling (R83). -/
theorem bitEvents_eq_setl {cfg : Config} (hok : cfg.ok = true) (c : Word32) :
    bitEvents cfg c = fun b =>
      [.write (setl cfg (setl cfg (setl cfg c .sk false) .di b) .doe b), .delay 2,
       .write (setl cfg (setl cfg (setl cfg (setl cfg c .sk false) .di b) .doe b) .sk true), .delay 2] := by
  funext b
  rw [bitEvents, driveLines_bitHigh hok, driveLines_bit]

/-- A sample's second write is its first one with SK raised (R84). -/
theorem driveLines_sampleHigh {cfg : Config} (hok : cfg.ok = true) (m : Word32) :
    driveLines cfg m (some true) none none = setl cfg (setl cfg m .sk false) .sk true := by
  rw [← driveLines_skLow, ← driveLines_skHigh, driveLines_driveLines hok]
  rfl

/-- The events of a sample, in the spec's spelling (R84). -/
theorem sampleEvents_eq_setl {cfg : Config} (hok : cfg.ok = true) (m : Word32) :
    sampleEvents cfg m = fun r =>
      [.write (setl cfg m .sk false), .delay 2, .write (setl cfg (setl cfg m .sk false) .sk true), .delay 3, .read r] := by
  funext r
  rw [sampleEvents, driveLines_sampleHigh hok, driveLines_skLow]

/-- END's value, CS first as R85 writes it: the order of distinct lines does not matter. -/
theorem endValue_eq_csFirst {cfg : Config} (hok : cfg.ok = true) (c : Word32) :
    endValue cfg c = setl cfg (setl cfg (setl cfg (setl cfg c .cs false) .sk false) .di false) .doe false := by
  change _ = driveLines cfg (driveLines cfg (driveLines cfg c none (some false) none) (some false) none none)
    none none (some false)
  rw [driveLines_driveLines hok, driveLines_driveLines hok]
  rfl

/-! ### START (R82) -/

/-- Settles O14: `runActs_start` with its second write spelled out. -/
theorem startRaisesChipSelectAndClocksTheStartBit : Obligations.StartRaisesChipSelectAndClocksTheStartBit := by
  intro s hok hp
  obtain ⟨hctl, hcreg, hphase, -, -, hhist⟩ := runActs_start s hok
  rw [startHigh_eq_skHigh hok] at hctl hcreg hhist
  exact ⟨_, readValue s, engineOp_runs _ hok rfl hp nofun, rfl, hhist, hctl, hcreg, hphase⟩

/-! ### PUT_BITS (R83) -/

/-- The last bit sent of a value is its bit 0 (R45, R83). -/
theorem getLast?_msbBits_succ (v : Word32) (n : Nat) : (msbBits v (n + 1)).getLast? = some (v.getLsbD 0) := by
  induction n with
  | zero => rfl
  | succ n ih => rw [msbBits, List.getLast?_cons, ih]; rfl

/-- The lines once `n` bits of a value are out, in the spec's spelling (R83). -/
theorem clockedValue_msbBits {cfg : Config} (hok : cfg.ok = true) (c v : Word32) (n : Nat) :
    clockedValue cfg c (msbBits v n) = if n = 0 then c else
      setl cfg (setl cfg (setl cfg (setl cfg c .sk false) .di (v.getLsbD 0)) .doe (v.getLsbD 0)) .sk true := by
  cases n with
  | zero => rfl
  | succ n => simp [clockedValue, getLast?_msbBits_succ, driveLines_bitHigh hok]

theorem msbBits_eq_nil_iff (v : Word32) (n : Nat) : msbBits v n = [] ↔ n = 0 := by
  rw [← List.length_eq_zero_iff, msbBits_length]

/-- Settles O15: PUT_BITS clocks out the bits of `msbBits`. -/
theorem putBitsClocksItsBitsOut : Obligations.PutBitsClocksItsBitsOut := by
  intro s v n c hok hp hc hn
  obtain ⟨hctl, hcreg, hhist⟩ := runActs_clock (msbBits v n) s hok c hc
  have hphase := runActs_phase _ s fun a ha => (clockActs_kinds (msbBits v n) a ha).2.1
  rw [clockedValue_msbBits hok] at hctl hcreg
  simp only [msbBits_eq_nil_iff] at hcreg
  rw [← putActs_eq_clockActs] at hctl hcreg hhist hphase
  refine ⟨_, engineOp_runs _ hok (by simpa [Instr.wf] using hn) hp (by simp [hc]), ?_, hctl, ?_, hphase.trans hp⟩
  · rwa [bitEvents_eq_setl hok] at hhist
  · rw [hcreg]
    by_cases h0 : n = 0 <;> simp [h0]

/-! ### GET_BITS (R84) -/

/-- Settles O16: GET_BITS' samples, counted by `accAfter_toNat`. -/
theorem getBitsAccumulatesItsSamples : Obligations.GetBitsAccumulatesItsSamples := by
  intro s n c hok hp hc hn
  obtain ⟨rs, hlen, hctl, hcreg, hacc, hhist⟩ := runActs_get n s hok c hc
  have hphase := runActs_phase _ s fun a ha => (getActs_kinds n a ha).2
  refine ⟨_, rs, _, engineOp_runs _ hok (by simpa [Instr.wf] using hn) hp (by simp [hc]), hlen, ?_, hacc,
    accAfter_toNat s.cfg rs (hlen.trans_le hn), ?_, by rw [hctl, hcreg], hphase.trans hp⟩
  · rw [sampleEvents_eq_setl hok] at hhist
    rw [Added, List.reverse_cons, List.append_assoc]
    exact hhist
  · rw [hctl, driveLines_sampleHigh hok]
    rfl

/-! ### END (R85) -/

/-- Settles O17: `runActs_end`, its value with CS first. -/
theorem endLowersTheLinesInOneWrite : Obligations.EndLowersTheLinesInOneWrite := by
  intro s c hok hp hc
  obtain ⟨hctl, hcreg, hphase, -, -, hhist⟩ := runActs_end s c hc
  have hlow : linesLow s.cfg (endValue s.cfg c) = true := linesLow_driveLines hok c
  rw [← hcreg] at hlow
  rw [endValue_eq_csFirst hok] at hctl hcreg hhist
  exact ⟨_, engineOp_runs _ hok rfl hp (by simp [hc]), hhist, hctl, hcreg, hlow, hphase⟩

/-! ### WAIT (R95 to R97) -/

/-- Settles O18: `waitBody_spec`, END's value with CS first. -/
theorem waitPollsAndEnds : Obligations.WaitPollsAndEnds := by
  intro s c hok hp hc
  obtain ⟨earlier, last, hhist, hzero, hret, hctl, hcreg, hphase, -⟩ := waitBody_spec s hok c hc
  rw [endValue_eq_csFirst hok] at hhist hctl hcreg
  exact ⟨_, earlier, last, engineOp_runs _ hok rfl hp (by simp [hc]), hhist, hzero, hret, hctl, hcreg, hphase⟩

end Sys2Proof.Machine

/-! SUPPORT. The engine statements, the lockstep of DOE with DI: every write of every row sets DI, or changes other lines
of a value whose DI was set (R80, R81). -/

namespace Sys2Proof.Machine

/-! ### Values and events in lockstep -/

/-- In every write of some events DOE equals DI where it is wired (R81). -/
def WritesInLockstep (cfg : Config) (evs : List Event) : Prop := ∀ v ∈ writesOf evs, lockstep cfg v = true

/-- A change that sets DI sets DOE with it (R81). -/
theorem lockstep_driveLines_di {cfg : Config} (hok : cfg.ok = true) (c : Word32) (sk cs : Option Bool) (b : Bool) :
    lockstep cfg (driveLines cfg c sk cs (some b)) = true := lockstep_driveLines hok c sk cs _ (.inl rfl)

/-- END sets DI low (R85). -/
theorem lockstep_endValue {cfg : Config} (hok : cfg.ok = true) (c : Word32) : lockstep cfg (endValue cfg c) = true :=
  lockstep_driveLines_di hok c _ _ _

theorem writesInLockstep_append {cfg : Config} {es fs : List Event} (h : WritesInLockstep cfg es)
    (k : WritesInLockstep cfg fs) : WritesInLockstep cfg (es ++ fs) := by
  intro v hv
  rw [writesOf_append] at hv
  exact (List.mem_append.1 hv).elim (h v) (k v)

/-- Events that write nothing. -/
theorem writesInLockstep_of_quiet {cfg : Config} {es : List Event} (h : writesOf es = []) :
    WritesInLockstep cfg es := by
  intro v hv
  rw [h] at hv
  cases hv

theorem writesInLockstep_write {cfg : Config} {v : Word32} {es : List Event} (hv : lockstep cfg v = true)
    (h : WritesInLockstep cfg es) : WritesInLockstep cfg (.write v :: es) := List.forall_mem_cons.2 ⟨hv, h⟩

/-- The bits of PUT_BITS set DI, whatever the shadow value held (R83). -/
theorem writesInLockstep_bits {cfg : Config} (hok : cfg.ok = true) (c : Word32) (bits : List Bool) :
    WritesInLockstep cfg (bits.flatMap (bitEvents cfg c)) := by
  intro v hv
  rw [writesOf_bits] at hv
  obtain ⟨b, -, hv⟩ := List.mem_flatMap.1 hv
  obtain rfl | rfl := List.mem_pair.1 hv <;> exact lockstep_driveLines_di hok c _ _ _

/-- The samples of GET_BITS move SK alone, from a value in lockstep (R84). -/
theorem writesInLockstep_samples {cfg : Config} (hok : cfg.ok = true) {m : Word32} (hm : lockstep cfg m = true)
    (rs : List Word32) : WritesInLockstep cfg (rs.flatMap (sampleEvents cfg m)) := by
  intro v hv
  rw [writesOf_samples] at hv
  obtain ⟨r, -, hv⟩ := List.mem_flatMap.1 hv
  obtain rfl | rfl := List.mem_pair.1 hv <;> exact lockstep_driveLines hok m _ _ _ (.inr hm)

/-- START and the bits of a frame (R62, R82). -/
theorem writesInLockstep_head {cfg : Config} (hok : cfg.ok = true) (r : Word32) (bits : List Bool) {es : List Event}
    (h : WritesInLockstep cfg es) : WritesInLockstep cfg (headEvents cfg r bits es) := by
  have hlow : lockstep cfg (startLow cfg r) = true := lockstep_driveLines_di hok r _ _ _
  have hhigh : lockstep cfg (startHigh cfg r) = true := lockstep_driveLines_di hok r _ _ _
  have hstart : WritesInLockstep cfg (startEvents cfg r) := by
    simp [WritesInLockstep, startEvents, writesOf, hlow, hhigh]
  exact writesInLockstep_append hstart (writesInLockstep_append (writesInLockstep_bits hok _ bits) h)

/-- The framing check's read, the read-mode write, the samples and END (R84, R85, R90). -/
theorem writesInLockstep_readTail {cfg : Config} (hok : cfg.ok = true) {m : Word32} (hm : lockstep cfg m = true)
    (dummy c : Word32) (rs : List Word32) {after : List Event} (hafter : writesOf after = []) :
    WritesInLockstep cfg (.read dummy :: .write m :: (rs.flatMap (sampleEvents cfg m) ++
      (.write (endValue cfg c) :: after))) :=
  writesInLockstep_write (es := rs.flatMap (sampleEvents cfg m) ++ _) hm
    (writesInLockstep_append (writesInLockstep_samples hok hm rs)
      (writesInLockstep_write (lockstep_endValue hok c) (writesInLockstep_of_quiet hafter)))

/-- END's write after events that write nothing (R85). -/
theorem writesInLockstep_end {cfg : Config} (hok : cfg.ok = true) (c : Word32) {before after : List Event}
    (hbefore : writesOf before = []) (hafter : writesOf after = []) :
    WritesInLockstep cfg (before ++ .write (endValue cfg c) :: after) :=
  writesInLockstep_append (writesInLockstep_of_quiet hbefore)
    (writesInLockstep_write (lockstep_endValue hok c) (writesInLockstep_of_quiet hafter))

/-- WAIT's re-assert, its polls and END (R95). -/
theorem writesInLockstep_wait {cfg : Config} (hok : cfg.ok = true) (c e last : Word32) (earlier : List Word32)
    {after : List Event} (hafter : writesOf after = []) :
    WritesInLockstep cfg (.write (reassertValue cfg c) :: (earlierEvents earlier ++
      (.read last :: .write (endValue cfg e) :: after))) :=
  writesInLockstep_write (lockstep_driveLines_di hok c _ _ _)
    (writesInLockstep_append (writesInLockstep_of_quiet (writesOf_earlier earlier))
      (writesInLockstep_end hok e (before := [.read last]) rfl hafter))

/-! ### The rows -/

/-- A run whose writes are all in lockstep (R81). -/
def RunsInLockstep (s t : State) : Prop := ∃ evs, Added s t evs ∧ WritesInLockstep s.cfg evs

/-- READ_WORD: its frame's bits, then END alone or the samples and END (R90). -/
theorem readWordBody_lockstep (a : Word16) (s : State) (hok : s.cfg.ok = true) :
    RunsInLockstep s (readWordBody a (accept s)) := by
  obtain ⟨-, -, -, dummy, m, -, -, -, -, hm, ⟨-, -, -, hadd⟩ | ⟨-, -, rs, -, -, hadd⟩⟩ := readWordBody_events a s hok
  · exact ⟨_, hadd, writesInLockstep_head hok _ _ (writesInLockstep_end hok _ (before := [.read dummy]) rfl rfl)⟩
  · exact ⟨_, hadd, writesInLockstep_head hok _ _ (writesInLockstep_readTail hok hm _ _ rs rfl)⟩

/-- The READ frame (R65). -/
theorem sendRead_lockstep (a : Word16) (s : State) (hok : s.cfg.ok = true) : RunsInLockstep s (sendRead a s) := by
  obtain ⟨-, -, -, dummy, m, -, -, -, -, hm, ⟨-, -, -, hadd⟩ | ⟨-, -, rs, -, -, hadd⟩⟩ := sendRead_spec a s hok
  · exact ⟨_, hadd, writesInLockstep_head hok _ _ (writesInLockstep_end hok _ (before := [.read dummy]) rfl rfl)⟩
  · exact ⟨_, hadd, writesInLockstep_head hok _ _ (writesInLockstep_readTail hok hm _ _ rs rfl)⟩

/-- WRITE_WORD: its frame, then WAIT (R92, R95). -/
theorem writeWordBody_lockstep (a v : Word16) (s : State) (hok : s.cfg.ok = true) :
    RunsInLockstep s (writeWordBody a v (accept s)) := by
  obtain ⟨-, -, earlier, last, -, -, hadd⟩ := writeWordBody_events a v s hok
  exact ⟨_, hadd, writesInLockstep_head hok _ _
    (writesInLockstep_append (es := [.write (endValue s.cfg (readValue s)), .delay 2])
      (writesInLockstep_end hok _ (before := []) rfl rfl) (writesInLockstep_wait hok _ _ last earlier rfl))⟩

/-- The frames that only write (R66 to R68). -/
theorem runActs_frame_lockstep (bits : List Bool) (s : State) (hok : s.cfg.ok = true) :
    RunsInLockstep s (runActs (frameActs bits) s) :=
  ⟨_, (runActs_frame_events bits s hok).1,
    writesInLockstep_head hok _ _ (writesInLockstep_end hok _ (before := []) rfl rfl)⟩

/-- WRITE_ENABLE and WRITE_DISABLE (R93, R94). -/
theorem frameBody_lockstep (bits : List Bool) (s : State) (hok : s.cfg.ok = true) :
    RunsInLockstep s (complete .ok 0 (runActs (frameActs bits) (accept s))) := by
  obtain ⟨-, -, -, hadd⟩ := frameBody_events bits s hok
  exact ⟨_, hadd, writesInLockstep_head hok _ _ (writesInLockstep_end hok _ (before := []) rfl rfl)⟩

/-- START (R82). -/
theorem runActs_start_lockstep (s : State) (hok : s.cfg.ok = true) : RunsInLockstep s (runActs startActs s) := by
  obtain ⟨-, -, -, -, -, hadd⟩ := runActs_start s hok
  exact ⟨headEvents s.cfg (readValue s) [] [], hadd, writesInLockstep_head hok _ _ (writesInLockstep_of_quiet rfl)⟩

section
variable {s : State} (hok : s.cfg.ok = true) {c : Word32} (hc : s.ctl = some c)
include hok hc

/-- PUT_BITS from any shadow value (R83). -/
theorem runActs_put_lockstep (v : Word32) (n : Nat) : RunsInLockstep s (runActs (putActs v n) s) := by
  obtain ⟨-, -, hadd⟩ := runActs_clock (msbBits v n) s hok c hc
  rw [putActs_eq_clockActs]
  exact ⟨_, hadd, writesInLockstep_bits hok c _⟩

/-- GET_BITS from any shadow value: its read-mode write sets DI (R84). -/
theorem runActs_get_lockstep (n : Nat) : RunsInLockstep s (runActs (getActs n) s) := by
  obtain ⟨rs, -, -, -, -, hadd⟩ := runActs_get n s hok c hc
  have hm : lockstep s.cfg (readModeValue s.cfg c) = true := lockstep_driveLines_di hok c _ _ _
  refine ⟨.write (readModeValue s.cfg c) :: rs.flatMap (sampleEvents s.cfg (readModeValue s.cfg c)), ?_,
    writesInLockstep_write hm (writesInLockstep_samples hok hm rs)⟩
  rw [Added, hadd, List.reverse_cons, List.append_assoc]
  rfl

/-- END from any shadow value (R85). -/
theorem runActs_end_lockstep : RunsInLockstep s (runActs endActs s) := by
  obtain ⟨-, -, -, -, -, hadd⟩ := runActs_end s c hc
  exact ⟨[.write (endValue s.cfg c), .delay 2], hadd, writesInLockstep_end hok c (before := []) rfl rfl⟩

/-- WAIT from any shadow value: its re-assert sets DI (R95). -/
theorem waitBody_lockstep : RunsInLockstep s (waitBody s) := by
  obtain ⟨earlier, last, hadd, -⟩ := waitBody_spec s hok c hc
  exact ⟨_, hadd, writesInLockstep_wait hok _ _ last earlier rfl⟩

end

/-- Settles O32, row by row: the first write of each sequence sets DI, and with it DOE. -/
theorem everyWriteKeepsOutputEnableWithDataIn : Obligations.EveryWriteKeepsOutputEnableWithDataIn := by
  intro s t i h
  obtain ⟨hok, -, ⟨-, st, -, rfl⟩ | ⟨-, -, -, hop⟩ | ⟨-, -, hrow⟩ | ⟨-, hctl, -, hrow⟩⟩ := exec_next h
  · exact ⟨[.completed st 0], rfl, writesInLockstep_of_quiet rfl⟩
  · obtain ⟨a, -, rfl⟩ | ⟨a, v, -, rfl⟩ | ⟨-, rfl⟩ | ⟨-, rfl⟩ := hop
    · exact readWordBody_lockstep a s hok
    · exact writeWordBody_lockstep a v s hok
    · rw [writeEnableBody_eq]; exact frameBody_lockstep _ s hok
    · rw [writeDisableBody_eq]; exact frameBody_lockstep _ s hok
  · obtain ⟨a, -, rfl⟩ | ⟨a, v, -, rfl⟩ | ⟨-, rfl⟩ | ⟨-, rfl⟩ | ⟨-, rfl⟩ | ⟨-, rfl, hctl⟩ := hrow
    · exact sendRead_lockstep a s hok
    · rw [writeActs_eq]; exact runActs_frame_lockstep _ s hok
    · rw [ewenActs_eq]; exact runActs_frame_lockstep _ s hok
    · rw [ewdsActs_eq]; exact runActs_frame_lockstep _ s hok
    · exact runActs_start_lockstep s hok
    · obtain ⟨c, hc⟩ := Option.isSome_iff_exists.1 hctl
      exact waitBody_lockstep hok hc
  · obtain ⟨c, hc⟩ := Option.isSome_iff_exists.1 hctl
    obtain ⟨v, n, -, rfl⟩ | ⟨n, -, rfl⟩ | ⟨-, rfl⟩ := hrow
    · exact runActs_put_lockstep hok hc v n
    · exact runActs_get_lockstep hok hc n
    · exact runActs_end_lockstep hok hc

end Sys2Proof.Machine

/-! SUPPORT. The engine statements, the bytes that the micro-operations keep: only END lowers CS, so only END begins to
program, and only the WRITE that the part has shifted in (R129). -/

namespace Sys2Proof.Machine

/-! ### Steps of the part's own -/

/-- A step of the part's own moves no pending write (R129, R130). -/
theorem pendingWrite_ticks (aw n : Nat) (p : Part) : Part.pendingWrite aw (Part.ticks n p) = Part.pendingWrite aw p := by
  unfold Part.pendingWrite
  rw [ticks_cmd, ticks_we]

theorem spares_ticks {aw x : Nat} {p : Part} (n : Nat) (h : Part.Spares aw x p) :
    Part.Spares aw x (Part.ticks n p) := by
  unfold Part.Spares
  rw [pendingWrite_ticks]
  exact h

/-! ### Actions that keep CS -/

/-- An action that leaves CS as it is, and makes no branch and no completion: those of PUT_BITS and GET_BITS. -/
def Act.keepsCs : Act → Bool
  | .drive _ _ cs _ => cs.isNone
  | .hold _ _ _ => true
  | .readMode => true
  | .sample => true
  | _ => false

theorem putActs_keepsCs (v : Word32) (n : Nat) : ∀ a ∈ putActs v n, a.keepsCs = true := by
  intro a ha
  rw [putActs_eq_clockActs] at ha
  obtain ⟨b, -, hb⟩ := List.mem_flatMap.1 ha
  simp only [bitActs, List.mem_cons, List.not_mem_nil, or_false] at hb
  obtain rfl | rfl | rfl | rfl := hb <;> rfl

theorem getActs_keepsCs (n : Nat) : ∀ a ∈ getActs n, a.keepsCs = true :=
  getActs_forall (P := fun a => a.keepsCs = true) rfl (by simp [sampleActs, Act.keepsCs]) n

/-- A reference part is attached and the lines are those of the shadow value (R52, R127). -/
structure Synced (s : State) : Prop where
  ok : s.cfg.ok = true
  attached : s.attached = .reference
  ctl : s.ctl = some s.creg

section
variable {x : Nat} {v : Byte}

/-- A write that leaves CS as it is ends no frame, so the part keeps its bytes (R129, R131). -/
theorem drive_keepsCs_holds {s : State} (hs : Synced s) (h : Part.Holds x v s.part) (sk di : Option Bool) :
    Synced (drive sk none di s) ∧ Part.Holds x v (drive sk none di s).part := by
  obtain ⟨hok, ha, hc⟩ := hs
  obtain ⟨-, hctl, -⟩ := drive_spec sk none di s s.creg hc
  have hcs : level s.cfg (driveLines s.cfg s.creg sk none di) .cs = level s.cfg s.creg .cs :=
    level_driveLines_cs hok s.creg sk none di
  refine ⟨⟨by simpa using hok, by simpa using ha, hctl⟩, ?_⟩
  cases hl : level s.cfg s.creg .cs with
  | true =>
    obtain ⟨hpart, -, -⟩ := drive_part_selected sk none di s _ hc ha (hcs.trans hl)
    rw [hpart]
    split
    · exact holds_clock _ _ h
    · exact h
  | false =>
    obtain ⟨hpart, -⟩ := drive_part_deselected sk none di s _ hc ha (hcs.trans hl)
    rw [hpart, hl]
    exact h.congr rfl rfl

theorem runAct_keepsCs_holds {a : Act} {s : State} (ha : a.keepsCs = true) (hs : Synced s)
    (h : Part.Holds x v s.part) : Synced (runAct a s) ∧ Part.Holds x v (runAct a s).part := by
  cases a with
  | drive p sk cs di =>
    obtain rfl : cs = none := by simpa [Act.keepsCs] using ha
    exact drive_keepsCs_holds hs h sk di
  | readMode =>
    obtain ⟨⟨hok, hat, hctl⟩, hh⟩ := drive_keepsCs_holds hs h none (some true)
    exact ⟨⟨hok, hat, hctl⟩, hh⟩
  | hold p k next =>
    refine ⟨⟨by simpa [runAct] using hs.ok, by simpa [runAct] using hs.attached, by simpa [runAct] using hs.ctl⟩, ?_⟩
    simp only [runAct, delay_eq]
    rw [partStep_part _ (by simpa using hs.attached)]
    exact holds_tick _ h
  | sample =>
    refine ⟨⟨by simpa [runAct] using hs.ok, by simpa [runAct] using hs.attached, by simpa [runAct] using hs.ctl⟩, ?_⟩
    simpa [runAct] using h
  | _ => cases ha

/-- PUT_BITS and GET_BITS keep every byte but those of a word being programmed (R83, R84, R129). -/
theorem runActs_keepsCs_holds (as : List Act) {s : State} (has : ∀ a ∈ as, a.keepsCs = true) (hs : Synced s)
    (h : Part.Holds x v s.part) : Part.Holds x v (runActs as s).part := by
  induction as generalizing s with
  | nil => exact h
  | cons a as ih =>
    obtain ⟨hs', h'⟩ := runAct_keepsCs_holds (has a (by simp)) hs h
    exact ih (fun b hb => has b (by simp [hb])) hs' h'

/-! ### START and WAIT -/

/-- START raises CS, so it ends no frame (R82, R129). -/
theorem runActs_start_holds (s : State) (hok : s.cfg.ok = true) (ha : s.attached = .reference)
    (h : Part.Holds x v s.part) : Part.Holds x v (runActs startActs s).part := by
  rw [(runActs_start_part s hok ha).1]
  exact holds_tick _ (holds_clock _ _ (holds_tick _ h))

/-- WAIT clocks nothing into the part; its END ends the frame that the part was in (R95, R96, R129). -/
theorem waitBody_spares_holds {s : State} (hs : Synced s) (hx : Part.Spares s.cfg.aw x s.part)
    (h : Part.Holds x v s.part) : Part.Holds x v (waitBody s).part := by
  obtain ⟨hok, ha, hc⟩ := hs
  obtain ⟨hpart, -, -⟩ := waitBegin_part s hok ha hc
  obtain ⟨hctl, -, -⟩ := waitBegin_spec s s.creg hc
  obtain ⟨k, hk⟩ := pollLoop_ticks (waitBegin s).deadline (waitBegin s) (by simpa using ha)
  rw [hpart] at hk
  refine runActs_end_holds (by simpa using hok) (by simpa using ha) (by rw [pollLoop_ctl]; exact hctl) ?_ ?_
  · rw [hk, pollLoop_cfg, waitBegin_cfg]
    exact spares_ticks k hx
  · rw [hk]
    exact holds_ticks k _ h

end

/-- Settles O40: under an oracle no row touches the part; a reference part holds the byte through the actions that keep
CS, and END's frame is that of the WRITE shifted in, which spares it. -/
theorem microOperationsKeepOtherBytes : Obligations.MicroOperationsKeepOtherBytes := by
  intro s t i hi h x hn hx
  cases ha : s.attached with
  | oracle => rw [exec_part_oracle h ha]
  | reference =>
    have hp : Part.Holds x (Memory.read s.part.mem x) s.part := ⟨rfl, hn⟩
    have hok : s.cfg.ok = true := (exec_next h).1
    suffices hh : Part.Holds x (Memory.read s.part.mem x) t.part from hh.1
    obtain rfl | ⟨⟨v, n, rfl⟩ | ⟨n, rfl⟩ | rfl | rfl, hc⟩ := hi
    · obtain ⟨-, rfl⟩ := exec_start_next h
      exact runActs_start_holds s hok ha hp
    · rw [exec_putBits_next h]
      exact runActs_keepsCs_holds _ (putActs_keepsCs v n) ⟨hok, ha, hc⟩ hp
    · rw [exec_getBits_next h]
      exact runActs_keepsCs_holds _ (getActs_keepsCs n) ⟨hok, ha, hc⟩ hp
    · rw [exec_endOp_next h]
      exact runActs_end_holds hok ha hc hx hp
    · obtain ⟨-, -, rfl⟩ := exec_wait_next h
      exact waitBody_spares_holds ⟨hok, ha, hc⟩ hx hp

end Sys2Proof.Machine

/-! SUPPORT. The command statements: what the host operations complete with and which accesses they make (R89 to R94,
R99), and when WAIT ends on a script (R95). -/

namespace Sys2Proof.Machine

/-! ### What a host operation answers -/

/-- An operation that is rejected before any access is answered with its early status (R88, R109). -/
theorem hostOp_early {i : Instr} {s : State} {st : Status} (body : State → State) (hok : s.cfg.ok = true)
    (hb : s.busy = false) (hw : i.wf s.cfg.aw = true) (he : earlyStatus s.cfg i = some st) :
    hostOp i body s = .next (raiseStatus st s) := by
  simp [hostOp, hok, hb, hw, he]

/-- Settles O29: the range check answers both operations alike, by `raiseStatus`. -/
theorem addressOutOfRangeMakesNoAccess : Obligations.AddressOutOfRangeMakesNoAccess := by
  intro s addr value hok hb haddr
  have hout : outOfRange s.cfg addr = true := decide_eq_true haddr
  have hread : exec (.readWord addr) s = .next (raiseStatus .addressOutOfRange s) :=
    hostOp_early _ hok hb rfl (if_pos hout)
  have hwrite : exec (.writeWord addr value) s = .next (raiseStatus .addressOutOfRange s) :=
    hostOp_early _ hok hb rfl (if_pos hout)
  refine ⟨?_, hread, hwrite.trans hread.symm⟩
  rw [← (Config.admitted hok).capacity, Nat.mul_div_cancel _ Nat.two_pos]

theorem exec_readWord {s : State} {a : Word16} (hr : Ready s) (he : earlyStatus s.cfg (.readWord a) = none) :
    exec (.readWord a) s = .next (readWordBody a (accept s)) := hostOp_accepted _ hr rfl he

theorem exec_writeWord {s : State} {a v : Word16} (hr : Ready s) (he : earlyStatus s.cfg (.writeWord a v) = none) :
    exec (.writeWord a v) s = .next (writeWordBody a v (accept s)) := hostOp_accepted _ hr rfl he

theorem exec_writeEnable {s : State} (hr : Ready s) :
    exec .writeEnable s = .next (complete .ok 0 (runActs (frameActs (ewenBits s.cfg.aw)) (accept s))) :=
  (hostOp_accepted writeEnableBody hr rfl rfl).trans (by rw [writeEnableBody_eq, accept_cfg])

theorem exec_writeDisable {s : State} (hr : Ready s) :
    exec .writeDisable s = .next (complete .ok 0 (runActs (frameActs (ewdsBits s.cfg.aw)) (accept s))) :=
  (hostOp_accepted writeDisableBody hr rfl rfl).trans (by rw [writeDisableBody_eq, accept_cfg])

/-! ### Completions (R90 to R94) -/

/-- What follows a frame's bits may be cut off at its end, as the completion is. -/
theorem headEvents_append (cfg : Config) (r : Word32) (bits : List Bool) (es fs : List Event) :
    headEvents cfg r bits es ++ fs = headEvents cfg r bits (es ++ fs) := by
  simp [headEvents]

/-- Settles O27: each of the two is one frame that only writes, then the completion. -/
theorem writeEnableAndDisableComplete : Obligations.WriteEnableAndDisableComplete := by
  intro s i hr hi
  obtain ⟨bits, hexec⟩ :
      ∃ bits, exec i s = .next (complete .ok 0 (runActs (frameActs bits) (accept s))) := by
    obtain rfl | rfl := hi
    · exact ⟨_, exec_writeEnable hr⟩
    · exact ⟨_, exec_writeDisable hr⟩
  obtain ⟨hdone, -, -, hadd⟩ := frameBody_events bits s hr.1
  refine ⟨_, headEvents s.cfg (readValue s) bits [.write (endValue s.cfg (readValue s)), .delay 2], hexec, ?_, ?_,
    rfl, rfl, hdone.phase, rfl⟩
  · rw [headEvents_append]
    exact hadd
  · exact readsOf_head _ _ _ _

/-- Settles O24, by the dummy bit: a 1 ends the operation, a 0 is followed by the 16 samples. -/
theorem readWordCompletes : Obligations.ReadWordCompletes := by
  intro s addr hr haddr
  have hexec := exec_readWord hr (earlyStatus_readWord_none haddr)
  obtain ⟨hdone, -, -, dummy, m, -, -, -, -, -, hread⟩ := readWordBody_events addr s hr.1
  obtain ⟨hst, hdata, hd, hadd⟩ | ⟨hst, hd, rs, hlen, hdata, hadd⟩ := hread
  · refine ⟨_, headEvents s.cfg (readValue s) (readBits s.cfg.aw addr)
      [.read dummy, .write (endValue s.cfg (readValue s)), .delay 2], dummy, [], hexec, ?_, readsOf_head _ _ _ _,
      hdone.phase, hdone.busy, fun _ => ⟨rfl, hst, hdata⟩, fun h => Bool.noConfusion (hd.symm.trans h)⟩
    rw [hst, hdata, headEvents_append]
    exact hadd
  · refine ⟨_, headEvents s.cfg (readValue s) (readBits s.cfg.aw addr)
      (.read dummy :: .write m :: (rs.flatMap (sampleEvents s.cfg m) ++
        [.write (endValue s.cfg (readValue s)), .delay 2])), dummy, rs, hexec, ?_, ?_, hdone.phase, hdone.busy,
      fun h => Bool.noConfusion (hd.symm.trans h), fun _ => ⟨hlen, hst, ?_⟩⟩
    · rw [hst, hdata, headEvents_append]
      simpa using hadd
    · simp [readsOf_head, readsOf, (counts_samples s.cfg m rs).2.1]
    · rw [hdata]
      exact readResult_toNat s.cfg rs hlen

/-- WRITE_WORD's range check is READ_WORD's (R89). -/
theorem earlyStatus_writeWord_none {cfg : Config} {a : Word16} (v : Word16) (h : a.toNat < cfg.words) :
    earlyStatus cfg (.writeWord a v) = none := earlyStatus_readWord_none h

/-- Settles O26: the reads after START's are the polls of the completion wait. -/
theorem writeWordCompletes : Obligations.WriteWordCompletes := by
  intro s addr value hr haddr
  obtain ⟨hdone, hdata, earlier, last, hzero, hst, hadd⟩ := writeWordBody_events addr value s hr.1
  refine ⟨_, headEvents s.cfg (readValue s) (writeBits s.cfg.aw addr value)
    (.write (endValue s.cfg (readValue s)) :: .delay 2 ::
      .write (reassertValue s.cfg (endValue s.cfg (readValue s))) ::
      (earlierEvents earlier ++ [.read last, .write (endValue s.cfg (readValue s)), .delay 2])), earlier, last,
    exec_writeWord hr (earlyStatus_writeWord_none value haddr), ?_, ?_, ?_, hzero, hst, hdata, hdone.phase, hdone.busy⟩
  · rw [hst, hdata, headEvents_append]
    simpa using hadd
  · simp [readsOf_head, readsOf, readsOf_earlier]
  · simp [yieldsOf_head, yieldsOf, yieldsOf_earlier]

/-! ### Numbers of accesses (R99) -/

/-- The numbers of reads and writes among some events, their minimum busy-wait time and their yields: a row of R99's
table. -/
def Tally (evs : List Event) (reads writes wait yields : Nat) : Prop :=
  (readsOf evs).length = reads ∧ (writesOf evs).length = writes ∧ busyWait evs = wait ∧ yieldsOf evs = yields

section
variable {es fs : List Event} {r w b y : Nat}

theorem Tally.append {r' w' b' y' : Nat} (h : Tally es r w b y) (k : Tally fs r' w' b' y') :
    Tally (es ++ fs) (r + r') (w + w') (b + b') (y + y') := by
  obtain ⟨rfl, rfl, rfl, rfl⟩ := h
  obtain ⟨rfl, rfl, rfl, rfl⟩ := k
  simp [Tally]

theorem Tally.read (v : Word32) (h : Tally es r w b y) : Tally (.read v :: es) (r + 1) w b y := by
  obtain ⟨rfl, rfl, rfl, rfl⟩ := h
  exact ⟨rfl, rfl, rfl, rfl⟩

theorem Tally.write (v : Word32) (h : Tally es r w b y) : Tally (.write v :: es) r (w + 1) b y := by
  obtain ⟨rfl, rfl, rfl, rfl⟩ := h
  exact ⟨rfl, rfl, rfl, rfl⟩

theorem Tally.delay (us : Nat) (h : Tally es r w b y) : Tally (.delay us :: es) r w (us + b) y := by
  obtain ⟨rfl, rfl, rfl, rfl⟩ := h
  exact ⟨rfl, rfl, rfl, rfl⟩

/-- START makes one read and two writes of 2 us each, every bit two more (R82, R83). -/
theorem Tally.head (cfg : Config) (v : Word32) (bits : List Bool) (h : Tally es r w b y) :
    Tally (headEvents cfg v bits es) (r + 1) (2 + 2 * bits.length + w) (4 + 4 * bits.length + b) y := by
  obtain ⟨rfl, rfl, rfl, rfl⟩ := h
  exact ⟨by rw [readsOf_head, List.length_cons], writesOf_head_length .., busyWait_head .., yieldsOf_head ..⟩

end

theorem tally_samples (cfg : Config) (m : Word32) (rs : List Word32) :
    Tally (rs.flatMap (sampleEvents cfg m)) rs.length (2 * rs.length) (5 * rs.length) 0 := by
  obtain ⟨hw, hr, hb, hy⟩ := counts_samples cfg m rs
  exact ⟨by rw [hr], hw, hb, hy⟩

theorem tally_earlier (earlier : List Word32) : Tally (earlierEvents earlier) earlier.length 0 0 earlier.length :=
  ⟨by rw [readsOf_earlier], by rw [writesOf_earlier]; rfl, busyWait_earlier _, yieldsOf_earlier _⟩

/-- END's write and hold, then the completion (R85, R37). -/
theorem tally_end (v d : Word32) (st : Status) : Tally [.write v, .delay 2, .completed st d] 0 1 2 0 :=
  ⟨rfl, rfl, rfl, rfl⟩

/-- One frame that only writes, then the completion (R93, R94). -/
theorem frameBody_tally {bits : List Bool} {s : State} (hok : s.cfg.ok = true) {evs : List Event}
    (hadd : Added s (complete .ok 0 (runActs (frameActs bits) (accept s))) evs) :
    Tally evs 1 (3 + 2 * bits.length) (6 + 4 * bits.length) 0 := by
  obtain ⟨-, -, -, hframe⟩ := frameBody_events bits s hok
  obtain rfl := hframe.unique hadd
  obtain ⟨hr, hw, hb, hy⟩ := (tally_end (endValue s.cfg (readValue s)) 0 .ok).head s.cfg (readValue s) bits
  exact ⟨hr, by omega, by omega, hy⟩

/-- READ_WORD on its two paths (R90, R91). -/
theorem readWordBody_tally {a : Word16} {s : State} (hok : s.cfg.ok = true) {evs : List Event}
    (hadd : Added s (readWordBody a (accept s)) evs) :
    ((readWordBody a (accept s)).status = .ok ∧ Tally evs 18 (40 + 2 * s.cfg.aw) (94 + 4 * s.cfg.aw) 0) ∨
    ((readWordBody a (accept s)).status = .protocolFraming ∧
      Tally evs 2 (7 + 2 * s.cfg.aw) (14 + 4 * s.cfg.aw) 0) := by
  have hbits : (readBits s.cfg.aw a).length = s.cfg.aw + 2 := by simp [readBits]
  obtain ⟨-, -, -, dummy, m, -, -, -, -, -, hread⟩ := readWordBody_events a s hok
  obtain ⟨hst, -, -, hframe⟩ | ⟨hst, -, rs, hlen, -, hframe⟩ := hread
  · obtain rfl := hframe.unique hadd
    obtain ⟨hr, hw, hb, hy⟩ := ((tally_end (endValue s.cfg (readValue s)) 0 .protocolFraming).read dummy).head
      s.cfg (readValue s) (readBits s.cfg.aw a)
    exact .inr ⟨hst, hr, by omega, by omega, hy⟩
  · obtain rfl := hframe.unique hadd
    obtain ⟨hr, hw, hb, hy⟩ := ((((tally_samples s.cfg m rs).append
      (tally_end (endValue s.cfg (readValue s)) (readResult (accAfter s.cfg 0 rs)) .ok)).write m).read dummy).head
      s.cfg (readValue s) (readBits s.cfg.aw a)
    exact .inl ⟨hst, by omega, by omega, by omega, hy⟩

/-- WRITE_WORD with the polls of its completion wait (R92, R95, R96). -/
theorem writeWordBody_tally {a v : Word16} {s : State} (hok : s.cfg.ok = true) {evs : List Event}
    (hadd : Added s (writeWordBody a v (accept s)) evs) :
    ∃ earlier : Nat, Tally evs (2 + earlier) (41 + 2 * s.cfg.aw) (80 + 4 * s.cfg.aw) earlier := by
  have hbits : (writeBits s.cfg.aw a v).length = s.cfg.aw + 18 := by simp [writeBits]
  obtain ⟨-, -, earlier, last, -, -, hframe⟩ := writeWordBody_events a v s hok
  obtain rfl := hframe.unique hadd
  obtain ⟨hr, hw, hb, hy⟩ := (((((tally_earlier earlier).append
    ((tally_end (endValue s.cfg (readValue s)) 0 (if doBit s.cfg last then .ok else .writeTimeout)).read last)).write
    (reassertValue s.cfg (endValue s.cfg (readValue s)))).delay 2).write (endValue s.cfg (readValue s))).head
    s.cfg (readValue s) (writeBits s.cfg.aw a v)
  exact ⟨earlier.length, by omega, by omega, by omega, by omega⟩

/-- A row has one answer. -/
theorem exec_next_unique {i : Instr} {s t u : State} (h : exec i s = .next t) (k : exec i s = .next u) : t = u :=
  Host.Outcome.next.inj (h.symm.trans k)

/-- Settles O35: the tally of each operation's events, with the length of its frame. -/
theorem accessCountsOfHostOperations : Obligations.AccessCountsOfHostOperations := by
  intro s t i evs hr h hadd he
  have hok : s.cfg.ok = true := hr.1
  refine ⟨?_, ?_, ?_, ?_, ?_⟩
  · rintro rfl
    obtain rfl := exec_next_unique h (exec_writeEnable hr)
    have hbits : (ewenBits s.cfg.aw).length = s.cfg.aw + 2 := by
      have := (Config.admitted hok).aw_ge
      simp [ewenBits]; omega
    obtain ⟨hreads, hwrites, hwait, hyields⟩ := frameBody_tally hok hadd
    exact ⟨hreads, by omega, by omega, hyields⟩
  · rintro rfl
    obtain rfl := exec_next_unique h (exec_writeDisable hr)
    have hbits : (ewdsBits s.cfg.aw).length = s.cfg.aw + 6 := by simp [ewdsBits]
    obtain ⟨hreads, hwrites, hwait, hyields⟩ := frameBody_tally hok hadd
    exact ⟨hreads, by omega, by omega, hyields⟩
  · rintro a rfl hst
    obtain rfl := exec_next_unique h (exec_readWord hr he)
    obtain ⟨-, htally⟩ | ⟨hst', -⟩ := readWordBody_tally hok hadd
    · exact htally
    · rw [hst] at hst'
      cases hst'
  · rintro a rfl hst
    obtain rfl := exec_next_unique h (exec_readWord hr he)
    obtain ⟨hst', -⟩ | ⟨-, htally⟩ := readWordBody_tally hok hadd
    · rw [hst] at hst'
      cases hst'
    · exact htally
  · rintro a v rfl
    obtain rfl := exec_next_unique h (exec_writeWord hr he)
    obtain ⟨earlier, hreads, hwrites, hwait, hyields⟩ := writeWordBody_tally hok hadd
    exact ⟨earlier + 1, by omega, by omega, hwrites, hwait, by omega⟩

/-! ### WAIT on a script (R95, R121) -/

/-- WAIT takes its deadline off the script (R121; log entry 4). -/
theorem waitBegin_scripted {s : State} {n : Nat} {ns : List Nat} (h : s.deadlines = n :: ns) :
    (waitBegin s).deadline = n ∧ (waitBegin s).deadlines = ns := by
  simp [waitBegin, takeDeadline, nextDeadline, h]

/-- With an oracle for DO and a scripted deadline WAIT makes the polls of the script up to the first 1 or the deadline,
then END (R95, R121). -/
theorem waitBody_script {s : State} {c : Word32} {n : Nat} {ns : List Nat} {zeros : List Word32} {last : Word32}
    {rest : List Word32} (hok : s.cfg.ok = true) (hc : s.ctl = some c) (ho : s.attached = .oracle)
    (hd : s.deadlines = n :: ns) (hans : s.answers = zeros ++ last :: rest)
    (hz : ∀ r ∈ zeros, doBit s.cfg r = false) (hl : zeros.length ≤ n)
    (hor : doBit s.cfg last = true ∨ zeros.length = n) :
    (waitBody s).answers = rest ∧ (waitBody s).deadlines = ns ∧
    (waitBody s).ret = some (if doBit s.cfg last then .ok else .writeTimeout) ∧
    Added s (waitBody s) (.write (reassertValue s.cfg c) :: (earlierEvents zeros ++
      [.read last, .write (endValue s.cfg c), .delay 2])) := by
  obtain ⟨hdl, hdls⟩ := waitBegin_scripted hd
  obtain ⟨hctl, -, hbegin⟩ := waitBegin_spec s c hc
  obtain ⟨hloop, hret, hrest⟩ := pollLoop_script zeros n (waitBegin s) last rest (by simpa using ho) rfl hdl
    (by simpa using hans) (by simpa using hz) hl (by simpa using hor)
  have hwait : waitBody s = runActs endActs (pollLoop n (waitBegin s)) := by rw [← hdl]; rfl
  obtain ⟨-, -, -, -, hkeep, hend⟩ := runActs_end (pollLoop n (waitBegin s)) (reassertValue s.cfg c) (by simpa using hctl)
  have hp := runActs_samePort endActs (pollLoop n (waitBegin s)) endActs_straight
  simp only [pollLoop_cfg, waitBegin_cfg, endValue_reassertValue hok] at hend hret
  rw [hwait]
  refine ⟨hkeep.trans hrest, ?_, hp.ret.trans hret, ?_⟩
  · rw [hp.deadlines, pollLoop_deadlines, hdls]
  · rw [Added, hend, hloop, hbegin]
    simp

/-- Settles O19: `waitBody_script`, END's value with CS first. -/
theorem waitEndsAtReadyOrDeadline : Obligations.WaitEndsAtReadyOrDeadline := by
  intro s c n ns zeros last rest hok hp hc ho hd hans hz hl hor
  obtain ⟨hrest, hdls, hret, hadd⟩ := waitBody_script hok hc ho hd hans hz hl hor
  rw [endValue_eq_csFirst hok] at hadd
  exact ⟨_, engineOp_runs _ hok rfl hp (by simp [hc]), hrest, hdls, hret, hadd⟩

end Sys2Proof.Machine

/-! SUPPORT. The round trip under the reference part (R100, R128, R135): what each of its four operations does to a part at
rest, and the four steps one after another. -/

namespace Sys2Proof.Machine

/-! ### Operations that leave a part at rest -/

/-- An operation has completed with OK, the machine is ready again, and the part is at rest. -/
structure Settled (s t : State) : Prop where
  ready : Ready t
  rest : PartAtRest t
  status : t.status = .ok
  cfg : t.cfg = s.cfg
  moves : t.moves = s.moves

/-- An operation from a part at rest that is done with OK is settled if the part waits and programs as little as before:
END has lowered CS (R98). -/
theorem Done.settled {s t : State} (h : Done s t) (hok : s.cfg.ok = true) (hrest : PartAtRest s) (hst : t.status = .ok)
    (hcmd : t.part.cmd = s.part.cmd) (hprog : t.part.programming = s.part.programming) : Settled s t := by
  obtain ⟨ha, -, hw, hp⟩ := hrest
  have hcs : level t.cfg t.creg .cs = false := by
    rw [h.cfg, h.creg, endValue, level_driveLines_cs hok]
    rfl
  exact ⟨⟨by rw [h.cfg]; exact hok, h.busy, h.phase⟩, ⟨h.attached.trans ha, hcs, hcmd.trans hw, hprog.trans hp⟩, hst,
    h.cfg, h.moves⟩

/-! ### WRITE_ENABLE and WRITE_DISABLE -/

/-- A frame that is no WRITE draws no programming time (R129; log entry 12). -/
theorem runActs_frame_progTimes (bits : List Bool) (s : State) (hok : s.cfg.ok = true) (hr : PartAtRest s)
    (hn : Part.pendingWrite s.cfg.aw { s.part with cmd := .shifting bits } = none) :
    (runActs (frameActs bits) s).progTimes = s.progTimes := by
  obtain ⟨ha, -, hw, hp⟩ := hr
  obtain ⟨u, hcfg, hu, hprog, -, hend⟩ := runActs_frame_part bits s hok ha hw
  have htaken : Part.taken bits s.part = { s.part with cmd := .shifting bits } := by simp [Part.taken, hp]
  rw [tick_idle _ hp, ticks_idle _ (Part.taken bits s.part) hp, htaken] at hu
  obtain ⟨-, hquiet⟩ := partFrameEnd_quiet u (by rw [hcfg, hu]; exact hn)
  rw [hend, hquiet, hprog]

/-- An operation of one frame that is no WRITE settles: the latch is as the frame's bits say, and no time is drawn (R93,
R94, R129). -/
theorem frameBody_settled (bits : List Bool) {s : State} (hok : s.cfg.ok = true) (hrest : PartAtRest s)
    (hn : Part.pendingWrite s.cfg.aw { s.part with cmd := .shifting bits } = none) :
    Settled s (complete .ok 0 (runActs (frameActs bits) (accept s))) ∧
    (complete .ok 0 (runActs (frameActs bits) (accept s))).part =
      { s.part with we := Part.latchAfter s.cfg.aw { s.part with cmd := .shifting bits } } ∧
    (complete .ok 0 (runActs (frameActs bits) (accept s))).progTimes = s.progTimes ∧
    (complete .ok 0 (runActs (frameActs bits) (accept s))).deadlines = s.deadlines := by
  obtain ⟨hdone, -, hdls, -⟩ := frameBody_events bits s hok
  obtain ⟨hpart, -⟩ := frameBody_rest bits s hok hrest hn
  exact ⟨hdone.settled hok hrest rfl (by rw [hpart]) (by rw [hpart]), hpart,
    runActs_frame_progTimes bits (accept s) hok hrest hn, hdls⟩

theorem exec_writeEnable_settled {s : State} (hr : Ready s) (hrest : PartAtRest s) :
    ∃ t, exec .writeEnable s = .next t ∧ Settled s t ∧ t.part = { s.part with we := true } ∧
      t.progTimes = s.progTimes ∧ t.deadlines = s.deadlines := by
  have hcmd := partCommand_ewen s.cfg.aw (Config.admitted hr.1).aw_ge
  obtain ⟨hset, hpart, hdraws⟩ := frameBody_settled (ewenBits s.cfg.aw) hr.1 hrest (by simp [Part.pendingWrite, hcmd])
  simp only [Part.latchAfter, hcmd] at hpart
  exact ⟨_, exec_writeEnable hr, hset, hpart, hdraws⟩

theorem exec_writeDisable_settled {s : State} (hr : Ready s) (hrest : PartAtRest s) :
    ∃ t, exec .writeDisable s = .next t ∧ Settled s t ∧ t.part = { s.part with we := false } := by
  have hcmd := partCommand_ewds s.cfg.aw
  obtain ⟨hset, hpart, -⟩ := frameBody_settled (ewdsBits s.cfg.aw) hr.1 hrest (by simp [Part.pendingWrite, hcmd])
  simp only [Part.latchAfter, hcmd] at hpart
  exact ⟨_, exec_writeDisable hr, hset, hpart⟩

/-! ### WRITE_WORD -/

/-- The command shifted in does not matter to what is being programmed. -/
theorem busyFor_withCmd (a : Nat) (v : Word16) (k : Nat) (p : Part) (c : PartCmd) :
    { Part.busyFor a v k p with cmd := c } = Part.busyFor a v k { p with cmd := c } := by
  cases k <;> rfl

/-- The WRITE frame to an enabled part at rest starts to program the word, for the time that is drawn; END's hold is the
first step of it (R129, R130; log entry 12). -/
theorem runActs_writeFrame_enabled (a v : Word16) {s : State} (hok : s.cfg.ok = true) (hrest : PartAtRest s)
    (haddr : a.toNat < s.cfg.words) (hwe : s.part.we = true) {time : Nat} {times : List Nat}
    (htime : s.progTimes = time :: times) :
    (runActs (frameActs (writeBits s.cfg.aw a v)) s).part = Part.busyFor a.toNat v time s.part := by
  obtain ⟨ha, -, hw, hp⟩ := hrest
  obtain ⟨u, hcfg, hu, hprog, hpart, -⟩ := runActs_frame_part (writeBits s.cfg.aw a v) s hok ha hw
  have hcmd := partCommand_write s.cfg.aw a v haddr
  have htaken : Part.taken (writeBits s.cfg.aw a v) s.part =
      { s.part with cmd := .shifting (writeBits s.cfg.aw a v) } := by simp [Part.taken, hp]
  rw [tick_idle _ hp, ticks_idle _ (Part.taken _ s.part) hp, htaken] at hu
  obtain ⟨hend, -⟩ := partFrameEnd_write u a.toNat v (by rw [hcfg, hu]; simp [Part.pendingWrite, hcmd, hwe])
  have hdraw : nextProgTime u = time := by simp [nextProgTime, hprog, htime]
  have hlatch : Part.latchAfter u.cfg.aw u.part = u.part.we := by rw [hcfg, hu]; simp [Part.latchAfter, hcmd]
  have hbusy : Part.tick (Part.program a.toNat v time u.part) = Part.busyFor a.toNat v time u.part :=
    tick_busyFor a.toNat v time u.part (by rw [hu]; exact hp)
  rw [hpart, hend, hlatch, hdraw, hbusy, busyFor_withCmd, hu, ← hw]

/-- WRITE_WORD to an enabled part at rest, whose programming time does not outlast the deadline: the wait sees its end
(R92, R130). -/
theorem exec_writeWord_settled (a v : Word16) {s : State} (hr : Ready s) (hrest : PartAtRest s)
    (haddr : a.toNat < s.cfg.words) (hwe : s.part.we = true) {time n : Nat} {times ns : List Nat}
    (htime : s.progTimes = time :: times) (hdl : s.deadlines = n :: ns) (hle : time ≤ n) :
    ∃ t, exec (.writeWord a v) s = .next t ∧ Settled s t ∧
      t.part = { s.part with mem := Memory.writeWord s.part.mem a.toNat v } := by
  have hok : s.cfg.ok = true := hr.1
  have ⟨ha, _, hw, hp⟩ := hrest
  obtain ⟨hdone, -⟩ := writeWordBody_events a v s hok
  obtain ⟨st, hret, -, hbody⟩ := writeWordBody_eq a v (accept s) hok
  rw [writeActs_eq, ← writeBits] at hret hbody
  have hframe : (runActs (frameActs (writeBits s.cfg.aw a v)) (accept s)).part = Part.busyFor a.toNat v time s.part :=
    runActs_writeFrame_enabled a v (s := accept s) hok hrest haddr hwe htime
  obtain ⟨hctl, hcreg, -⟩ := runActs_frame (writeBits s.cfg.aw a v) (accept s) hok
  have hsp := runActs_samePort _ (accept s) (frameActs_straight (writeBits s.cfg.aw a v))
  obtain ⟨hpart, hret', -⟩ := waitBody_part time a.toNat v s.part _ (by rw [hsp.cfg]; exact hok)
    (hsp.attached.trans ha) (by rw [hctl, hcreg]) hw hp hframe (by simpa [nextDeadline, hsp.deadlines, hdl] using hle)
  obtain rfl : Status.ok = st := Option.some.inj (hret'.symm.trans hret)
  have hpart' : (writeWordBody a v (accept s)).part = { s.part with mem := Memory.writeWord s.part.mem a.toNat v } := by
    rw [hbody]
    exact hpart
  exact ⟨_, exec_writeWord hr (earlyStatus_writeWord_none v haddr),
    hdone.settled hok hrest (by rw [hbody, complete_status]) (by rw [hpart']) (by rw [hpart']), hpart'⟩

/-! ### READ_WORD -/

/-- The result of samples that are a word's bits, D15 first, is the word (R45, R90, R132). -/
theorem readResult_of_word {cfg : Config} {rs : List Word32} {w : Word16} (hlen : rs.length = 16)
    (h : rs.map (doBit cfg) = msbBits (w.setWidth 32) 16) : readResult (accAfter cfg 0 rs) = w.setWidth 32 := by
  refine BitVec.eq_of_toNat_eq ?_
  rw [readResult_toNat cfg rs hlen, sampledWord, h, bitsToNat_msbBits, BitVec.toNat_setWidth]
  have := w.isLt
  omega

/-- READ_WORD from a part at rest answers its word and leaves the part as it was (R90, R132). -/
theorem exec_readWord_settled (a : Word16) {s : State} (hr : Ready s) (hrest : PartAtRest s)
    (haddr : a.toNat < s.cfg.words) :
    ∃ t, exec (.readWord a) s = .next t ∧ Settled s t ∧ t.part = s.part ∧
      t.data = (Memory.readWord s.part.mem a.toNat).setWidth 32 := by
  have hok : s.cfg.ok = true := hr.1
  have ⟨ha, _, hw, hp⟩ := hrest
  obtain ⟨hdone, -⟩ := readWordBody_events a s hok
  obtain ⟨hpart, hret, rs, hlen, hbits, hacc⟩ := sendRead_part a (accept s) hok ha hw hp haddr
  have hbody : readWordBody a (accept s) = complete .ok (readResult (accAfter s.cfg 0 rs)) (sendRead a (accept s)) := by
    simp [readWordBody, hret, runAct, hacc]
  have hpart' : (readWordBody a (accept s)).part = s.part := by
    rw [hbody]
    exact hpart
  refine ⟨_, exec_readWord hr (earlyStatus_readWord_none haddr),
    hdone.settled hok hrest (by rw [hbody, complete_status]) (by rw [hpart']) (by rw [hpart']), hpart', ?_⟩
  rw [hbody, complete_data]
  exact readResult_of_word hlen hbits

/-! ### The four steps -/

/-- A step over the descriptor of a host operation is the operation (R116). -/
theorem run_descriptor {s t : State} {i : Instr} {d : Descriptor} {ms : List Move} (n : Nat) (hok : s.cfg.ok = true)
    (hi : i.isHostOp = true) (hw : i.wf s.cfg.aw = true) (hd : encodeDescriptor i = some d) (hm : s.moves = .run d :: ms)
    (h : exec i { s with moves := ms } = .next t) :
    Host.Core.run core (n + 1) s = Host.Core.run core n t := by
  obtain ⟨e, he, hdec⟩ := decodeDescriptor_encodeDescriptor hw hi
  obtain rfl : d = e := Option.some.inj (hd.symm.trans he)
  exact run_succ n s t (by rw [step_cons hok hm, runMove, hdec, h])

/-- Settles O60: each step settles, so the next one starts from a ready state with the part at rest. -/
theorem roundTripUnderTheReferencePart : Obligations.RoundTripUnderTheReferencePart := by
  intro s addr value time n times ns d1 d2 d3 d4 hr hrest hwf haddr htime hdl hle h1 h2 h3 h4 hm
  obtain ⟨t1, hx1, q1, p1, htime1, hdl1⟩ :=
    exec_writeEnable_settled (s := { s with moves := [.run d2, .run d3, .run d4] }) hr hrest
  obtain ⟨t2, hx2, q2, p2⟩ := exec_writeWord_settled addr value (s := { t1 with moves := [.run d3, .run d4] }) q1.ready
    q1.rest (by simpa [Config.words, q1.cfg] using haddr) (by simp [p1]) (htime1.trans htime) (hdl1.trans hdl) hle
  obtain ⟨t3, hx3, q3, p3⟩ := exec_writeDisable_settled (s := { t2 with moves := [.run d4] }) q2.ready q2.rest
  have haddr4 : addr.toNat < t3.cfg.words := by simpa [q3.cfg, q2.cfg, q1.cfg] using haddr
  obtain ⟨t4, hx4, q4, p4, hdata⟩ := exec_readWord_settled addr (s := { t3 with moves := [] }) q3.ready q3.rest haddr4
  have hpart : t4.part =
      { s.part with mem := Memory.writeWord s.part.mem addr.toNat value, we := false } := by
    rw [p4, p3, p2, p1]
  have hread : t4.data = (Memory.readWord t4.part.mem addr.toNat).setWidth 32 := by rw [hdata, p4]
  refine ⟨t4, ?_, q4.status, ?_, by rw [hpart], fun k hk => ?_⟩
  · rw [run_descriptor 3 hr.1 rfl rfl h1 hm hx1, run_descriptor 2 q1.ready.1 rfl rfl h2 q1.moves hx2,
      run_descriptor 1 q2.ready.1 rfl rfl h3 q2.moves hx3, run_descriptor 0 q3.ready.1 rfl rfl h4 q3.moves hx4]
    rfl
  · rw [hread, hpart, Memory.readWord_writeWord_same hwf]
  · rw [hpart, Memory.readWord_writeWord_ne _ _ hk]

end Sys2Proof.Machine

/-! SUPPORT. READ_WORD and WRITE_WORD under the reference part (R129 to R135), the reserved codes (R107), and the idle
sequencer beside a part that goes on by itself (R115, R126). -/

namespace Sys2Proof.Machine

/-! ### Operations on a part at rest -/

/-- Settles O58: `exec_readWord_settled`, which the round trip uses as well. -/
theorem referencePartAnswersReadWord : Obligations.ReferencePartAnswersReadWord := by
  intro s addr hr hrest haddr
  obtain ⟨t, hexec, hset, hpart, hdata⟩ := exec_readWord_settled addr hr hrest haddr
  exact ⟨t, hexec, hset.status, hdata, hpart, hset.rest⟩

/-- WAIT from `u` polls a 0 `k` times, then a 1, and leaves the part as `p` (R95, R130). -/
def WaitSees (k : Nat) (p : Part) (u : State) : Prop :=
  (waitBody u).part = p ∧ (waitBody u).ret = some .ok ∧
  ∃ earlier last, earlier.length = k ∧ (waitBody u).history =
    (.write (reassertValue u.cfg u.creg) :: (earlierEvents earlier ++
      [Event.read last, Event.write (endValue u.cfg u.creg), Event.delay 2])).reverse ++ u.history

/-- A whole frame leaves the configuration and the attachment, draws no deadline, and ends with the lines of `ctl`
(R52, R85). -/
theorem runActs_frame_port (bits : List Bool) {s : State} (hok : s.cfg.ok = true) :
    (runActs (frameActs bits) s).cfg = s.cfg ∧ (runActs (frameActs bits) s).attached = s.attached ∧
    (runActs (frameActs bits) s).deadlines = s.deadlines ∧
    (runActs (frameActs bits) s).ctl = some (runActs (frameActs bits) s).creg := by
  obtain ⟨hctl, hcreg, -⟩ := runActs_frame bits s hok
  have hsp := runActs_samePort _ s (frameActs_straight bits)
  exact ⟨hsp.cfg, hsp.attached, hsp.deadlines, by rw [hctl, hcreg]⟩

/-- After a WRITE frame to an enabled part at rest, WAIT sees the programming time pass, if the deadline allows it
(R129, R130). -/
theorem waitSees_enabled (a v : Word16) {s : State} (hok : s.cfg.ok = true) (hrest : PartAtRest s)
    (haddr : a.toNat < s.cfg.words) (hwe : s.part.we = true) {time n : Nat} {times ns : List Nat}
    (htime : s.progTimes = time :: times) (hdl : s.deadlines = n :: ns) (hle : time ≤ n) :
    WaitSees time { s.part with mem := Memory.writeWord s.part.mem a.toNat v }
      (runActs (frameActs (writeBits s.cfg.aw a v)) s) := by
  have hframe := runActs_writeFrame_enabled a v hok hrest haddr hwe htime
  obtain ⟨hcfg, hatt, hdls, hctl⟩ := runActs_frame_port (writeBits s.cfg.aw a v) hok
  obtain ⟨ha, -, hw, hp⟩ := hrest
  exact waitBody_part time a.toNat v s.part _ (by rw [hcfg]; exact hok) (hatt.trans ha) hctl hw hp hframe
    (by simpa [nextDeadline, hdls, hdl] using hle)

/-- A WRITE frame to a part that is not enabled leaves a part at rest as it was (R129, R133). -/
theorem runActs_writeFrame_disabled (a v : Word16) {s : State} (hok : s.cfg.ok = true) (hrest : PartAtRest s)
    (haddr : a.toNat < s.cfg.words) (hwe : s.part.we = false) :
    (runActs (frameActs (writeBits s.cfg.aw a v)) s).part = s.part := by
  have hcmd := partCommand_write s.cfg.aw a v haddr
  rw [runActs_frame_rest _ s hok hrest (by simp [Part.pendingWrite, hcmd, hwe])]
  simp [Part.latchAfter, hcmd]

/-- After a WRITE frame to a part at rest that is not enabled, WAIT sees a ready part at once (R130, R133). -/
theorem waitSees_disabled (a v : Word16) {s : State} (hok : s.cfg.ok = true) (hrest : PartAtRest s)
    (haddr : a.toNat < s.cfg.words) (hwe : s.part.we = false) :
    WaitSees 0 s.part (runActs (frameActs (writeBits s.cfg.aw a v)) s) := by
  have hframe := runActs_writeFrame_disabled a v hok hrest haddr hwe
  obtain ⟨hcfg, hatt, -, hctl⟩ := runActs_frame_port (writeBits s.cfg.aw a v) hok
  obtain ⟨ha, -, hw, hp⟩ := hrest
  obtain ⟨hpart, hret, last, hhist⟩ := waitBody_part_ready _ (by rw [hcfg]; exact hok) (hatt.trans ha) hctl
    (by rw [hframe]; exact hw) (by rw [hframe]; exact hp)
  exact ⟨hpart.trans hframe, hret, [], last, rfl, hhist⟩

/-- WRITE_WORD from a part at rest is its frame and what WAIT sees after it: START's read, and one read for each poll
(R92, R95). -/
theorem exec_writeWord_of_waitSees (a v : Word16) {s : State} (hr : Ready s) (hrest : PartAtRest s)
    (haddr : a.toNat < s.cfg.words) {k : Nat} {p : Part} (hcmd : p.cmd = s.part.cmd)
    (hprog : p.programming = s.part.programming)
    (hwait : WaitSees k p (runActs (frameActs (writeBits s.cfg.aw a v)) (accept s))) :
    ∃ t evs, exec (.writeWord a v) s = .next t ∧ t.status = .ok ∧ t.part = p ∧ PartAtRest t ∧
      Added s t evs ∧ (readsOf evs).length = k + 2 ∧ yieldsOf evs = k := by
  have hok : s.cfg.ok = true := hr.1
  obtain ⟨hpart, hret, earlier, last, rfl, hhist⟩ := hwait
  obtain ⟨hdone, -⟩ := writeWordBody_events a v s hok
  obtain ⟨st, hret', -, hbody⟩ := writeWordBody_eq a v (accept s) hok
  rw [writeActs_eq, ← writeBits, accept_cfg] at hret' hbody
  obtain rfl : Status.ok = st := Option.some.inj (hret.symm.trans hret')
  have hpart' : (writeWordBody a v (accept s)).part = p := by
    rw [hbody]
    exact hpart
  have hset := hdone.settled hok hrest (by rw [hbody, complete_status]) (by rw [hpart', hcmd]) (by rw [hpart', hprog])
  obtain ⟨-, -, -, -, -, hframe⟩ := runActs_frame (writeBits s.cfg.aw a v) (accept s) hok
  generalize runActs (frameActs (writeBits s.cfg.aw a v)) (accept s) = u at *
  have hadd : Added s (writeWordBody a v (accept s)) (headEvents s.cfg (readValue s) (writeBits s.cfg.aw a v)
      (.write (endValue s.cfg (readValue s)) :: .delay 2 :: .write (reassertValue u.cfg u.creg) ::
        (earlierEvents earlier ++ [.read last, .write (endValue u.cfg u.creg), .delay 2, .completed .ok 0]))) := by
    rw [Added, hbody, complete_history, hhist, hframe]
    simp [headEvents]
  refine ⟨_, _, exec_writeWord hr (earlyStatus_writeWord_none v haddr), hset.status, hpart', hset.rest, hadd, ?_, ?_⟩
  · simp [readsOf_head, readsOf, readsOf_earlier]
  · simp [yieldsOf_head, yieldsOf, yieldsOf_earlier]

/-- Settles O59: what WAIT sees after the frame, by the latch. -/
theorem referencePartTakesWriteWord : Obligations.ReferencePartTakesWriteWord := by
  intro s addr value time n times ns hr hrest haddr htime hdl
  refine ⟨fun hwe hle => ?_, fun hwe => ?_⟩
  · exact exec_writeWord_of_waitSees addr value hr hrest haddr rfl rfl
      (waitSees_enabled addr value (s := accept s) hr.1 hrest haddr hwe htime hdl hle)
  · exact exec_writeWord_of_waitSees addr value hr hrest haddr rfl rfl
      (waitSees_disabled addr value (s := accept s) hr.1 hrest haddr hwe)

/-! ### Reserved codes (R107) -/

/-- Settles O28: the code decodes to the reserved row, whose early status is always there. -/
theorem reservedCodeCompletesWithIllegalOp : Obligations.ReservedCodeCompletesWithIllegalOp := by
  intro s d hok hb hcode
  have hop : isReservedOp (Descriptor.op d) = true := (isReservedOp_iff _).2 hcode
  exact ⟨decodeDescriptor_reserved hop, hostOp_early id hok hb hop rfl⟩

/-! ### The idle sequencer (R126) -/

/-- An idle machine with nothing scheduled takes one step of the part's own, and so does a move of the part (R115,
R126). -/
theorem step_partStep {s : State} {ms : List Move} (hok : s.cfg.ok = true)
    (h : (s.busy = false ∧ s.moves = [] ∧ ms = []) ∨ s.moves = .part :: ms) :
    step s = .next (partStep { s with moves := ms }) := by
  obtain ⟨hb, hm, rfl⟩ | hm := h
  · have hs : { s with moves := [] } = s := by rw [← hm]
    rw [step_nil hok hm, runNoMove, if_neg (by simp [hb]), hs]
  · exact step_cons hok hm

/-- A word being programmed comes one unit of time nearer its end, at which the word array holds it (R129, R130). -/
theorem tick_programming {p : Part} {g : Programming} (h : p.programming = some g) :
    Part.tick p =
      if g.left = 0 then { p with mem := Memory.writeWord p.mem g.addr g.value, programming := none }
      else { p with programming := some { g with left := g.left - 1 } } := by
  simp [Part.tick, h, Part.finishProgramming]

/-- Settles O49: the step is `partStep`, by what answers for DO. -/
theorem idleSequencerWaits : Obligations.IdleSequencerWaits := by
  intro s ms hok h
  rw [step_partStep hok h]
  obtain ha | ha : s.attached = .oracle ∨ s.attached = .reference := by
    cases s.attached <;> decide
  · exact ⟨s.part, congrArg Host.Outcome.next (partStep_oracle _ ha), fun _ => rfl, fun _ hr => nomatch ha.symm.trans hr⟩
  · refine ⟨Part.tick s.part, congrArg Host.Outcome.next (partStep_reference _ ha), fun hidle => ?_,
      fun g _ hg => tick_programming hg⟩
    exact tick_idle _ (hidle.resolve_left fun ho => nomatch ha.symm.trans ho)

end Sys2Proof.Machine

/-! SUPPORT. The excluded configurations: which ones a machine is built for, and what every other one answers (R140,
I12). -/

namespace Sys2Proof.Machine

/-! ### Building a machine (R140) -/

theorem create_of_admitted {c : Config} (h : Admitted c) : State.create c = some (State.fresh c) :=
  if_pos ((Config.ok_iff_admitted c).2 h)

theorem create_of_not_admitted {c : Config} (h : ¬ Admitted c) : State.create c = none :=
  if_neg (mt Config.admitted h)

/-- Settles O2: the statement's items are the fields of `Admitted`. -/
theorem instanceIsBuiltForAdmittedConfigurationsOnly :
    Obligations.InstanceIsBuiltForAdmittedConfigurationsOnly := by
  refine fun c => ⟨fun h => create_of_admitted ?_, fun h => create_of_not_admitted fun a => h ?_⟩
  · obtain ⟨capacity, aw_ge, aw_le, lt_sk, lt_cs, lt_di, lt_do, sk_cs, sk_di, sk_do, cs_di, cs_do, di_do, doe,
      sk, cs, di, dout, offset⟩ := h
    exact { capacity, aw_ge, aw_le, lt_sk, lt_cs, lt_di, lt_do, sk_cs, sk_di, sk_do, cs_di, cs_do, di_do, doe,
            sk, cs, di, dout, offset }
  · exact ⟨a.capacity, a.aw_ge, a.aw_le, a.lt_sk, a.lt_cs, a.lt_di, a.lt_do, a.sk_cs, a.sk_di, a.sk_do, a.cs_di,
      a.cs_do, a.di_do, a.doe, a.sk, a.cs, a.di, a.dout, a.offset⟩

/-! ### Steps and rows (I12) -/

/-- The meaning of a frame or a micro-operation is `engineOp` with its phase, its need of `ctl` and its body (R62, R79,
R86). -/
theorem exec_eq_engineOp {i : Instr} (hi : i.isHostOp = false) :
    ∃ p needsCtl body, ∀ s, exec i s = engineOp i p needsCtl body s := by
  cases i with
  | readFrame a => exact ⟨.idle, false, sendRead a, fun _ => rfl⟩
  | writeFrame a v => exact ⟨.idle, false, fun t => runActs (writeActs t.cfg.aw a v) t, fun _ => rfl⟩
  | ewenFrame => exact ⟨.idle, false, fun t => runActs (ewenActs t.cfg.aw) t, fun _ => rfl⟩
  | ewdsFrame => exact ⟨.idle, false, fun t => runActs (ewdsActs t.cfg.aw) t, fun _ => rfl⟩
  | start => exact ⟨.idle, false, runActs startActs, fun _ => rfl⟩
  | putBits v n => exact ⟨.commandActive, true, runActs (putActs v n), fun _ => rfl⟩
  | getBits n => exact ⟨.commandActive, true, runActs (getActs n), fun _ => rfl⟩
  | endOp => exact ⟨.commandActive, true, runActs endActs, fun _ => rfl⟩
  | wait => exact ⟨.idle, true, waitBody, fun _ => rfl⟩
  | _ => cases hi

theorem step_badConfiguration {s : State} (h : s.cfg.ok = false) : step s = .refused .badConfiguration := if_pos h

/-- Both kinds of row look at the configuration first (R140). -/
theorem exec_badConfiguration {s : State} (i : Instr) (h : s.cfg.ok = false) :
    exec i s = .refused .badConfiguration := by
  cases hi : i.isHostOp with
  | true =>
    obtain ⟨body, hexec⟩ := exec_eq_hostOp hi
    exact (hexec s).trans (if_pos h)
  | false =>
    obtain ⟨p, needsCtl, body, hexec⟩ := exec_eq_engineOp hi
    exact (hexec s).trans (if_pos h)

/-- Settles O50: a step and a row of either kind ask for the check first. -/
theorem excludedConfigurationIsRefused : Obligations.ExcludedConfigurationIsRefused :=
  fun _ i h => ⟨step_badConfiguration h, exec_badConfiguration i h⟩

end Sys2Proof.Machine

/-! SUPPORT. The words and frames that the test vectors write out (V1 to V8, W8): each descriptor by the lemma of its code,
each frame by its encoder's equation. -/

namespace Sys2Proof

/-- Settles O11: each word's code selects its operation (R71, R73), whose operands are the word's fields, and each frame is
the start bit, its opcode bits and its address or padding (R65, R67). -/
theorem specWordsDecode : Obligations.SpecWordsDecode := by
  refine ⟨?v1, ?v2, ?v3, ?v4, ?v7, ?v8, ?read, ?ewen⟩
  case v1 => exact decodeDescriptor_readWord (by decide)
  case v2 => exact decodeDescriptor_writeWord (by decide)
  case v3 => exact decodeDescriptor_writeEnable (by decide)
  case v4 => exact decodeDescriptor_writeDisable (by decide)
  case v7 => exact decodeDescriptor_reserved (by decide)
  case v8 => exact decodeDescriptor_readWord (by decide)
  case read => exact Machine.encodeFrame_read 6 5
  case ewen => exact Machine.encodeFrame_ewen 6

end Sys2Proof
